-- ==== Sys2Proof/Word.lean ====
section
/-! DEFINITION. The widths of the block's values (00_scope.md R10, R12): a field element, a count or an error code is a
byte, an address or a length is a halfword, a command or a port register is a word. -/

namespace Sys2Proof

/-- A field element, exponent, threshold, share amount, share count, index or error code: 8 bits (R10). -/
abbrev Byte := BitVec 8

/-- A DMEM address or a length: 16 bits (R10). -/
abbrev Half := BitVec 16

/-- A command word or a port register: 32 bits (R10). -/
abbrev Word := BitVec 32

end Sys2Proof
end

