-- ==== Sys2Proof/Config.lean ====
section
/-! DEFINITION. What one instance of the block fixes for its life (00_scope.md R7 to R11), and the free values the spec
leaves to the random-byte provider (20_memory.md R57). -/

namespace Sys2Proof

/-- The parameters of one instance: the reducing polynomial `POLY` (R7; bit i is the coefficient of z^i) and the size of
DMEM in bytes (R9). State carries them as the constant registers POLY and MEMSIZE, so every claim about every state is a
claim for every value of both. -/
structure Config where
  poly    : BitVec 9
  memSize : Nat
  deriving DecidableEq, Repr

/-- The 30 legal values of `POLY`: the monic irreducible polynomials of degree 8 over GF(2) (R8). -/
def legalPolys : List (BitVec 9) :=
  [0x11B#9, 0x11D#9, 0x12B#9, 0x12D#9, 0x139#9, 0x13F#9, 0x14D#9, 0x15F#9, 0x163#9, 0x165#9] ++
  [0x169#9, 0x171#9, 0x177#9, 0x17B#9, 0x187#9, 0x18B#9, 0x18D#9, 0x19F#9, 0x1A3#9, 0x1A9#9] ++
  [0x1B1#9, 0x1BD#9, 0x1C3#9, 0x1CF#9, 0x1D7#9, 0x1DD#9, 0x1E7#9, 0x1F3#9, 0x1F5#9, 0x1F9#9]

/-- The 16 legal values under which the element 0x02 has multiplicative order 255 (R8). -/
def primitivePolys : List (BitVec 9) :=
  [0x11D#9, 0x12B#9, 0x12D#9, 0x14D#9, 0x15F#9, 0x163#9, 0x165#9, 0x169#9] ++
  [0x171#9, 0x187#9, 0x18D#9, 0x1A9#9, 0x1C3#9, 0x1CF#9, 0x1E7#9, 0x1F5#9]

/-- DESIGN CHOICE (log entry 3): the instance that `State.reset` describes, the spec's reference memory size (R9) and the
first of its two reference polynomials (R8). No statement rests on it. -/
def Config.reference : Config := { poly := 0x11B#9, memSize := 65536 }

/-- FREE VALUE (log entry 1): the byte the provider answers to the draw numbered `q` since power-on, where State lists no
byte for it. "The spec places no law on its value" (20_memory.md R57), so it has no body. -/
opaque Config.randomByte : Nat → Byte

end Sys2Proof
end

