-- ==== Sys2Proof/Syntax.lean ====
section
/-! DEFINITION. The commands (30_encoding.md R73), the source form of the assembler (R79 to R81) and the transactions of
the block's interfaces (20_memory.md R50). -/

namespace Sys2Proof

/-- The twelve commands, one constructor per row of the opcode map (R73). Operands are the fields A, B (8 bits) and IMM
(16 bits) of the command word, "used as they stand" (R72), so every term is a command some word encodes. -/
inductive Instr where
  /-- `GADD a, b`: field addition (40_field.md R103). -/
  | gadd (a b : Byte)
  /-- `GMUL a, b`: field multiplication (R104). -/
  | gmul (a b : Byte)
  /-- `GINV a`: multiplicative inverse (R105). -/
  | ginv (a : Byte)
  /-- `GPOW a, n`: exponentiation (R106). -/
  | gpow (a n : Byte)
  /-- `SETSRC addr` (43_config.md R160). -/
  | setsrc (addr : Half)
  /-- `SETDST addr` (R161). -/
  | setdst (addr : Half)
  /-- `SETLEN len` (R162). -/
  | setlen (len : Half)
  /-- `SETTN t, n`: threshold first (R163, 30_encoding.md R80). -/
  | settn (t n : Byte)
  /-- `SETM m` (R164). -/
  | setm (m : Byte)
  /-- `EVAL x`: evaluate the polynomial at SRC (41_generator.md R125). -/
  | eval (x : Byte)
  /-- `SPLIT` (R128). -/
  | split
  /-- `RECON` (42_interpolator.md R141). -/
  | recon
  deriving DecidableEq, Repr

/-- The mnemonics an assembler knows: the twelve commands and the four pseudo-instructions of R81. -/
inductive Mnemonic where
  | gadd | gmul | ginv | gpow | setsrc | setdst | setlen | settn | setm | eval | split | recon
  | gsub | gsqr | gone | gzero
  deriving DecidableEq, Repr

/-- One line of assembler source after reading (R79): a mnemonic and its integer literals, not yet known to fit. -/
structure SourceCommand where
  mnemonic : Mnemonic
  operands : List Nat
  deriving DecidableEq, Repr

/-- One interaction of the host or the environment with the block (20_memory.md R50). -/
inductive Transaction where
  /-- `RegWrite(r, w)`; `r = 0` is CMD and issues the command `w` (10_state.md R35). -/
  | regWrite (r : Fin 16) (w : Word)
  /-- `RegRead(r)`. -/
  | regRead (r : Fin 16)
  /-- A write of `data`, lowest address first, at a byte offset from the block's base (R55). -/
  | busWrite (offset : Nat) (data : List Byte)
  /-- A read of `width` bytes at a byte offset from the block's base (R55). -/
  | busRead (offset width : Nat)
  /-- `HostMemWrite(a, v)` (R56). -/
  | hostMemWrite (a : Half) (v : Byte)
  /-- `HostMemRead(a)` (R56). -/
  | hostMemRead (a : Half)
  /-- The reset transaction, between commands (70_reset_and_hazards.md R210, R211). -/
  | reset
  /-- A reset that arrives while the command word `w`, just written to CMD, executes, after it drew `taken` random bytes
  (R212); log entry 8. -/
  | resetDuring (w : Word) (taken : Nat)
  deriving DecidableEq, Repr

end Sys2Proof
end

