-- ==== Sys2Proof/WellFormed.lean ====
section
/-! DEFINITION. Which parameters make an instance (00_scope.md R7 to R9) and which source commands an assembler accepts
(30_encoding.md R79, R81). A term of `Instr` needs no check: its operands have the widths of their fields, so none can
be out of range (R72); an operand that does not fit is refused where it can still occur, in `SourceCommand`. -/

namespace Sys2Proof

/-- A legal instance: `POLY` irreducible (R8) and `1 ≤ MEM_SIZE ≤ 65536` (R9). -/
abbrev Config.Legal (c : Config) : Prop :=
  c.poly ∈ legalPolys ∧ 1 ≤ c.memSize ∧ c.memSize ≤ 65536

/-- The exclusive upper bound of each operand of a mnemonic, in source order: "0 to 255 for A and B, 0 to 65535 for IMM"
(R79), and the pseudo-instructions' operands (R81). -/
def Mnemonic.bounds : Mnemonic → List Nat
  | .gadd => [256, 256]
  | .gmul => [256, 256]
  | .ginv => [256]
  | .gpow => [256, 256]
  | .setsrc => [65536]
  | .setdst => [65536]
  | .setlen => [65536]
  | .settn => [256, 256]
  | .setm => [256]
  | .eval => [256]
  | .split => []
  | .recon => []
  | .gsub => [256, 256]
  | .gsqr => [256]
  | .gone => []
  | .gzero => []

/-- A source command an assembler accepts: it has its mnemonic's operands, and each "must fit its field" (R79). -/
def SourceCommand.wf (c : SourceCommand) : Bool :=
  c.operands.length == c.mnemonic.bounds.length &&
    (c.operands.zip c.mnemonic.bounds).all fun p => decide (p.1 < p.2)

end Sys2Proof
end

