-- ==== Sys2Proof/Decode.lean ====
section
/-! DEFINITION. The opcode map, the decoder and the encoder of command words (30_encoding.md R70 to R78). -/

namespace Sys2Proof

/-! ## Fields of a command word (R70 to R72) -/

/-- `OP = w[31:24]`. -/
def fieldOP (w : Word) : Byte := w.extractLsb' 24 8

/-- `A = w[23:16]`. -/
def fieldA (w : Word) : Byte := w.extractLsb' 16 8

/-- `B = w[15:8]`. -/
def fieldB (w : Word) : Byte := w.extractLsb' 8 8

/-- `IMM = w[15:0]`. -/
def fieldIMM (w : Word) : Half := w.extractLsb' 0 16

/-! ## Decoding (R74) -/

/-- A command whose must-be-zero field is zero; ILLEGAL otherwise (R71, R74). -/
def whenZero {k : Nat} (z : BitVec k) (i : Instr) : Option Instr :=
  if z = 0#k then some i else none

/-- The decoder of R74, total on every word; `none` is ILLEGAL. -/
def decode (w : Word) : Option Instr :=
  if fieldOP w = 0x01#8 then whenZero (w.extractLsb' 0 8) (.gadd (fieldA w) (fieldB w))
  else if fieldOP w = 0x02#8 then whenZero (w.extractLsb' 0 8) (.gmul (fieldA w) (fieldB w))
  else if fieldOP w = 0x04#8 then whenZero (w.extractLsb' 0 8) (.gpow (fieldA w) (fieldB w))
  else if fieldOP w = 0x13#8 then whenZero (w.extractLsb' 0 8) (.settn (fieldA w) (fieldB w))
  else if fieldOP w = 0x03#8 then whenZero (w.extractLsb' 0 16) (.ginv (fieldA w))
  else if fieldOP w = 0x14#8 then whenZero (w.extractLsb' 0 16) (.setm (fieldA w))
  else if fieldOP w = 0x20#8 then whenZero (w.extractLsb' 0 16) (.eval (fieldA w))
  else if fieldOP w = 0x10#8 then whenZero (w.extractLsb' 16 8) (.setsrc (fieldIMM w))
  else if fieldOP w = 0x11#8 then whenZero (w.extractLsb' 16 8) (.setdst (fieldIMM w))
  else if fieldOP w = 0x12#8 then whenZero (w.extractLsb' 16 8) (.setlen (fieldIMM w))
  else if fieldOP w = 0x21#8 then whenZero (w.extractLsb' 0 24) .split
  else if fieldOP w = 0x30#8 then whenZero (w.extractLsb' 0 24) .recon
  else none

/-! ## Encoding (R71, R73) -/

/-- Format B: `{OP, A, B, 0x00}`. -/
def formatB (op a b : Byte) : Word := op ++ a ++ b ++ 0x00#8

/-- Format U: `{OP, A, 0x0000}`. -/
def formatU (op a : Byte) : Word := op ++ a ++ 0x0000#16

/-- Format I: `{OP, 0x00, IMM}`. -/
def formatI (op : Byte) (imm : Half) : Word := op ++ 0x00#8 ++ imm

/-- Format N: `{OP, 0x000000}`. -/
def formatN (op : Byte) : Word := op ++ 0x000000#24

/-- The word of a command. -/
def encode : Instr → Word
  | .gadd a b => formatB 0x01#8 a b
  | .gmul a b => formatB 0x02#8 a b
  | .ginv a => formatU 0x03#8 a
  | .gpow a n => formatB 0x04#8 a n
  | .setsrc addr => formatI 0x10#8 addr
  | .setdst addr => formatI 0x11#8 addr
  | .setlen len => formatI 0x12#8 len
  | .settn t n => formatB 0x13#8 t n
  | .setm m => formatU 0x14#8 m
  | .eval x => formatU 0x20#8 x
  | .split => formatN 0x21#8
  | .recon => formatN 0x30#8

/-! ## The opcode map as data (R73) -/

/-- One row of the opcode map: "A word w selects a row exactly when `(w & mask) = match`" (R73). -/
structure OpcodeRow where
  mnemonic : Mnemonic
  mask     : Word
  pattern  : Word
  deriving DecidableEq, Repr

/-- The twelve rows of R73. -/
def opcodeTable : List OpcodeRow :=
  [ { mnemonic := .gadd, mask := 0xFF0000FF#32, pattern := 0x01000000#32 }
  , { mnemonic := .gmul, mask := 0xFF0000FF#32, pattern := 0x02000000#32 }
  , { mnemonic := .ginv, mask := 0xFF00FFFF#32, pattern := 0x03000000#32 }
  , { mnemonic := .gpow, mask := 0xFF0000FF#32, pattern := 0x04000000#32 }
  , { mnemonic := .setsrc, mask := 0xFFFF0000#32, pattern := 0x10000000#32 }
  , { mnemonic := .setdst, mask := 0xFFFF0000#32, pattern := 0x11000000#32 }
  , { mnemonic := .setlen, mask := 0xFFFF0000#32, pattern := 0x12000000#32 }
  , { mnemonic := .settn, mask := 0xFF0000FF#32, pattern := 0x13000000#32 }
  , { mnemonic := .setm, mask := 0xFF00FFFF#32, pattern := 0x14000000#32 }
  , { mnemonic := .eval, mask := 0xFF00FFFF#32, pattern := 0x20000000#32 }
  , { mnemonic := .split, mask := 0xFFFFFFFF#32, pattern := 0x21000000#32 }
  , { mnemonic := .recon, mask := 0xFFFFFFFF#32, pattern := 0x30000000#32 } ]

/-- A word selects a row (R73). -/
def OpcodeRow.selects (row : OpcodeRow) (w : Word) : Bool := w &&& row.mask == row.pattern

/-- The mnemonic of a command. -/
def mnemonicOf : Instr → Mnemonic
  | .gadd _ _ => .gadd
  | .gmul _ _ => .gmul
  | .ginv _ => .ginv
  | .gpow _ _ => .gpow
  | .setsrc _ => .setsrc
  | .setdst _ => .setdst
  | .setlen _ => .setlen
  | .settn _ _ => .settn
  | .setm _ => .setm
  | .eval _ => .eval
  | .split => .split
  | .recon => .recon

/-- The command a host's opcode-table word stands for: a table word is the command word itself (R70, R78), its bits
above `nbits` zero; log entry 17. -/
def decodeTableWord (nbits w : Nat) : Option Instr :=
  if w % 2 ^ nbits < 2 ^ 32 then decode (BitVec.ofNat 32 (w % 2 ^ nbits)) else none

end Sys2Proof
end

