-- ==== Sys2Proof/Machine/State.lean ====
section
/-! DEFINITION. The state of one instance (10_state.md R22 to R44), of its inputs and outputs (20_memory.md R50, R57),
the reasons a step can stop (60_exceptions.md R201), and the state after power-on reset (R44, 70_reset_and_hazards.md
R210, R211). -/

namespace Sys2Proof.Machine

/-- DMEM as the list of its WRITTEN bytes, addresses strictly rising. An address that is not listed is unwritten and
reads as no value (20_memory.md R52; log entry 4). -/
abbrev Memory := List Host.Cell

/-- The canonical form: addresses strictly rise, so equal memories are equal lists. -/
abbrev Memory.wf (mem : Memory) : Prop := mem.Pairwise fun x y => x.1 < y.1

/-- Every written byte lies in DMEM: addresses 0 to `MEM_SIZE`-1 (R51). -/
abbrev Memory.within (mem : Memory) (size : Nat) : Prop := ∀ c ∈ mem, c.1 < size

/-- The random-byte provider as the block meets it (20_memory.md R57; log entries 1 and 2): it answers the bytes of
`ready` in order; after them, if `live`, the free values `Config.randomByte`, and if not `live`, nothing ever (R201).
`drawn` counts the bytes drawn since power-on. -/
structure Provider where
  ready : List Byte
  live  : Bool
  drawn : Nat
  deriving DecidableEq, Repr

/-- What the block answers to a transaction that reads (R50). -/
inductive Reply where
  /-- The 32-bit answer of `RegRead`. -/
  | word (w : Word)
  /-- The byte answer of `HostMemRead`. -/
  | byte (b : Byte)
  /-- The answer of a byte-bus read, lowest address first (R55). -/
  | bus (data : List Byte)
  deriving DecidableEq, Repr

/-- The whole state. The first block is the architectural state of R22 (ID is a constant, 10_state.md R33); the second
is the model's own: the block's inputs not yet taken and its last answer (log entries 1, 2, 5, 6). -/
structure State where
  cfg     : Config
  res     : Byte
  err     : Byte
  src     : Half
  dst     : Half
  len     : Half
  t       : Byte
  n       : Byte
  m       : Byte
  mem     : Memory
  rng     : Provider
  pending : List Transaction
  reply   : Option Reply
  deriving DecidableEq, Repr

/-- Why the model stops with a fault. -/
inductive Fault where
  /-- Raised by EVAL, SPLIT, RECON and a host memory read: the byte at `addr` is unwritten (20_memory.md R52). Safe: the
  hardware returns a byte the spec does not fix, the model stops. -/
  | unwrittenByte (addr : Nat)
  /-- Raised by SPLIT: the provider never answers, so the command waits for ever (60_exceptions.md R201, a stuck state).
  Safe: the hardware never completes the command either. -/
  | providerSilent
  deriving DecidableEq, Repr

/-- Why the model refuses a step. -/
inductive Refusal where
  /-- Raised by `exec` for a command without a meaning; no arm of this model raises it. Safe. -/
  | notModelled (mnemonic : String)
  /-- Raised by a byte-bus access that is not a whole aligned 32-bit access inside offsets 0 to 63: "not a transaction of
  the block: a model refuses it" (20_memory.md R55). Safe. -/
  | notATransaction (offset width : Nat)
  deriving DecidableEq, Repr

/-- Power-on reset of an instance with parameters `c` (R44, R210, R211): every register at zero, every DMEM byte
unwritten, no transaction pending, a provider that answers free values. -/
def State.powerOn (c : Config) : State :=
  { cfg := c
    res := 0x00#8
    err := 0x00#8
    src := 0x0000#16
    dst := 0x0000#16
    len := 0x0000#16
    t := 0x00#8
    n := 0x00#8
    m := 0x00#8
    mem := []
    rng := { ready := [], live := true, drawn := 0 }
    pending := []
    reply := none }

/-- The machine right after reset, for the reference instance (log entry 3). -/
def State.reset : State := State.powerOn Config.reference

end Sys2Proof.Machine
end

