-- ==== Sys2Proof/Machine/Flags.lean ====
section
/-! DEFINITION. STATUS.ERR, "the block's only flag" (10_state.md R24), and the codes a command writes to it
(60_exceptions.md R180). -/

namespace Sys2Proof.Machine

/-- The named codes of R180. -/
inductive ErrorCode where
  | ok | illegal | invZero | param | range | overlap | share
  deriving DecidableEq, Repr

/-- The number of a code (R180). -/
def ErrorCode.number : ErrorCode → Byte
  | .ok => 0x00#8
  | .illegal => 0x01#8
  | .invZero => 0x02#8
  | .param => 0x03#8
  | .range => 0x04#8
  | .overlap => 0x05#8
  | .share => 0x06#8

/-- STATUS.ERR takes the number of a code. -/
def State.setErr (s : State) (c : ErrorCode) : State := { s with err := c.number }

/-- `finish()`: the command succeeded (R181). -/
def State.finish (s : State) : State := s.setErr .ok

end Sys2Proof.Machine
end

