-- ==== Sys2Proof/Machine/Ops.lean ====
section
/-! DEFINITION. The operations every command shares: registers, DMEM, the random-byte port, raising an error and the
reset action. -/

namespace Sys2Proof.Machine

/-! ## Registers (10_state.md R23 to R30) -/

/-- `R.RES <- v` (R23). -/
def State.setRes (s : State) (v : Byte) : State := { s with res := v }

/-- `R.SRC <- v` (R25). -/
def State.setSrc (s : State) (v : Half) : State := { s with src := v }

/-- `R.DST <- v` (R26). -/
def State.setDst (s : State) (v : Half) : State := { s with dst := v }

/-- `R.LEN <- v` (R27). -/
def State.setLen (s : State) (v : Half) : State := { s with len := v }

/-- `R.T <- t; R.N <- n`, always together (R28, R29). -/
def State.setTN (s : State) (t n : Byte) : State := { s with t := t, n := n }

/-- `R.M <- v` (R30). -/
def State.setM (s : State) (v : Byte) : State := { s with m := v }

/-- DMEM becomes `mem`. -/
def State.setMem (s : State) (mem : Memory) : State := { s with mem := mem }

/-- The provider becomes `rng`. -/
def State.setRng (s : State) (rng : Provider) : State := { s with rng := rng }

/-- The block answers a reading transaction. -/
def State.setReply (s : State) (r : Reply) : State := { s with reply := some r }

/-! ## Errors and reset -/

/-- `raise Error(code)` (60_exceptions.md R182, R191): the command ends with only STATUS.ERR changed. It is the block's
whole exception mechanism: no state is saved, no mode changes, control goes nowhere, and there is no return (R193). -/
def State.raiseError (s : State) (c : ErrorCode) : State := s.setErr c

/-- The reset action (70_reset_and_hazards.md R210): the registers are cleared; DMEM, POLY and MEMSIZE keep their
values, and so do the provider and the host's held transactions, which are outside the block (10_state.md R41; log
entry 18). -/
def State.resetRegisters (s : State) : State :=
  { s with
    res := 0x00#8, err := 0x00#8, src := 0x0000#16, dst := 0x0000#16, len := 0x0000#16, t := 0x00#8, n := 0x00#8,
    m := 0x00#8 }

/-! ## DMEM (20_memory.md R51 to R54) -/

/-- The byte at an address, `none` where it is unwritten (R52, R53). -/
def Memory.read : Memory → Nat → Option Byte
  | [], _ => none
  | c :: mem, a => if a = c.1 then some c.2 else Memory.read mem a

/-- `MemWrite(a, 1, v)`: "sets the byte at address a to v and marks it written. No other byte changes" (R54). -/
def Memory.write : Memory → Nat → Byte → Memory
  | [], a, v => [(a, v)]
  | c :: mem, a, v =>
    if a < c.1 then (a, v) :: c :: mem
    else if a = c.1 then (a, v) :: mem
    else c :: Memory.write mem a v

/-- The bytes at a list of addresses, read in that order; the first unwritten one faults (R52, R53). -/
def Memory.readAll (mem : Memory) : List Nat → Except Fault (List Byte)
  | [] => .ok []
  | a :: as =>
    match mem.read a with
    | none => .error (.unwrittenByte a)
    | some b =>
      match Memory.readAll mem as with
      | .error f => .error f
      | .ok bs => .ok (b :: bs)

/-- The bytes at a list of address lists, read row after row. -/
def Memory.readRows (mem : Memory) : List (List Nat) → Except Fault (List (List Byte))
  | [] => .ok []
  | as :: rows =>
    match mem.readAll as with
    | .error f => .error f
    | .ok bs =>
      match Memory.readRows mem rows with
      | .error f => .error f
      | .ok bss => .ok (bs :: bss)

/-- Write bytes at ascending addresses from `a` on. -/
def Memory.writeBytes (mem : Memory) (a : Nat) : List Byte → Memory
  | [] => mem
  | b :: bs => Memory.writeBytes (mem.write a b) (a + 1) bs

/-- Mark the `k` bytes from `a` on unwritten (70_reset_and_hazards.md R212). -/
def Memory.forget (mem : Memory) (a k : Nat) : Memory :=
  mem.filter fun c => !(decide (a ≤ c.1) && decide (c.1 < a + k))

/-! ## The random-byte port (20_memory.md R57; log entries 1 and 2) -/

/-- `Draw()`: the provider's next byte, `none` where it never answers. -/
def Provider.draw (r : Provider) : Option (Byte × Provider) :=
  match r.ready with
  | b :: bs => some (b, { r with ready := bs, drawn := r.drawn + 1 })
  | [] => if r.live then some (Config.randomByte r.drawn, { r with drawn := r.drawn + 1 }) else none

/-- `k` draws in a row. -/
def Provider.drawMany (r : Provider) : Nat → Option (List Byte × Provider)
  | 0 => some ([], r)
  | k + 1 =>
    match r.draw with
    | none => none
    | some (b, r1) =>
      match Provider.drawMany r1 k with
      | none => none
      | some (bs, r2) => some (b :: bs, r2)

/-- The provider after an abandoned command drew `k` bytes, or as many as it answered (R212). -/
def Provider.skip (r : Provider) : Nat → Provider
  | 0 => r
  | k + 1 =>
    match r.draw with
    | none => r
    | some (_, r1) => Provider.skip r1 k

end Sys2Proof.Machine
end

