-- ==== Sys2Proof/Machine/Configuration.lean ====
section
/-! DEFINITION. The configuration commands (43_config.md R160 to R166): each stores its operand unchecked and clears
STATUS.ERR. -/

namespace Sys2Proof.Machine

/-- SETSRC (R160). -/
def execSetsrc (addr : Half) (s : State) : Host.Outcome State Fault Refusal := .next (s.setSrc addr).finish

/-- SETDST (R161). -/
def execSetdst (addr : Half) (s : State) : Host.Outcome State Fault Refusal := .next (s.setDst addr).finish

/-- SETLEN (R162). -/
def execSetlen (len : Half) (s : State) : Host.Outcome State Fault Refusal := .next (s.setLen len).finish

/-- SETTN (R163). -/
def execSettn (t n : Byte) (s : State) : Host.Outcome State Fault Refusal := .next (s.setTN t n).finish

/-- SETM (R164). -/
def execSetm (m : Byte) (s : State) : Host.Outcome State Fault Refusal := .next (s.setM m).finish

end Sys2Proof.Machine
end

