-- ==== Sys2Proof/Machine/Field.lean ====
section
/-! DEFINITION. The field functions `gadd`, `gmul`, `ginv`, `gpow` of 40_field.md R100 to R106 under a reducing
polynomial, and the sums and products over them (00_scope.md R13). -/

namespace Sys2Proof.Machine

/-- Field addition, and subtraction: bitwise XOR (R101). -/
def gadd (a b : Byte) : Byte := a ^^^ b

/-- The XOR of `zext_15(a) << i` over the bits i below `k` with `b[i] = 1` (00_scope.md R14). -/
def clmulBits (a b : Byte) : Nat → BitVec 15
  | 0 => 0#15
  | i + 1 => clmulBits a b i ^^^ (bif b.getLsbD i then a.setWidth 15 <<< i else 0#15)

/-- The carry-less product of two bytes (R14). -/
def clmul (a b : Byte) : BitVec 15 := clmulBits a b 8

/-- The reduction loop of R102 over the bits `7 + k` down to 8: where bit i is set, XOR `zext_15(POLY) << (i - 8)`. -/
def reduceBits (poly : BitVec 9) : Nat → BitVec 15 → BitVec 15
  | 0, p => p
  | k + 1, p => reduceBits poly k (bif p.getLsbD (k + 8) then p ^^^ (poly.setWidth 15 <<< k) else p)

/-- Field multiplication (R102): the carry-less product, reduced from bit 14 down to bit 8. -/
def gmul (poly : BitVec 9) (a b : Byte) : Byte := (reduceBits poly 7 (clmul a b)).setWidth 8

/-- The loop of R102's second form: `k` rounds left, starting at bit `i` of `b`. -/
def gmulShiftRounds (poly : BitVec 9) (b : Byte) : Nat → Nat → Byte → BitVec 9 → Byte
  | 0, _, p, _ => p
  | k + 1, i, p, t =>
    gmulShiftRounds poly b k (i + 1)
      (bif b.getLsbD i then p ^^^ t.setWidth 8 else p)
      (bif (t <<< 1).getLsbD 8 then (t <<< 1) ^^^ poly else t <<< 1)

/-- R102's second, "equivalent form" of the multiplication; no command uses it. -/
def gmulShift (poly : BitVec 9) (a b : Byte) : Byte := gmulShiftRounds poly b 8 0 0x00#8 (a.setWidth 9)

/-- Every byte, ascending: "Every byte value 0x00 to 0xFF is a field element" (R100). -/
def allBytes : List Byte := (List.range 256).map (BitVec.ofNat 8)

/-- The inverse of R105: the byte `b` with `gmul(a, b) = 0x01`. It is called only for `a ≠ 0x00`, where one exists under
every legal `POLY`, so the last word of the definition is never reached (log entry 11). -/
def ginv (poly : BitVec 9) (a : Byte) : Byte :=
  (allBytes.find? fun b => gmul poly a b == 0x01#8).getD 0x00#8

/-- Exponentiation (R106): `gpow(a, 0) = 0x01`, `gpow(a, k+1) = gmul(gpow(a, k), a)`. -/
def gpow (poly : BitVec 9) (a : Byte) : Nat → Byte
  | 0 => 0x01#8
  | k + 1 => gmul poly (gpow poly a k) a

/-- `Σ` over field elements: repeated `gadd` (R13). -/
def gsum : List Byte → Byte
  | [] => 0x00#8
  | b :: bs => gadd b (gsum bs)

/-- `Π` over field elements: repeated `gmul` (R13). -/
def gprod (poly : BitVec 9) : List Byte → Byte
  | [] => 0x01#8
  | b :: bs => gmul poly b (gprod poly bs)

end Sys2Proof.Machine
end

