-- ==== Sys2Proof/Machine/FieldEngine.lean ====
section
/-! DEFINITION. The Field-engine commands GADD, GMUL, GINV, GPOW (40_field.md R103 to R106, R113). -/

namespace Sys2Proof.Machine

/-- The common end of a command that writes RES: `R.RES <- v; finish()`. -/
def answerRes (v : Byte) (s : State) : Host.Outcome State Fault Refusal := .next (s.setRes v).finish

/-- GADD (R103). -/
def execGadd (a b : Byte) (s : State) : Host.Outcome State Fault Refusal := answerRes (gadd a b) s

/-- GMUL (R104). -/
def execGmul (a b : Byte) (s : State) : Host.Outcome State Fault Refusal := answerRes (gmul s.cfg.poly a b) s

/-- GINV (R105): 0x00 has no inverse and raises ERR_INV_ZERO. -/
def execGinv (a : Byte) (s : State) : Host.Outcome State Fault Refusal :=
  if a = 0x00#8 then .next (s.raiseError .invZero) else answerRes (ginv s.cfg.poly a) s

/-- GPOW (R106). -/
def execGpow (a n : Byte) (s : State) : Host.Outcome State Fault Refusal :=
  answerRes (gpow s.cfg.poly a n.toNat) s

end Sys2Proof.Machine
end

