-- ==== Sys2Proof/Machine/Operands.lean ====
section
/-! DEFINITION. The operands a command takes from the parameter registers: the DMEM byte ranges EVAL, SPLIT and RECON
access, "on unbounded mathematical integers" (00_scope.md R13), and the two checks made of them (60_exceptions.md R184,
R185). The immediate operands are fields of the word (Decode.lean). -/

namespace Sys2Proof.Machine

/-- The half-open range `[base, base + size)` of DMEM addresses. -/
structure ByteRange where
  base : Nat
  size : Nat
  deriving DecidableEq, Repr

/-- The range lies wholly inside a DMEM of `memSize` bytes, computed without wrap-around (R184). -/
abbrev ByteRange.Fits (r : ByteRange) (memSize : Nat) : Prop := r.base + r.size ≤ memSize

/-- Two ranges share at least one address: "exactly when `a < b+q and b < a+p`" (R185). -/
abbrev ByteRange.Overlaps (r w : ByteRange) : Prop := r.base < w.base + w.size ∧ w.base < r.base + r.size

/-- The addresses of a range, ascending. -/
def ByteRange.addresses (r : ByteRange) : List Nat := List.range' r.base r.size

/-- A share with the payload length LEN occupies `1 + LEN` bytes (41_generator.md R123). -/
def shareSize (s : State) : Nat := 1 + s.len.toNat

/-- EVAL's coefficients: T bytes at SRC (R125). -/
def coefficientRange (s : State) : ByteRange := { base := s.src.toNat, size := s.t.toNat }

/-- SPLIT's secret: LEN bytes at SRC (R128). -/
def secretRange (s : State) : ByteRange := { base := s.src.toNat, size := s.len.toNat }

/-- SPLIT's share area: N shares at DST (R128). -/
def shareAreaRange (s : State) : ByteRange := { base := s.dst.toNat, size := s.n.toNat * shareSize s }

/-- RECON's share set: M shares at SRC (42_interpolator.md R141). -/
def shareSetRange (s : State) : ByteRange := { base := s.src.toNat, size := s.m.toNat * shareSize s }

/-- RECON's output: LEN bytes at DST (R141). -/
def outputRange (s : State) : ByteRange := { base := s.dst.toNat, size := s.len.toNat }

/-- The address of share number `j` (from 0) of a set at `base` (R123). -/
def shareAddress (s : State) (base j : Nat) : Nat := base + j * shareSize s

/-- The addresses of the M index bytes RECON reads, share by share (R141). -/
def indexAddresses (s : State) : List Nat :=
  (List.range s.m.toNat).map fun j => shareAddress s s.src.toNat j

/-- The addresses of the M payloads RECON reads, one row per share (R141). -/
def payloadAddresses (s : State) : List (List Nat) :=
  (List.range s.m.toNat).map fun j => List.range' (shareAddress s s.src.toNat j + 1) s.len.toNat

end Sys2Proof.Machine
end

