-- ==== Sys2Proof/Machine/Generator.lean ====
section
/-! DEFINITION. The share generator: polynomial evaluation, EVAL and SPLIT (41_generator.md R120 to R131). -/

namespace Sys2Proof.Machine

/-! ## Evaluation (R121) -/

/-- `peval(c, x)` by Horner's rule (R121); the empty list, which no command evaluates, gives the empty sum. -/
def peval (poly : BitVec 9) (x : Byte) : List Byte → Byte
  | [] => 0x00#8
  | c :: cs => gadd (gmul poly (peval poly x cs) x) c

/-- R121's definition of `peval` as the power sum `Σ_j gmul(c[j], gpow(x, j))`; no command uses it. -/
def pevalSum (poly : BitVec 9) (x : Byte) (c : List Byte) : Byte :=
  gsum ((List.range c.length).map fun j => gmul poly (c.getD j 0x00#8) (gpow poly x j))

/-! ## EVAL (R125) -/

/-- The checks of EVAL, in order (R125, 60_exceptions.md R190). -/
def evalCheck (s : State) : Option ErrorCode :=
  if s.t = 0x00#8 then some .param
  else if ¬ (coefficientRange s).Fits s.cfg.memSize then some .range
  else none

/-- EVAL (R125). -/
def execEval (x : Byte) (s : State) : Host.Outcome State Fault Refusal :=
  match evalCheck s with
  | some code => .next (s.raiseError code)
  | none =>
    match s.mem.readAll (coefficientRange s).addresses with
    | .error f => .fault f
    | .ok c => answerRes (peval s.cfg.poly x c) s

/-! ## SPLIT (R126 to R128) -/

/-- The checks of SPLIT, in order (R126, R128, 60_exceptions.md R190). -/
def splitCheck (s : State) : Option ErrorCode :=
  if s.len = 0x0000#16 ∨ s.t = 0x00#8 ∨ s.n.toNat < s.t.toNat then some .param
  else if ¬ (secretRange s).Fits s.cfg.memSize ∨ ¬ (shareAreaRange s).Fits s.cfg.memSize then some .range
  else if (secretRange s).Overlaps (shareAreaRange s) then some .overlap
  else none

/-- The polynomials of a secret, one per byte: the constant term is the secret byte and `k` further coefficients are
drawn, byte position after byte position (R120, R122); `none` where the provider falls silent. -/
def drawPolynomials (k : Nat) : List Byte → Provider → Option (List (List Byte) × Provider)
  | [], r => some ([], r)
  | b :: bs, r =>
    match r.drawMany k with
    | none => none
    | some (ds, r1) =>
      match drawPolynomials k bs r1 with
      | none => none
      | some (polys, r2) => some ((b :: ds) :: polys, r2)

/-- The bytes of share number `k`: the index `x_k = k` (R127), then `P_i(k)` for every byte position i (R123, R128). -/
def shareBytes (poly : BitVec 9) (polys : List (List Byte)) (k : Nat) : List Byte :=
  BitVec.ofNat 8 k :: polys.map fun c => peval poly (BitVec.ofNat 8 k) c

/-- The bytes of the share area: shares 1 to `n`, one after the other (R123, R128). -/
def shareAreaBytes (poly : BitVec 9) (polys : List (List Byte)) (n : Nat) : List Byte :=
  (List.range n).flatMap fun k => shareBytes poly polys (k + 1)

/-- SPLIT (R128). -/
def execSplit (s : State) : Host.Outcome State Fault Refusal :=
  match splitCheck s with
  | some code => .next (s.raiseError code)
  | none =>
    match s.mem.readAll (secretRange s).addresses with
    | .error f => .fault f
    | .ok secret =>
      match drawPolynomials (s.t.toNat - 1) secret s.rng with
      | none => .fault .providerSilent
      | some (polys, rng) =>
        .next ((s.setRng rng).setMem
          (s.mem.writeBytes s.dst.toNat (shareAreaBytes s.cfg.poly polys s.n.toNat))).finish

end Sys2Proof.Machine
end

