-- ==== Sys2Proof/Machine/Interpolator.lean ====
section
/-! DEFINITION. The Lagrange interpolator and RECON (42_interpolator.md R140 to R149). -/

namespace Sys2Proof.Machine

/-! ## Interpolation at zero (R140) -/

/-- One factor `x_k / (x_k - x_j)` of a weight: `gmul(x_k, ginv(gadd(x_k, x_j)))` (R140). -/
def weightFactor (poly : BitVec 9) (xj xk : Byte) : Byte := gmul poly xk (ginv poly (gadd xk xj))

/-- The Lagrange weight of share `j`: the product of the factors of every other share (R140). -/
def weight (poly : BitVec 9) (xs : List Byte) (j : Nat) : Byte :=
  gprod poly ((xs.eraseIdx j).map (weightFactor poly (xs.getD j 0x00#8)))

/-- The weights of all shares, share by share. -/
def weights (poly : BitVec 9) (xs : List Byte) : List Byte := (List.range xs.length).map (weight poly xs)

/-- `Σ_j gmul(y_j, lam_j)`: one recovered byte from the shares' bytes at one position (R141). -/
def combine (poly : BitVec 9) (ys lams : List Byte) : Byte := gsum (List.zipWith (gmul poly) ys lams)

/-- The recovered bytes at positions 0 to `l`-1, from the payloads share by share (R141). -/
def recoverBytes (poly : BitVec 9) (xs : List Byte) (payloads : List (List Byte)) (l : Nat) : List Byte :=
  let lams := weights poly xs
  (List.range l).map fun i => combine poly (payloads.map fun y => y.getD i 0x00#8) lams

/-! ## RECON (R141) -/

/-- The checks of RECON that come before its first read, in order (R141, 60_exceptions.md R190). -/
def reconCheck (s : State) : Option ErrorCode :=
  if s.len = 0x0000#16 then some .param
  else if s.m = 0x00#8 then some .share
  else if ¬ (shareSetRange s).Fits s.cfg.memSize ∨ ¬ (outputRange s).Fits s.cfg.memSize then some .range
  else if (shareSetRange s).Overlaps (outputRange s) then some .overlap
  else none

/-- The share indices RECON accepts: none is 0x00 and no two are equal (R141, R142). -/
abbrev IndicesOk (xs : List Byte) : Prop := 0x00#8 ∉ xs ∧ xs.Nodup

/-- RECON (R141). -/
def execRecon (s : State) : Host.Outcome State Fault Refusal :=
  match reconCheck s with
  | some code => .next (s.raiseError code)
  | none =>
    match s.mem.readAll (indexAddresses s) with
    | .error f => .fault f
    | .ok xs =>
      if ¬ IndicesOk xs then .next (s.raiseError .share)
      else
        match s.mem.readRows (payloadAddresses s) with
        | .error f => .fault f
        | .ok payloads =>
          .next (s.setMem
            (s.mem.writeBytes s.dst.toNat (recoverBytes s.cfg.poly xs payloads s.len.toNat))).finish

end Sys2Proof.Machine
end

