-- ==== Sys2Proof/Machine/Dispatch.lean ====
section
/-! DEFINITION. The meaning of each command, one arm per row of the opcode map (30_encoding.md R73). -/

namespace Sys2Proof.Machine

/-- Execute one command to completion (20_memory.md R60). -/
def exec (i : Instr) (s : State) : Host.Outcome State Fault Refusal :=
  match i with
  | .gadd a b => Sys2Proof.Machine.execGadd a b s
  | .gmul a b => Sys2Proof.Machine.execGmul a b s
  | .ginv a => Sys2Proof.Machine.execGinv a s
  | .gpow a n => Sys2Proof.Machine.execGpow a n s
  | .setsrc addr => Sys2Proof.Machine.execSetsrc addr s
  | .setdst addr => Sys2Proof.Machine.execSetdst addr s
  | .setlen len => Sys2Proof.Machine.execSetlen len s
  | .settn t n => Sys2Proof.Machine.execSettn t n s
  | .setm m => Sys2Proof.Machine.execSetm m s
  | .eval x => Sys2Proof.Machine.execEval x s
  | .split => Sys2Proof.Machine.execSplit s
  | .recon => Sys2Proof.Machine.execRecon s

end Sys2Proof.Machine
end

