-- ==== Sys2Proof/Machine/Ports.lean ====
section
/-! DEFINITION. The block's interfaces (20_memory.md R50 to R56, 10_state.md R31 to R38): the register port and its
byte-bus form, the memory port, and the reset transaction (70_reset_and_hazards.md R210 to R212). -/

namespace Sys2Proof.Machine

/-! ## Register port -/

/-- The constant register ID (10_state.md R33). -/
def idRegister : Word := 0x47463801#32

/-- A host read of register index `r`, "built from the current register contents" (R31 to R36). -/
def registerRead (s : State) (r : Fin 16) : Word :=
  match r.val with
  | 1 => s.err.setWidth 32
  | 2 => s.res.setWidth 32
  | 3 => s.src.setWidth 32
  | 4 => s.dst.setWidth 32
  | 5 => s.len.setWidth 32
  | 6 => 0x0000#16 ++ s.n ++ s.t
  | 7 => s.m.setWidth 32
  | 8 => s.cfg.poly.setWidth 32
  | 9 => idRegister
  | 10 => BitVec.ofNat 32 s.cfg.memSize
  | _ => 0x00000000#32

/-- Issue the command word `w`: decode and execute it; an ILLEGAL word raises ERR_ILLEGAL (R35, 30_encoding.md R76). -/
def issue (w : Word) (s : State) : Host.Outcome State Fault Refusal :=
  match decode w with
  | some i => exec i s
  | none => .next (s.raiseError .illegal)

/-- A host write of register index `r`: CMD issues a command (R35), every other index has no effect (R36, R37). -/
def registerWrite (r : Fin 16) (w : Word) (s : State) : Host.Outcome State Fault Refusal :=
  if r.val = 0 then issue w s else .next s

/-! ## Byte bus (R55) -/

/-- A whole aligned 32-bit access inside offsets 0 to 63. -/
abbrev BusAligned (offset width : Nat) : Prop := width = 4 ∧ offset % 4 = 0 ∧ offset < 64

/-- Register index r occupies the offsets 4·r to 4·r+3. -/
def busRegister (offset : Nat) : Fin 16 := Fin.ofNat 16 (offset / 4)

/-- Four bus bytes as a word: bits [7:0] at the lowest address. -/
def wordOfBytes : List Byte → Word
  | [b0, b1, b2, b3] => b3 ++ b2 ++ b1 ++ b0
  | _ => 0x00000000#32

/-- A word as four bus bytes, lowest address first. -/
def bytesOfWord (w : Word) : List Byte :=
  [w.extractLsb' 0 8, w.extractLsb' 8 8, w.extractLsb' 16 8, w.extractLsb' 24 8]

/-- A write on the byte bus. -/
def busWrite (offset : Nat) (data : List Byte) (s : State) : Host.Outcome State Fault Refusal :=
  if BusAligned offset data.length then registerWrite (busRegister offset) (wordOfBytes data) s
  else .refused (.notATransaction offset data.length)

/-- A read on the byte bus. -/
def busRead (offset width : Nat) (s : State) : Host.Outcome State Fault Refusal :=
  if BusAligned offset width then .next (s.setReply (.bus (bytesOfWord (registerRead s (busRegister offset)))))
  else .refused (.notATransaction offset width)

/-! ## Memory port (R56) -/

/-- `HostMemWrite(a, v)`; no effect at or above `MEM_SIZE`. -/
def hostMemWrite (a : Half) (v : Byte) (s : State) : Host.Outcome State Fault Refusal :=
  if a.toNat < s.cfg.memSize then .next (s.setMem (s.mem.write a.toNat v)) else .next s

/-- `HostMemRead(a)`; 0x00 at or above `MEM_SIZE`, a fault on an unwritten byte. -/
def hostMemRead (a : Half) (s : State) : Host.Outcome State Fault Refusal :=
  if a.toNat < s.cfg.memSize then
    match s.mem.read a.toNat with
    | none => .fault (.unwrittenByte a.toNat)
    | some b => .next (s.setReply (.byte b))
  else .next (s.setReply (.byte 0x00#8))

/-! ## Reset (70_reset_and_hazards.md R210 to R212; log entry 8) -/

/-- The write range of a command that a reset abandons (R212); the other commands write no DMEM byte. -/
def abandonedRange (i : Instr) (s : State) : ByteRange :=
  match i with
  | .gadd _ _ => { base := 0, size := 0 }
  | .gmul _ _ => { base := 0, size := 0 }
  | .ginv _ => { base := 0, size := 0 }
  | .gpow _ _ => { base := 0, size := 0 }
  | .setsrc _ => { base := 0, size := 0 }
  | .setdst _ => { base := 0, size := 0 }
  | .setlen _ => { base := 0, size := 0 }
  | .settn _ _ => { base := 0, size := 0 }
  | .setm _ => { base := 0, size := 0 }
  | .eval _ => { base := 0, size := 0 }
  | .split => shareAreaRange s
  | .recon => outputRange s

/-- The most bytes the word `w` can have drawn before it was abandoned: those of a SPLIT whose checks pass
(41_generator.md R122). -/
def drawsAtMost (w : Word) (s : State) : Nat :=
  if decode w = some .split ∧ splitCheck s = none then s.len.toNat * (s.t.toNat - 1) else 0

/-- The DMEM a reset leaves when it abandons the word `w`: the write range of the command becomes unwritten (R212). -/
def abandonMem (w : Word) (s : State) : Memory :=
  match decode w with
  | some i => s.mem.forget (abandonedRange i s).base (abandonedRange i s).size
  | none => s.mem

/-- A reset that arrives while the word `w` executes, after `taken` draws (R212). A word that is not EVAL, SPLIT or RECON
completes at once, so the reset follows it and leaves what a reset alone leaves. -/
def resetDuring (w : Word) (taken : Nat) (s : State) : State :=
  ((s.setMem (abandonMem w s)).setRng (s.rng.skip (min taken (drawsAtMost w s)))).resetRegisters

/-! ## One transaction (R50, R60) -/

/-- Perform one transaction to completion. -/
def transact (tr : Transaction) (s : State) : Host.Outcome State Fault Refusal :=
  match tr with
  | .regWrite r w => registerWrite r w s
  | .regRead r => .next (s.setReply (.word (registerRead s r)))
  | .busWrite offset data => busWrite offset data s
  | .busRead offset width => busRead offset width s
  | .hostMemWrite a v => hostMemWrite a v s
  | .hostMemRead a => hostMemRead a s
  | .reset => .next s.resetRegisters
  | .resetDuring w taken => .next (resetDuring w taken s)

/-- Take the oldest pending transaction and perform it; the block is idle and "keeps all state" when there is none
(60_exceptions.md R200; log entries 5 and 7). -/
def serve (s : State) : Host.Outcome State Fault Refusal :=
  match s.pending with
  | [] => .next s
  | tr :: rest => transact tr { s with pending := rest, reply := none }

end Sys2Proof.Machine
end

