-- ==== Sys2Proof/Machine/Assembler.lean ====
section
/-! DEFINITION. The assembler syntax, the pseudo-instructions and the disassembler (30_encoding.md R79 to R82), on lines
written as lists of characters. -/

namespace Sys2Proof.Machine

/-! ## Names (R73, R81) -/

/-- The spelling of each mnemonic, in capitals. -/
def spelling : Mnemonic → List Char
  | .gadd => ['G', 'A', 'D', 'D']
  | .gmul => ['G', 'M', 'U', 'L']
  | .ginv => ['G', 'I', 'N', 'V']
  | .gpow => ['G', 'P', 'O', 'W']
  | .setsrc => ['S', 'E', 'T', 'S', 'R', 'C']
  | .setdst => ['S', 'E', 'T', 'D', 'S', 'T']
  | .setlen => ['S', 'E', 'T', 'L', 'E', 'N']
  | .settn => ['S', 'E', 'T', 'T', 'N']
  | .setm => ['S', 'E', 'T', 'M']
  | .eval => ['E', 'V', 'A', 'L']
  | .split => ['S', 'P', 'L', 'I', 'T']
  | .recon => ['R', 'E', 'C', 'O', 'N']
  | .gsub => ['G', 'S', 'U', 'B']
  | .gsqr => ['G', 'S', 'Q', 'R']
  | .gone => ['G', 'O', 'N', 'E']
  | .gzero => ['G', 'Z', 'E', 'R', 'O']

/-- Every mnemonic of R73 and R81. -/
def allMnemonics : List Mnemonic :=
  [.gadd, .gmul, .ginv, .gpow, .setsrc, .setdst, .setlen, .settn, .setm, .eval, .split, .recon, .gsub, .gsqr, .gone,
    .gzero]

/-- A letter as a capital: "Mnemonics are case-insensitive" (R79). -/
def capital (c : Char) : Char := if 97 ≤ c.toNat ∧ c.toNat ≤ 122 then Char.ofNat (c.toNat - 32) else c

/-- The mnemonic with a given spelling. -/
def mnemonicNamed (name : List Char) : Option Mnemonic :=
  allMnemonics.find? fun k => spelling k == name.map capital

/-! ## Literals (R79) -/

/-- The value of a digit, decimal or hexadecimal. -/
def digitValue (c : Char) : Option Nat :=
  if 48 ≤ c.toNat ∧ c.toNat ≤ 57 then some (c.toNat - 48)
  else if 65 ≤ c.toNat ∧ c.toNat ≤ 70 then some (c.toNat - 55)
  else if 97 ≤ c.toNat ∧ c.toNat ≤ 102 then some (c.toNat - 87)
  else none

/-- The value of a row of digits after `acc`. -/
def numeral (base acc : Nat) : List Char → Option Nat
  | [] => some acc
  | c :: cs =>
    match digitValue c with
    | none => none
    | some d => if d < base then numeral base (acc * base + d) cs else none

/-- An integer literal, "decimal or `0x` hexadecimal". -/
def literal : List Char → Option Nat
  | [] => none
  | '0' :: 'x' :: d :: ds => numeral 16 0 (d :: ds)
  | c :: cs => numeral 10 0 (c :: cs)

/-! ## Lines (R79; log entry 10 for white space) -/

/-- White space of a line. -/
def blankChar (c : Char) : Bool := c == ' ' || c == '\t'

/-- A line without the white space at its ends. -/
def trimBlanks (cs : List Char) : List Char := ((cs.dropWhile blankChar).reverse.dropWhile blankChar).reverse

/-- The parts of a text between its commas. -/
def splitCommas : List Char → List (List Char)
  | [] => [[]]
  | c :: cs =>
    if c = ',' then [] :: splitCommas cs
    else
      match splitCommas cs with
      | [] => [[c]]
      | w :: ws => (c :: w) :: ws

/-- The values of a row of literals. -/
def literals : List (List Char) → Option (List Nat)
  | [] => some []
  | w :: ws =>
    match literal (trimBlanks w), literals ws with
    | some v, some vs => some (v :: vs)
    | _, _ => none

/-- Read a line: "the mnemonic, then its operands separated by commas". -/
def parseLine (line : List Char) : Option SourceCommand :=
  let body := trimBlanks line
  let rest := trimBlanks (body.dropWhile fun c => !blankChar c)
  match mnemonicNamed (body.takeWhile fun c => !blankChar c) with
  | none => none
  | some k =>
    if rest = [] then some { mnemonic := k, operands := [] }
    else
      match literals (splitCommas rest) with
      | none => none
      | some vs => some { mnemonic := k, operands := vs }

/-! ## Assembling (R79 to R81) -/

/-- A command with one byte operand; "an assembler refuses a literal that does not fit rather than truncating it". -/
def withByte (f : Byte → Instr) (a : Nat) : Option Instr := if a < 256 then some (f (BitVec.ofNat 8 a)) else none

/-- A command with two byte operands. -/
def withBytes (f : Byte → Byte → Instr) (a b : Nat) : Option Instr :=
  if a < 256 ∧ b < 256 then some (f (BitVec.ofNat 8 a) (BitVec.ofNat 8 b)) else none

/-- A command with a 16-bit operand. -/
def withHalf (f : Half → Instr) (a : Nat) : Option Instr := if a < 65536 then some (f (BitVec.ofNat 16 a)) else none

/-- The command a source command stands for; a pseudo-instruction "expands to exactly one command" (R81). -/
def assembleCommand (c : SourceCommand) : Option Instr :=
  match c.mnemonic, c.operands with
  | .gadd, [a, b] => withBytes .gadd a b
  | .gmul, [a, b] => withBytes .gmul a b
  | .ginv, [a] => withByte .ginv a
  | .gpow, [a, b] => withBytes .gpow a b
  | .setsrc, [a] => withHalf .setsrc a
  | .setdst, [a] => withHalf .setdst a
  | .setlen, [a] => withHalf .setlen a
  | .settn, [a, b] => withBytes .settn a b
  | .setm, [a] => withByte .setm a
  | .eval, [a] => withByte .eval a
  | .split, [] => some .split
  | .recon, [] => some .recon
  | .gsub, [a, b] => withBytes .gadd a b
  | .gsqr, [a] => withByte (fun v => .gmul v v) a
  | .gone, [] => some (.gpow 0x00#8 0x00#8)
  | .gzero, [] => some (.gadd 0x00#8 0x00#8)
  | _, _ => none

/-- The word of a line, where an assembler accepts it. -/
def assembleLine (line : List Char) : Option Word :=
  match parseLine line with
  | none => none
  | some c =>
    match assembleCommand c with
    | none => none
    | some i => some (encode i)

/-! ## Disassembling (R82) -/

/-- A hexadecimal digit. -/
def hexDigit (d : Nat) : Char := if d < 10 then Char.ofNat (48 + d) else Char.ofNat (55 + d)

/-- The last `k` hexadecimal digits of a number. -/
def hexDigits : Nat → Nat → List Char
  | 0, _ => []
  | k + 1, v => hexDigits k (v / 16) ++ [hexDigit (v % 16)]

/-- A byte operand: "`0x` and two digits for A and B". -/
def byteText (b : Byte) : List Char := ['0', 'x'] ++ hexDigits 2 b.toNat

/-- A 16-bit operand: "four digits for IMM". -/
def halfText (h : Half) : List Char := ['0', 'x'] ++ hexDigits 4 h.toNat

/-- The operands of a command as text. -/
def operandText : Instr → List (List Char)
  | .gadd a b => [byteText a, byteText b]
  | .gmul a b => [byteText a, byteText b]
  | .ginv a => [byteText a]
  | .gpow a n => [byteText a, byteText n]
  | .setsrc addr => [halfText addr]
  | .setdst addr => [halfText addr]
  | .setlen len => [halfText len]
  | .settn t n => [byteText t, byteText n]
  | .setm m => [byteText m]
  | .eval x => [byteText x]
  | .split => []
  | .recon => []

/-- Operands after a mnemonic, separated by commas. -/
def operandList : List (List Char) → List Char
  | [] => []
  | [w] => [' '] ++ w
  | w :: ws => [' '] ++ w ++ [','] ++ operandList ws

/-- The line of a word: its row's mnemonic with its operands in hexadecimal, or `.word` with the comment `illegal`
(R82; log entry 10 for the comment character). -/
def disassemble (w : Word) : List Char :=
  match decode w with
  | some i => spelling (mnemonicOf i) ++ operandList (operandText i)
  | none =>
    ['.', 'w', 'o', 'r', 'd', ' ', '0', 'x'] ++ hexDigits 8 w.toNat ++
      [' ', ';', ' ', 'i', 'l', 'l', 'e', 'g', 'a', 'l']

end Sys2Proof.Machine
end

