-- ==== Sys2Proof/Safety.lean ====
section
/-! DEFINITION. What counts as a safe run and the terms claims are stated in: the invariant of the machine, the bytes a
command stores, the codes it may report, and what the random-byte port supplies. -/

namespace Sys2Proof.Machine

/-! ## Safe runs -/

/-- The machine goes on: neither a fault nor a refusal (60_exceptions.md R201). -/
abbrev State.Safe (s : State) : Prop := ∃ s', step s = .next s'

/-- The invariant of the machine: a legal instance (00_scope.md R8, R9), DMEM in its canonical form and inside its size
(20_memory.md R51), and a STATUS.ERR among the codes of R180 ("Codes 0x07 to 0xFF are never written"). -/
structure State.Inv (s : State) : Prop where
  legal  : s.cfg.Legal
  wf     : s.mem.wf
  within : s.mem.within s.cfg.memSize
  code   : s.err.toNat ≤ 6

/-! ## Ranges of DMEM -/

/-- An address lies in a range. -/
abbrev ByteRange.Has (r : ByteRange) (a : Nat) : Prop := r.base ≤ a ∧ a < r.base + r.size

/-- Every byte of a range is written. -/
def State.Written (s : State) (r : ByteRange) : Prop := ∀ a, r.Has a → ∃ b, s.mem.read a = some b

/-- The bytes a command stores when it succeeds: SPLIT its share area (41_generator.md R128), RECON its output
(42_interpolator.md R141), the others none (40_field.md R113, 43_config.md R160 to R164, 41_generator.md R125). -/
def storedRange (i : Instr) (s : State) : ByteRange :=
  match i with
  | .gadd _ _ => { base := 0, size := 0 }
  | .gmul _ _ => { base := 0, size := 0 }
  | .ginv _ => { base := 0, size := 0 }
  | .gpow _ _ => { base := 0, size := 0 }
  | .setsrc _ => { base := 0, size := 0 }
  | .setdst _ => { base := 0, size := 0 }
  | .setlen _ => { base := 0, size := 0 }
  | .settn _ _ => { base := 0, size := 0 }
  | .setm _ => { base := 0, size := 0 }
  | .eval _ => { base := 0, size := 0 }
  | .split => shareAreaRange s
  | .recon => outputRange s

/-! ## The conditions of SPLIT and RECON, in the spec's own arithmetic (00_scope.md R13) -/

/-- SPLIT's parameters are valid (41_generator.md R126). -/
abbrev SplitParams (s : State) : Prop := s.len ≠ 0x0000#16 ∧ s.t ≠ 0x00#8 ∧ s.t.toNat ≤ s.n.toNat

/-- SPLIT's secret and share area lie inside DMEM (60_exceptions.md R184). -/
abbrev SplitInRange (s : State) : Prop :=
  s.src.toNat + s.len.toNat ≤ s.cfg.memSize ∧ s.dst.toNat + s.n.toNat * (1 + s.len.toNat) ≤ s.cfg.memSize

/-- SPLIT's secret and share area share a byte (41_generator.md R128). -/
abbrev SplitOverlap (s : State) : Prop :=
  s.src.toNat < s.dst.toNat + s.n.toNat * (1 + s.len.toNat) ∧ s.dst.toNat < s.src.toNat + s.len.toNat

/-- Every check of SPLIT passes. -/
abbrev SplitReady (s : State) : Prop := SplitParams s ∧ SplitInRange s ∧ ¬ SplitOverlap s

/-- RECON's share set and output lie inside DMEM (60_exceptions.md R184). -/
abbrev ReconInRange (s : State) : Prop :=
  s.src.toNat + s.m.toNat * (1 + s.len.toNat) ≤ s.cfg.memSize ∧ s.dst.toNat + s.len.toNat ≤ s.cfg.memSize

/-- RECON's share set and output share a byte (42_interpolator.md R141). -/
abbrev ReconOverlap (s : State) : Prop :=
  s.src.toNat < s.dst.toNat + s.len.toNat ∧ s.dst.toNat < s.src.toNat + s.m.toNat * (1 + s.len.toNat)

/-- Every check RECON makes before it reads the indices passes. -/
abbrev ReconReady (s : State) : Prop :=
  s.len ≠ 0x0000#16 ∧ s.m ≠ 0x00#8 ∧ ReconInRange s ∧ ¬ ReconOverlap s

/-- Byte `b` of share number `j` (both from 0) of a share set at `base` with payload length `l`: the index for `b = 0`,
the payload after it (41_generator.md R123). -/
abbrev shareByteAt (base l j b : Nat) : Nat := base + j * (1 + l) + b

/-! ## Codes -/

/-- The codes a command may report: 0x00, and those whose "raised by" column names it (60_exceptions.md R180). -/
def codesOf : Instr → List ErrorCode
  | .gadd _ _ => [.ok]
  | .gmul _ _ => [.ok]
  | .ginv _ => [.ok, .invZero]
  | .gpow _ _ => [.ok]
  | .setsrc _ => [.ok]
  | .setdst _ => [.ok]
  | .setlen _ => [.ok]
  | .settn _ _ => [.ok]
  | .setm _ => [.ok]
  | .eval _ => [.ok, .param, .range]
  | .split => [.ok, .param, .range, .overlap]
  | .recon => [.ok, .param, .range, .overlap, .share]

/-! ## The random-byte port -/

/-- The provider answers the next `k` requests: the premise R201 asks of a claim about SPLIT. -/
abbrev Provider.Answers (r : Provider) (k : Nat) : Prop := r.live = true ∨ k ≤ r.ready.length

/-- The byte the provider answers to its `q`-th request from now on, counted from 0, where it answers it. -/
def Provider.byteAt (r : Provider) (q : Nat) : Byte :=
  if q < r.ready.length then r.ready.getD q 0x00#8 else Config.randomByte (r.drawn + q)

/-- The provider after `k` answered requests. -/
def Provider.after (r : Provider) (k : Nat) : Provider :=
  { r with ready := r.ready.drop k, drawn := r.drawn + k }

/-- The number of bytes one SPLIT draws: `LEN·(T-1)` (41_generator.md R122). -/
def splitDraws (s : State) : Nat := s.len.toNat * (s.t.toNat - 1)

/-- The polynomial of byte position `i` in a SPLIT of a secret whose byte is `b`: the constant term, then the draws
numbered `i·(T-1) + (j-1)` for j from 1 to T-1 (R120, R122). -/
def splitPolynomial (s : State) (i : Nat) (b : Byte) : List Byte :=
  b :: (List.range (s.t.toNat - 1)).map fun j => s.rng.byteAt (i * (s.t.toNat - 1) + j)

end Sys2Proof.Machine
end

