-- ==== Sys2Proof/Certificates/Slice0/Obligations.lean ====
section
/-! DEFINITION. The statements about this model, one `def Obligations.<Name> : Prop` each; OBLIGATIONS.json says which rule
of spec/ each formalises. A statement about SPLIT takes what the provider answers from `Provider.byteAt`, for every value
of the bytes (log entries 1 and 2). -/

open Sys2Proof Sys2Proof.Machine

/-! ## Encoding (30_encoding.md) -/

/-- The words the spec writes out decode to the commands it says (R79, V-DEC-1 and one word for each further row), and its
illegal words do not decode (R75, V-ILL-1 to V-ILL-21). -/
def Obligations.DecodesTheWordsOfTheSpec : Prop :=
  (decode 0x0153CA00#32 = some (.gadd 0x53#8 0xCA#8) ∧ decode 0x02578300#32 = some (.gmul 0x57#8 0x83#8) ∧
    decode 0x03530000#32 = some (.ginv 0x53#8) ∧ decode 0x0402FE00#32 = some (.gpow 0x02#8 0xFE#8) ∧
    decode 0x10000100#32 = some (.setsrc 0x0100#16) ∧ decode 0x11000200#32 = some (.setdst 0x0200#16) ∧
    decode 0x12000002#32 = some (.setlen 0x0002#16) ∧ decode 0x13030500#32 = some (.settn 0x03#8 0x05#8) ∧
    decode 0x14030000#32 = some (.setm 0x03#8) ∧ decode 0x20050000#32 = some (.eval 0x05#8) ∧
    decode 0x21000000#32 = some .split ∧ decode 0x30000000#32 = some .recon) ∧
  ∀ w ∈ [0x00000000#32, 0x0153CA01#32, 0x02578380#32, 0x03530001#32, 0x03000100#32, 0x0402FE01#32, 0x10010000#32,
      0x11800000#32, 0x12FF0002#32, 0x13030501#32, 0x14030100#32, 0x20050001#32, 0x21000001#32, 0x30800000#32,
      0x05000000#32, 0x0F000000#32, 0x15000000#32, 0x22000000#32, 0x31000000#32, 0xFF000000#32, 0xFFFFFFFF#32],
    decode w = none

/-- Decoding and encoding agree, for every command and every word: no operand bit is dropped, and the word that decodes to
a command is the one that encodes it. -/
def Obligations.DecodeAndEncodeAgree : Prop :=
  (∀ i : Instr, decode (encode i) = some i) ∧ ∀ (w : Word) (i : Instr), decode w = some i → w = encode i

/-- R73 as data: a word decodes exactly when it selects a row of the opcode map, to the command of that row, and no two
rows match the same word. -/
def Obligations.DecodeSelectsTheTableRow : Prop :=
  ∀ w : Word,
    (∀ i, decode w = some i → ∃ row ∈ opcodeTable, row.mnemonic = mnemonicOf i ∧ w &&& row.mask = row.pattern) ∧
    (decode w = none → ∀ row ∈ opcodeTable, w &&& row.mask ≠ row.pattern) ∧
    ∀ row ∈ opcodeTable, ∀ row' ∈ opcodeTable,
      w &&& row.mask = row.pattern → w &&& row'.mask = row'.pattern → row = row'

/-- R187: a word that decodes to ILLEGAL sets STATUS.ERR to 0x01 and keeps everything else. -/
def Obligations.IllegalWordOnlySetsStatus : Prop :=
  ∀ (s : State) (w : Word) (rest : List Transaction), s.pending = .regWrite 0 w :: rest → decode w = none →
    step s = .next { s with pending := rest, reply := none, err := 0x01#8 }

/-- A step runs the decoded command: when the oldest pending transaction writes to CMD a word that decodes to `i`, the step
is `exec i` on the state without that transaction. -/
def Obligations.StepRunsTheIssuedCommand : Prop :=
  ∀ (s : State) (w : Word) (i : Instr) (rest : List Transaction), s.pending = .regWrite 0 w :: rest →
    decode w = some i → step s = exec i { s with pending := rest, reply := none }

/-! ## Field engine (40_field.md) -/

/-- GADD (R103) and field addition (R101); a non-zero Z field makes the word illegal. -/
def Obligations.GaddResult : Prop :=
  (∀ (a b : Byte) (s : State),
    encode (.gadd a b) = 0x01#8 ++ a ++ b ++ 0x00#8 ∧ gadd a b = a ^^^ b ∧
    exec (.gadd a b) s = .next { s with res := gadd a b, err := 0x00#8 } ∧
    gadd a a = 0x00#8 ∧ gadd a 0x00#8 = a ∧ gadd a b = gadd b a ∧
    ∀ z : Byte, z ≠ 0x00#8 → decode (0x01#8 ++ a ++ b ++ z) = none) ∧
  gadd 0x53#8 0xCA#8 = 0x99#8

/-- GMUL (R104), with its corner cases: where the degrees of `a` and `b` are at most `i` and `j` with `i + j < 8`, the
result is the carry-less product under every `POLY`. -/
def Obligations.GmulResult : Prop :=
  (∀ (a b : Byte) (s : State), s.cfg.Legal →
    encode (.gmul a b) = 0x02#8 ++ a ++ b ++ 0x00#8 ∧
    exec (.gmul a b) s = .next { s with res := gmul s.cfg.poly a b, err := 0x00#8 } ∧
    gmul s.cfg.poly a 0x00#8 = 0x00#8 ∧ gmul s.cfg.poly a 0x01#8 = a ∧
    (a ≠ 0x00#8 → b ≠ 0x00#8 → gmul s.cfg.poly a b ≠ 0x00#8) ∧
    ∀ i j : Nat, a.toNat < 2 ^ (i + 1) → b.toNat < 2 ^ (j + 1) → i + j < 8 →
      (gmul s.cfg.poly a b).setWidth 15 = clmul a b) ∧
  gmul 0x11B#9 0x57#8 0x83#8 = 0xC1#8 ∧ gmul 0x11D#9 0x57#8 0x83#8 = 0x31#8

/-- GINV (R105): RES is the unique `b` with `gmul(a, b) = 0x01`; 0x00 raises ERR_INV_ZERO and leaves RES. -/
def Obligations.GinvResult : Prop :=
  (∀ (a : Byte) (s : State), s.cfg.Legal →
    encode (.ginv a) = 0x03#8 ++ a ++ 0x0000#16 ∧
    (a ≠ 0x00#8 → ∃ b, gmul s.cfg.poly a b = 0x01#8 ∧ (∀ c, gmul s.cfg.poly a c = 0x01#8 → c = b) ∧
      exec (.ginv a) s = .next { s with res := b, err := 0x00#8 } ∧
      ginv s.cfg.poly a = b ∧ ginv s.cfg.poly b = a ∧ gpow s.cfg.poly a 254 = b) ∧
    exec (.ginv 0x00#8) s = .next { s with err := 0x02#8 } ∧ ginv s.cfg.poly 0x01#8 = 0x01#8) ∧
  ginv 0x11B#9 0x53#8 = 0xCA#8 ∧ ginv 0x11D#9 0x53#8 = 0x8C#8

/-- GPOW (R106): repeated multiplication, with its corner cases. -/
def Obligations.GpowResult : Prop :=
  (∀ (a n : Byte) (s : State), s.cfg.Legal →
    encode (.gpow a n) = 0x04#8 ++ a ++ n ++ 0x00#8 ∧
    exec (.gpow a n) s = .next { s with res := gpow s.cfg.poly a n.toNat, err := 0x00#8 } ∧
    gpow s.cfg.poly a 0 = 0x01#8 ∧
    (∀ k : Nat, gpow s.cfg.poly a (k + 1) = gmul s.cfg.poly (gpow s.cfg.poly a k) a) ∧
    (n ≠ 0x00#8 → gpow s.cfg.poly 0x00#8 n.toNat = 0x00#8) ∧ gpow s.cfg.poly a 1 = a ∧
    (a ≠ 0x00#8 → gpow s.cfg.poly a 255 = 0x01#8 ∧ gpow s.cfg.poly a 254 = ginv s.cfg.poly a)) ∧
  gpow 0x11B#9 0x02#8 8 = 0x1B#8 ∧ gpow 0x11D#9 0x02#8 8 = 0x1D#8

/-- R113: what a Field-engine command does is a function of its operands and `POLY`; it writes RES only on success, and
STATUS.ERR, and nothing else. -/
def Obligations.FieldCommandsArePure : Prop :=
  ∀ i : Instr, (∃ a b, i = .gadd a b ∨ i = .gmul a b ∨ i = .gpow a b ∨ i = .ginv a) → ∀ poly : BitVec 9,
    ∃ (out : Option Byte) (e : Byte), (out.isSome ↔ e = 0x00#8) ∧
      ∀ s : State, s.cfg.poly = poly → exec i s = .next { s with res := out.getD s.res, err := e }

/-- R107. -/
def Obligations.AdditionLaws : Prop :=
  ∀ a b c : Byte, gadd a (gadd b c) = gadd (gadd a b) c ∧ gadd a b = gadd b a ∧ gadd a a = 0x00#8 ∧ gadd a 0x00#8 = a

/-- R108: the multiplication laws under every legal `POLY`, and a value of `POLY` that breaks the last one and is not
legal. -/
def Obligations.MultiplicationLaws : Prop :=
  (∀ poly ∈ legalPolys, ∀ a b c : Byte,
    gmul poly a (gmul poly b c) = gmul poly (gmul poly a b) c ∧ gmul poly a b = gmul poly b a ∧
    gmul poly a (gadd b c) = gadd (gmul poly a b) (gmul poly a c) ∧
    gmul poly a 0x00#8 = 0x00#8 ∧ gmul poly a 0x01#8 = a ∧
    (gmul poly a b = 0x00#8 → a = 0x00#8 ∨ b = 0x00#8)) ∧
  gmul 0x11A#9 0x02#8 0x8D#8 = 0x00#8 ∧ 0x11A#9 ∉ legalPolys

/-- R109. -/
def Obligations.InverseLaws : Prop :=
  ∀ poly ∈ legalPolys, ∀ a : Byte, a ≠ 0x00#8 →
    gmul poly a (ginv poly a) = 0x01#8 ∧ ginv poly (ginv poly a) = a ∧
    ∀ b : Byte, b ≠ 0x00#8 → ginv poly (gmul poly a b) = gmul poly (ginv poly a) (ginv poly b)

/-- R110. -/
def Obligations.PowerLaws : Prop :=
  ∀ poly ∈ legalPolys, ∀ a : Byte,
    (∀ m n : Nat, m + n ≤ 255 → gpow poly a (m + n) = gmul poly (gpow poly a m) (gpow poly a n)) ∧
    (a ≠ 0x00#8 → gpow poly a 255 = 0x01#8 ∧ gpow poly a 254 = ginv poly a)

/-- R102: after the reduction loop the high bits are zero, the result is the remainder of the carry-less product divided by
`POLY` (the product is the result with multiples `POLY << k` added), and the second form gives the same, for every `POLY`
of degree 8. -/
def Obligations.MultiplicationFormsAgree : Prop :=
  ∀ poly : BitVec 9, poly.getLsbD 8 = true → ∀ a b : Byte,
    (∀ i, 8 ≤ i → (reduceBits poly 7 (clmul a b)).getLsbD i = false) ∧
    (∃ q : BitVec 7, clmul a b =
      (List.range 7).foldl (fun p k => bif q.getLsbD k then p ^^^ (poly.setWidth 15 <<< k) else p)
        ((gmul poly a b).setWidth 15)) ∧
    gmulShift poly a b = gmul poly a b

/-- R112: a sum and a product of field elements have the same value in every order and grouping. -/
def Obligations.SumsAndProductsAreOrderFree : Prop :=
  ∀ poly ∈ legalPolys, ∀ as bs cs : List Byte,
    (as.Perm bs → gsum as = gsum bs ∧ gprod poly as = gprod poly bs) ∧
    gsum (as ++ cs) = gadd (gsum as) (gsum cs) ∧ gprod poly (as ++ cs) = gmul poly (gprod poly as) (gprod poly cs)

/-- R8: the legal values of `POLY` are exactly the polynomials of degree 8 that are no product of two of lower degree (every
byte is one of degree at most 7), and the primitive ones are those under which 0x02 has order 255. -/
def Obligations.LegalPolysAreTheIrreducibles : Prop :=
  (∀ p : BitVec 9, p ∈ legalPolys ↔ p.getLsbD 8 = true ∧ ∀ a b : Byte, clmul a b ≠ p.setWidth 15) ∧
  legalPolys.length = 30 ∧ primitivePolys.length = 16 ∧
  ∀ p : BitVec 9, p ∈ primitivePolys ↔
    p ∈ legalPolys ∧ gpow p 0x02#8 255 = 0x01#8 ∧ ∀ k : Nat, 0 < k → k < 255 → gpow p 0x02#8 k ≠ 0x01#8

/-! ## Share generator (41_generator.md) -/

/-- R121: Horner's rule gives the power sum, and at 0x00 the constant term. -/
def Obligations.EvaluationFormsAgree : Prop :=
  ∀ poly ∈ legalPolys, ∀ (x c : Byte) (cs : List Byte),
    peval poly x (c :: cs) = pevalSum poly x (c :: cs) ∧ peval poly x [c] = c ∧
    peval poly x (c :: cs) = gadd (gmul poly (peval poly x cs) x) c ∧ peval poly 0x00#8 (c :: cs) = c

/-- EVAL (R125): the two errors in their order, the fault at the first unwritten coefficient, and the result, which does not
depend on N; frame and completion are the equalities. On the polynomial of a secret byte it returns the byte SPLIT wrote. -/
def Obligations.EvalBehaviour : Prop :=
  (∀ (x : Byte) (s : State),
    encode (.eval x) = 0x20#8 ++ x ++ 0x0000#16 ∧
    (s.t = 0x00#8 → exec (.eval x) s = .next { s with err := 0x03#8 }) ∧
    (s.t ≠ 0x00#8 → s.cfg.memSize < s.src.toNat + s.t.toNat → exec (.eval x) s = .next { s with err := 0x04#8 }) ∧
    (s.t ≠ 0x00#8 → s.src.toNat + s.t.toNat ≤ s.cfg.memSize →
      (∀ c : List Byte, c.length = s.t.toNat →
        (∀ j < c.length, s.mem.read (s.src.toNat + j) = some (c.getD j 0x00#8)) →
        exec (.eval x) s = .next { s with res := peval s.cfg.poly x c, err := 0x00#8 } ∧
        (s.t = 0x01#8 ∨ x = 0x00#8 → peval s.cfg.poly x c = c.getD 0 0x00#8)) ∧
      ∀ j < s.t.toNat, s.mem.read (s.src.toNat + j) = none →
        (∀ j' < j, s.mem.read (s.src.toNat + j') ≠ none) →
        exec (.eval x) s = .fault (.unwrittenByte (s.src.toNat + j)))) ∧
  (∀ (x n : Byte) (s t : State), exec (.eval x) s = .next t → exec (.eval x) { s with n := n } = .next { t with n := n }) ∧
  (∀ (s t u : State) (k i : Nat) (b : Byte), s.mem.wf → exec .split s = .next t → t.err = 0x00#8 →
    1 ≤ k → k ≤ s.n.toNat → i < s.len.toNat → s.mem.read (s.src.toNat + i) = some b →
    u.cfg = s.cfg → u.t = s.t → u.src.toNat + u.t.toNat ≤ u.cfg.memSize →
    (∀ j < u.t.toNat, u.mem.read (u.src.toNat + j) = some ((splitPolynomial s i b).getD j 0x00#8)) →
    ∃ y : Byte, t.mem.read (shareByteAt s.dst.toNat s.len.toNat (k - 1) (1 + i)) = some y ∧
      exec (.eval (BitVec.ofNat 8 k)) u = .next { u with res := y, err := 0x00#8 }) ∧
  peval 0x11B#9 0x04#8 [0x41#8, 0x11#8, 0x22#8] = 0x13#8 ∧ peval 0x11D#9 0x04#8 [0x41#8, 0x11#8, 0x22#8] = 0x1F#8

/-- SPLIT (R126, R128): the errors in their order, the fault at the first unwritten secret byte, and the shares. The share
byte `y_k[i]` is the value at `k` of the polynomial of position i; its drawn coefficients are SplitSharesAreEvaluations'
subject. Every byte outside the share area and every register but STATUS is as before. -/
def Obligations.SplitBehaviour : Prop :=
  ∀ s : State, s.mem.wf →
    encode .split = 0x21000000#32 ∧
    (s.len = 0x0000#16 ∨ s.t = 0x00#8 ∨ s.n.toNat < s.t.toNat → exec .split s = .next { s with err := 0x03#8 }) ∧
    (SplitParams s → ¬ SplitInRange s → exec .split s = .next { s with err := 0x04#8 }) ∧
    (SplitParams s → SplitInRange s → SplitOverlap s → exec .split s = .next { s with err := 0x05#8 }) ∧
    (SplitReady s →
      (∀ i < s.len.toNat, s.mem.read (s.src.toNat + i) = none →
        (∀ i' < i, s.mem.read (s.src.toNat + i') ≠ none) →
        exec .split s = .fault (.unwrittenByte (s.src.toNat + i))) ∧
      ∀ secret : List Byte, secret.length = s.len.toNat →
        (∀ i < secret.length, s.mem.read (s.src.toNat + i) = some (secret.getD i 0x00#8)) →
        s.rng.Answers (s.len.toNat * (s.t.toNat - 1)) →
        ∃ t : State, exec .split s = .next t ∧
          t = { s with mem := t.mem, rng := s.rng.after (s.len.toNat * (s.t.toNat - 1)), err := 0x00#8 } ∧
          (∀ k < s.n.toNat,
            t.mem.read (s.dst.toNat + k * (1 + s.len.toNat)) = some (BitVec.ofNat 8 (k + 1)) ∧
            ∀ i < s.len.toNat, t.mem.read (s.dst.toNat + k * (1 + s.len.toNat) + 1 + i) =
              some (peval s.cfg.poly (BitVec.ofNat 8 (k + 1)) (splitPolynomial s i (secret.getD i 0x00#8)))) ∧
          ∀ a, ¬ (s.dst.toNat ≤ a ∧ a < s.dst.toNat + s.n.toNat * (1 + s.len.toNat)) →
            t.mem.read a = s.mem.read a)

/-- R122, R127, R129: after a SPLIT that reports success, share number k has the index k, and its byte for position i is the
value at k of the polynomial whose constant term is the secret byte and whose coefficient j is the draw numbered
`i·(T-1) + (j-1)`; exactly `LEN·(T-1)` bytes were drawn, none when T = 1, and none by a SPLIT that reports an error. -/
def Obligations.SplitSharesAreEvaluations : Prop :=
  ∀ s t : State, s.mem.wf → exec .split s = .next t →
    (t.err ≠ 0x00#8 → t.rng = s.rng) ∧
    (t.err = 0x00#8 →
      t.rng = s.rng.after (s.len.toNat * (s.t.toNat - 1)) ∧ (s.t = 0x01#8 → t.rng = s.rng) ∧
      ∀ k, 1 ≤ k → k ≤ s.n.toNat →
        (∃ x : Byte, t.mem.read (shareByteAt s.dst.toNat s.len.toNat (k - 1) 0) = some x ∧ x.toNat = k) ∧
        ∀ i < s.len.toNat, ∃ b : Byte, s.mem.read (s.src.toNat + i) = some b ∧
          ∃ c : List Byte, c.length = s.t.toNat ∧ c.getD 0 0x00#8 = b ∧
            (∀ j, 1 ≤ j → j < s.t.toNat → c.getD j 0x00#8 = s.rng.byteAt (i * (s.t.toNat - 1) + (j - 1))) ∧
            t.mem.read (shareByteAt s.dst.toNat s.len.toNat (k - 1) (1 + i)) =
              some (peval s.cfg.poly (BitVec.ofNat 8 k) c))

/-- R201: a SPLIT that passed its checks and read its secret is stuck when the provider does not answer all its draws (log
entry 2). -/
def Obligations.SplitWaitsForTheProvider : Prop :=
  ∀ s : State, SplitReady s → (∀ i < s.len.toNat, s.mem.read (s.src.toNat + i) ≠ none) →
    ¬ s.rng.Answers (s.len.toNat * (s.t.toNat - 1)) → exec .split s = .fault .providerSilent

/-- R124: byte positions are independent lanes, in SPLIT and in RECON: two runs that agree on the indices and on one
position agree on that position of every result. -/
def Obligations.BytePositionsAreIndependent : Prop :=
  ∀ s s' t t' : State, s.mem.wf → s'.mem.wf → s.cfg.poly = s'.cfg.poly → t.err = 0x00#8 → t'.err = 0x00#8 →
    (exec .split s = .next t → exec .split s' = .next t' → s.t = s'.t →
      ∀ i, i < s.len.toNat → i < s'.len.toNat →
        s.mem.read (s.src.toNat + i) = s'.mem.read (s'.src.toNat + i) →
        (∀ j < s.t.toNat - 1, s.rng.byteAt (i * (s.t.toNat - 1) + j) = s'.rng.byteAt (i * (s.t.toNat - 1) + j)) →
        ∀ k, k < s.n.toNat → k < s'.n.toNat →
          t.mem.read (shareByteAt s.dst.toNat s.len.toNat k (1 + i)) =
            t'.mem.read (shareByteAt s'.dst.toNat s'.len.toNat k (1 + i))) ∧
    (exec .recon s = .next t → exec .recon s' = .next t' → s.m = s'.m →
      ∀ i, i < s.len.toNat → i < s'.len.toNat →
        (∀ j < s.m.toNat,
          s.mem.read (shareByteAt s.src.toNat s.len.toNat j 0) =
            s'.mem.read (shareByteAt s'.src.toNat s'.len.toNat j 0) ∧
          s.mem.read (shareByteAt s.src.toNat s.len.toNat j (1 + i)) =
            s'.mem.read (shareByteAt s'.src.toNat s'.len.toNat j (1 + i))) →
        t.mem.read (s.dst.toNat + i) = t'.mem.read (s'.dst.toNat + i))

/-! ## Interpolator (42_interpolator.md) -/

/-- R140: the weight of share j is the product over k ≠ j of `gmul(x_k, ginv(gadd(x_k, x_j)))`; no inverse of 0x00 is taken;
one share has the weight 0x01. -/
def Obligations.LagrangeWeightsFormula : Prop :=
  ∀ poly ∈ legalPolys, ∀ xs : List Byte, IndicesOk xs → ∀ j < xs.length,
    (weights poly xs).getD j 0x00#8 =
      gprod poly (((List.range xs.length).filter fun k => k ≠ j).map fun k =>
        gmul poly (xs.getD k 0x00#8) (ginv poly (gadd (xs.getD k 0x00#8) (xs.getD j 0x00#8)))) ∧
    (∀ k < xs.length, k ≠ j → gadd (xs.getD k 0x00#8) (xs.getD j 0x00#8) ≠ 0x00#8) ∧
    (xs.length = 1 → (weights poly xs).getD j 0x00#8 = 0x01#8)

/-- RECON (R141, R142): the errors in their order, the fault at an unwritten byte, and the recovered bytes. Every byte
outside the output and every register but STATUS is as before, and nothing is drawn. -/
def Obligations.ReconBehaviour : Prop :=
  ∀ s : State, s.mem.wf →
    encode .recon = 0x30000000#32 ∧
    (s.len = 0x0000#16 → exec .recon s = .next { s with err := 0x03#8 }) ∧
    (s.len ≠ 0x0000#16 → s.m = 0x00#8 → exec .recon s = .next { s with err := 0x06#8 }) ∧
    (s.len ≠ 0x0000#16 → s.m ≠ 0x00#8 → ¬ ReconInRange s → exec .recon s = .next { s with err := 0x04#8 }) ∧
    (s.len ≠ 0x0000#16 → s.m ≠ 0x00#8 → ReconInRange s → ReconOverlap s →
      exec .recon s = .next { s with err := 0x05#8 }) ∧
    (ReconReady s →
      (∀ j < s.m.toNat, s.mem.read (shareByteAt s.src.toNat s.len.toNat j 0) = none →
        (∀ j' < j, s.mem.read (shareByteAt s.src.toNat s.len.toNat j' 0) ≠ none) →
        exec .recon s = .fault (.unwrittenByte (shareByteAt s.src.toNat s.len.toNat j 0))) ∧
      ∀ xs : List Byte, xs.length = s.m.toNat →
        (∀ j < xs.length, s.mem.read (shareByteAt s.src.toNat s.len.toNat j 0) = some (xs.getD j 0x00#8)) →
        ((∃ j < xs.length, xs.getD j 0x00#8 = 0x00#8) ∨
          (∃ j k, j < k ∧ k < xs.length ∧ xs.getD j 0x00#8 = xs.getD k 0x00#8) →
          exec .recon s = .next { s with err := 0x06#8 }) ∧
        (IndicesOk xs →
          ((∃ j < s.m.toNat, ∃ i < s.len.toNat,
              s.mem.read (shareByteAt s.src.toNat s.len.toNat j (1 + i)) = none) →
            ∃ j < s.m.toNat, ∃ i < s.len.toNat,
              s.mem.read (shareByteAt s.src.toNat s.len.toNat j (1 + i)) = none ∧
              exec .recon s = .fault (.unwrittenByte (shareByteAt s.src.toNat s.len.toNat j (1 + i)))) ∧
          ∀ y : Nat → Nat → Byte,
            (∀ j < s.m.toNat, ∀ i < s.len.toNat,
              s.mem.read (shareByteAt s.src.toNat s.len.toNat j (1 + i)) = some (y j i)) →
            ∃ t : State, exec .recon s = .next t ∧ t = { s with mem := t.mem, err := 0x00#8 } ∧
              (∀ i < s.len.toNat, t.mem.read (s.dst.toNat + i) =
                some (gsum ((List.range s.m.toNat).map fun j =>
                  gmul s.cfg.poly (y j i) ((weights s.cfg.poly xs).getD j 0x00#8)))) ∧
              ∀ a, ¬ (s.dst.toNat ≤ a ∧ a < s.dst.toNat + s.len.toNat) → t.mem.read a = s.mem.read a))

/-- R143: with one share of a non-zero index, RECON reports success and writes its payload unchanged. -/
def Obligations.ReconOfOneShare : Prop :=
  ∀ (s : State) (x : Byte), s.mem.wf → ReconReady s → s.m = 0x01#8 → s.mem.read s.src.toNat = some x → x ≠ 0x00#8 →
    (∀ i < s.len.toNat, s.mem.read (s.src.toNat + 1 + i) ≠ none) →
    ∃ t : State, exec .recon s = .next t ∧ t.err = 0x00#8 ∧
      ∀ i < s.len.toNat, t.mem.read (s.dst.toNat + i) = s.mem.read (s.src.toNat + 1 + i)

/-- R144: RECON reports success on every share set that passes its checks, whatever the shares' origin, and it does not know
the threshold: with other values in T and N it answers the same. -/
def Obligations.ReconIgnoresTheThreshold : Prop :=
  ∀ s t : State, exec .recon s = .next t → ∀ t' n' : Byte,
    exec .recon { s with t := t', n := n' } = .next { t with t := t', n := n' } ∧
    ∀ xs : List Byte, xs.length = s.m.toNat →
      (∀ j < xs.length, s.mem.read (shareByteAt s.src.toNat s.len.toNat j 0) = some (xs.getD j 0x00#8)) →
      ReconReady s → IndicesOk xs → t.err = 0x00#8

/-- The first sentence of R145: the result does not depend on the order of the shares in DMEM. The share set of `u'` is that
of `u` in another order (its share number j is number `ks[j]` of `u`). -/
def Obligations.ReconIsOrderFree : Prop :=
  ∀ (u u' v : State) (ks : List Nat), u.cfg.Legal → u.mem.wf → u'.mem.wf → u'.cfg = u.cfg → u'.len = u.len →
    u'.m = u.m → exec .recon u = .next v → v.err = 0x00#8 → ReconReady u' →
    ks.Perm (List.range u.m.toNat) →
    (∀ j < u.m.toNat, ∀ b ≤ u.len.toNat,
      u'.mem.read (shareByteAt u'.src.toNat u'.len.toNat j b) =
        u.mem.read (shareByteAt u.src.toNat u.len.toNat (ks.getD j 0) b)) →
    ∃ v' : State, exec .recon u' = .next v' ∧ v'.err = 0x00#8 ∧
      ∀ i < u.len.toNat, v'.mem.read (u'.dst.toNat + i) = v.mem.read (u.dst.toNat + i)

/-- R146: after a SPLIT from `s` to `t` that reports success, whatever it drew, let `u` hold at SRC any T or more of its
shares, unaltered and in any order (number j is share `ks[j]`), with M and LEN set for them. RECON reports success and
writes the secret. -/
def Obligations.SplitThenReconRecoversTheSecret : Prop :=
  ∀ (s t u : State) (ks : List Nat), s.cfg.Legal → s.mem.wf → u.mem.wf → exec .split s = .next t → t.err = 0x00#8 →
    u.cfg = s.cfg → u.len = s.len → u.m.toNat = ks.length → s.t.toNat ≤ ks.length → ks.Nodup →
    (∀ k ∈ ks, 1 ≤ k ∧ k ≤ s.n.toNat) →
    (∀ j < ks.length, ∀ b ≤ s.len.toNat,
      u.mem.read (shareByteAt u.src.toNat s.len.toNat j b) =
        t.mem.read (shareByteAt s.dst.toNat s.len.toNat (ks.getD j 0 - 1) b)) →
    ReconInRange u → ¬ ReconOverlap u →
    ∃ v : State, exec .recon u = .next v ∧ v.err = 0x00#8 ∧
      ∀ i < s.len.toNat, v.mem.read (u.dst.toNat + i) = s.mem.read (s.src.toNat + i)

/-- R149: the weights of any share indices sum to 0x01, so if every share's byte i has the value v, RECON writes v at
position i. -/
def Obligations.WeightsSumToOne : Prop :=
  (∀ poly ∈ legalPolys, ∀ xs : List Byte, xs ≠ [] → IndicesOk xs → gsum (weights poly xs) = 0x01#8) ∧
  ∀ (s t : State) (i : Nat) (v : Byte), s.cfg.Legal → s.mem.wf → exec .recon s = .next t → t.err = 0x00#8 →
    i < s.len.toNat → (∀ j < s.m.toNat, s.mem.read (shareByteAt s.src.toNat s.len.toNat j (1 + i)) = some v) →
    t.mem.read (s.dst.toNat + i) = some v

/-- The count behind R147, for one byte position and exactly T-1 shares: whatever the values of those shares' bytes at any T-1
distinct non-zero indices, each secret byte fits them with exactly one choice of the T-1 coefficients. No probability and
no secrecy is stated; that these follow under uniform draws is the reader's step (R147 takes uniformity as a premise). -/
def Obligations.UniqueCoefficientsFitAnySharesAndSecret : Prop :=
  ∀ poly ∈ legalPolys, ∀ xs ys : List Byte, IndicesOk xs → ys.length = xs.length → ∀ secret : Byte,
    ∃! ds : List Byte, ds.length = xs.length ∧
      ∀ j < xs.length, peval poly (xs.getD j 0x00#8) (secret :: ds) = ys.getD j 0x00#8

/-! ## Configuration (43_config.md) -/

/-- SETSRC and SETDST (R160, R161): any address is stored, STATUS.ERR becomes 0x00, nothing else changes; a non-zero Z field
makes the word illegal. -/
def Obligations.SetAddressCommandsStore : Prop :=
  ∀ (addr : Half) (s : State),
    encode (.setsrc addr) = 0x10#8 ++ 0x00#8 ++ addr ∧ encode (.setdst addr) = 0x11#8 ++ 0x00#8 ++ addr ∧
    exec (.setsrc addr) s = .next { s with src := addr, err := 0x00#8 } ∧
    exec (.setdst addr) s = .next { s with dst := addr, err := 0x00#8 } ∧
    ∀ z : Byte, z ≠ 0x00#8 → decode (0x10#8 ++ z ++ addr) = none ∧ decode (0x11#8 ++ z ++ addr) = none

/-- SETLEN (R162), with its corner cases: what LEN = 0 and LEN = 65535 make of a later SPLIT or RECON, and the largest secret
a SPLIT can take. -/
def Obligations.SetlenStoresTheLength : Prop :=
  (∀ (len : Half) (s : State),
    encode (.setlen len) = 0x12#8 ++ 0x00#8 ++ len ∧
    exec (.setlen len) s = .next { s with len := len, err := 0x00#8 } ∧
    ∀ z : Byte, z ≠ 0x00#8 → decode (0x12#8 ++ z ++ len) = none) ∧
  ∀ u : State,
    (u.len = 0x0000#16 →
      exec .split u = .next { u with err := 0x03#8 } ∧ exec .recon u = .next { u with err := 0x03#8 }) ∧
    (u.cfg.memSize = 65536 → u.len = 0xFFFF#16 → u.t ≠ 0x00#8 → u.t.toNat ≤ u.n.toNat →
      exec .split u =
        .next { u with err := if u.n = 0x01#8 ∧ u.dst = 0x0000#16 ∧ u.src.toNat ≤ 1 then 0x05#8 else 0x04#8 }) ∧
    (∀ t : State, exec .split u = .next t → t.err = 0x00#8 →
      u.len.toNat + u.n.toNat * (1 + u.len.toNat) ≤ u.cfg.memSize ∧
      (u.cfg.memSize = 65536 → u.len.toNat ≤ 32767)) ∧
    (u.cfg.memSize = 65536 → u.len = 0x7FFF#16 → u.t = 0x01#8 → u.n = 0x01#8 → u.src = 0x0000#16 →
      u.dst = 0x7FFF#16 → u.Written (secretRange u) → ∃ t : State, exec .split u = .next t ∧ t.err = 0x00#8)

/-- SETTN (R163): both registers, threshold first, whatever the values; t = 0, n = 0 and t > n make a later SPLIT raise
ERR_PARAM, and EVAL uses only T. -/
def Obligations.SettnStoresBoth : Prop :=
  ∀ (t n : Byte) (s : State),
    encode (.settn t n) = 0x13#8 ++ t ++ n ++ 0x00#8 ∧
    exec (.settn t n) s = .next { s with t := t, n := n, err := 0x00#8 } ∧
    (∀ z : Byte, z ≠ 0x00#8 → decode (0x13#8 ++ t ++ n ++ z) = none) ∧
    (∀ u : State, u.t = t → u.n = n → t = 0x00#8 ∨ n = 0x00#8 ∨ n.toNat < t.toNat →
      exec .split u = .next { u with err := 0x03#8 }) ∧
    ∀ (x : Byte) (u v : State), exec (.eval x) u = .next v → exec (.eval x) { u with n := n } = .next { v with n := n }

/-- SETM (R164): any count is stored; m = 0 makes a later RECON (of a non-zero LEN, whose own error comes first) raise
ERR_SHARE. -/
def Obligations.SetmStoresTheCount : Prop :=
  ∀ (m : Byte) (s : State),
    encode (.setm m) = 0x14#8 ++ m ++ 0x0000#16 ∧ exec (.setm m) s = .next { s with m := m, err := 0x00#8 } ∧
    (∀ z : Half, z ≠ 0x0000#16 → decode (0x14#8 ++ m ++ z) = none) ∧
    ∀ u : State, u.m = m → m = 0x00#8 → u.len ≠ 0x0000#16 → exec .recon u = .next { u with err := 0x06#8 }

/-- R165: a parameter register changes only by the SET command that writes it or by a reset; an error, an illegal word and
every port transaction but a write to CMD change none. -/
def Obligations.ParametersPersist : Prop :=
  (∀ (i : Instr) (s t : State), exec i s = .next t →
    ((∀ v, i ≠ .setsrc v) ∨ t.err ≠ 0x00#8 → t.src = s.src) ∧
    ((∀ v, i ≠ .setdst v) ∨ t.err ≠ 0x00#8 → t.dst = s.dst) ∧
    ((∀ v, i ≠ .setlen v) ∨ t.err ≠ 0x00#8 → t.len = s.len) ∧
    ((∀ a b, i ≠ .settn a b) ∨ t.err ≠ 0x00#8 → t.t = s.t ∧ t.n = s.n) ∧
    ((∀ v, i ≠ .setm v) ∨ t.err ≠ 0x00#8 → t.m = s.m)) ∧
  (∀ (w : Word) (s t : State), decode w = none → issue w s = .next t →
    t.src = s.src ∧ t.dst = s.dst ∧ t.len = s.len ∧ t.t = s.t ∧ t.n = s.n ∧ t.m = s.m) ∧
  ∀ (s t : State) (tr : Transaction) (rest : List Transaction), s.pending = tr :: rest → step s = .next t →
    (∀ w, tr ≠ .regWrite 0 w) → (∀ data, tr ≠ .busWrite 0 data) → tr ≠ .reset → (∀ w k, tr ≠ .resetDuring w k) →
    t.src = s.src ∧ t.dst = s.dst ∧ t.len = s.len ∧ t.t = s.t ∧ t.n = s.n ∧ t.m = s.m

/-! ## Errors (60_exceptions.md) -/

/-- R182: the state after a failed command is the state before it with only STATUS.ERR changed. -/
def Obligations.FailedCommandOnlySetsStatus : Prop :=
  ∀ (i : Instr) (s t : State), exec i s = .next t → t.err ≠ 0x00#8 → t = { s with err := t.err }

/-- R180's last column: a command reports one of the codes raised by it, and each of them in some state. -/
def Obligations.CodesAreThoseOfTheTable : Prop :=
  (∀ (i : Instr) (s t : State), exec i s = .next t → ∃ code ∈ codesOf i, t.err = code.number) ∧
  (ErrorCode.ok.number = 0x00#8 ∧ ErrorCode.illegal.number = 0x01#8 ∧ ErrorCode.invZero.number = 0x02#8 ∧
    ErrorCode.param.number = 0x03#8 ∧ ErrorCode.range.number = 0x04#8 ∧ ErrorCode.overlap.number = 0x05#8 ∧
    ErrorCode.share.number = 0x06#8) ∧
  (∀ code ∈ codesOf (.ginv 0x00#8), ∃ (a : Byte) (s t : State), exec (.ginv a) s = .next t ∧ t.err = code.number) ∧
  (∀ x : Byte, ∀ code ∈ codesOf (.eval x), ∃ s t : State, exec (.eval x) s = .next t ∧ t.err = code.number) ∧
  (∀ code ∈ codesOf .split, ∃ s t : State, exec .split s = .next t ∧ t.err = code.number) ∧
  ∀ code ∈ codesOf .recon, ∃ s t : State, exec .recon s = .next t ∧ t.err = code.number

/-- R183: ERR_PARAM is raised exactly in the cases listed. -/
def Obligations.ErrParamExactly : Prop :=
  ∀ (i : Instr) (s : State),
    (∃ t : State, exec i s = .next t ∧ t.err = 0x03#8) ↔
      ((∃ x, i = .eval x) ∧ s.t = 0x00#8) ∨
      (i = .split ∧ (s.len = 0x0000#16 ∨ s.t = 0x00#8 ∨ s.n.toNat < s.t.toNat)) ∨
      (i = .recon ∧ s.len = 0x0000#16)

/-- R188: ERR_INV_ZERO is raised by `GINV 0x00` and by no other command. A RECON that reports success read share indices that
are distinct and non-zero, and of such indices every sum `gadd(x_k, x_j)` that a weight inverts is non-zero. -/
def Obligations.ErrInvZeroOnlyFromGinv : Prop :=
  (∀ (i : Instr) (s : State), (∃ t : State, exec i s = .next t ∧ t.err = 0x02#8) ↔ i = .ginv 0x00#8) ∧
  (∀ s t : State, exec .recon s = .next t → t.err = 0x00#8 →
    ∃ xs : List Byte, xs.length = s.m.toNat ∧ IndicesOk xs ∧
      ∀ j < xs.length, s.mem.read (shareByteAt s.src.toNat s.len.toNat j 0) = some (xs.getD j 0x00#8)) ∧
  ∀ xs : List Byte, IndicesOk xs → ∀ j k, j < k → k < xs.length →
    gadd (xs.getD k 0x00#8) (xs.getD j 0x00#8) ≠ 0x00#8 ∧ gadd (xs.getD j 0x00#8) (xs.getD k 0x00#8) ≠ 0x00#8

/-- R214: every command overwrites STATUS.ERR: what it answers does not depend on the code before it. -/
def Obligations.StatusIsPerCommand : Prop :=
  ∀ (i : Instr) (s : State) (e : Byte), exec i { s with err := e } = exec i s

/-- R215: RES is overwritten by a successful GADD, GMUL, GINV, GPOW or EVAL (what it held before is no matter), and by
no other command: a failed GINV or EVAL and every other command leave it. -/
def Obligations.ResIsWrittenOnSuccessOnly : Prop :=
  ∀ (i : Instr) (s t : State), exec i s = .next t →
    (t.err = 0x00#8 ∧ (∃ a b, i = .gadd a b ∨ i = .gmul a b ∨ i = .gpow a b ∨ i = .ginv a ∨ i = .eval a) →
      ∀ r : Byte, exec i { s with res := r } = .next t) ∧
    (¬ (t.err = 0x00#8 ∧ (∃ a b, i = .gadd a b ∨ i = .gmul a b ∨ i = .gpow a b ∨ i = .ginv a ∨ i = .eval a)) →
      t.res = s.res)

/-- R185: two ranges of at least one byte intersect, in the sense of the checks, exactly when they share an address. -/
def Obligations.RangesOverlapWhenTheyShareAByte : Prop :=
  (∀ r w : ByteRange, 1 ≤ r.size → 1 ≤ w.size → (r.Overlaps w ↔ ∃ a, r.Has a ∧ w.Has a)) ∧
  (∀ s t : State, exec .split s = .next t → (t.err = 0x05#8 ↔
    SplitParams s ∧ SplitInRange s ∧ ∃ a, (secretRange s).Has a ∧ (shareAreaRange s).Has a)) ∧
  ∀ s t : State, exec .recon s = .next t → (t.err = 0x05#8 ↔
    s.len ≠ 0x0000#16 ∧ s.m ≠ 0x00#8 ∧ ReconInRange s ∧ ∃ a, (shareSetRange s).Has a ∧ (outputRange s).Has a)

/-! ## Registers and ports (10_state.md, 20_memory.md) -/

/-- R32, R33, R34: the constant registers read their hardwired values, in a legal instance bit 8 of POLY reads 1, and no step
(a command, another transaction or a reset) changes them. -/
def Obligations.ConstantRegistersNeverChange : Prop :=
  ∀ s : State, s.cfg.Legal →
    registerRead s 8 = s.cfg.poly.setWidth 32 ∧ (registerRead s 8).getLsbD 8 = true ∧
    registerRead s 9 = 0x47463801#32 ∧ (registerRead s 10).toNat = s.cfg.memSize ∧
    (s.cfg.memSize = 65536 → registerRead s 10 = 0x00010000#32) ∧
    ∀ t : State, step s = .next t →
      registerRead t 8 = registerRead s 8 ∧ registerRead t 9 = registerRead s 9 ∧
      registerRead t 10 = registerRead s 10 ∧ t.cfg = s.cfg

/-- R31, R36, R38: a host read of each register index, at any time and right after power-on; it changes nothing. -/
def Obligations.RegisterReadsFollowTheMap : Prop :=
  (∀ (s : State) (r : Fin 16) (rest : List Transaction), s.pending = .regRead r :: rest →
    step s = .next { s with pending := rest, reply := some (.word (registerRead s r)) }) ∧
  (∀ s : State,
    registerRead s 0 = 0x00000000#32 ∧ registerRead s 1 = 0x000000#24 ++ s.err ∧
    registerRead s 2 = 0x000000#24 ++ s.res ∧ registerRead s 3 = 0x0000#16 ++ s.src ∧
    registerRead s 4 = 0x0000#16 ++ s.dst ∧ registerRead s 5 = 0x0000#16 ++ s.len ∧
    registerRead s 6 = 0x0000#16 ++ s.n ++ s.t ∧ registerRead s 7 = 0x000000#24 ++ s.m ∧
    registerRead s 8 = 0#23 ++ s.cfg.poly ∧ registerRead s 9 = 0x47463801#32 ∧
    registerRead s 10 = BitVec.ofNat 32 s.cfg.memSize ∧ ∀ r : Fin 16, 11 ≤ r.val → registerRead s r = 0x00000000#32) ∧
  ∀ (c : Config) (r : Fin 16), r.val ≤ 7 → registerRead (State.powerOn c) r = 0x00000000#32

/-- R36, and the first sentence of R37: a host write to a register other than CMD has no effect (no register changes, no
command is issued, STATUS stays), and the reserved indices read zero. -/
def Obligations.OtherRegisterWritesDoNothing : Prop :=
  ∀ (s : State) (r : Fin 16) (w : Word) (rest : List Transaction), r.val ≠ 0 →
    (s.pending = .regWrite r w :: rest → step s = .next { s with pending := rest, reply := none }) ∧
    (11 ≤ r.val → s.pending = .regRead r :: rest →
      step s = .next { s with pending := rest, reply := some (.word 0x00000000#32) })

/-- R55: on a byte bus register index r has the offsets 4·r to 4·r+3, little-endian; only whole aligned 32-bit accesses inside
offsets 0 to 63 are transactions, every other one is refused. -/
def Obligations.BusAccessesAreWholeWords : Prop :=
  ∀ (s : State) (rest : List Transaction),
    (∀ (r : Fin 16) (b0 b1 b2 b3 : Byte), s.pending = .busWrite (4 * r.val) [b0, b1, b2, b3] :: rest →
      step s = step { s with pending := .regWrite r (b3 ++ b2 ++ b1 ++ b0) :: rest }) ∧
    (∀ r : Fin 16, s.pending = .busRead (4 * r.val) 4 :: rest →
      ∃ b0 b1 b2 b3 : Byte, b3 ++ b2 ++ b1 ++ b0 = registerRead s r ∧
        step s = .next { s with pending := rest, reply := some (.bus [b0, b1, b2, b3]) }) ∧
    (∀ (offset : Nat) (data : List Byte), ¬ (data.length = 4 ∧ offset % 4 = 0 ∧ offset < 64) →
      s.pending = .busWrite offset data :: rest → step s = .refused (.notATransaction offset data.length)) ∧
    ∀ offset width : Nat, ¬ (width = 4 ∧ offset % 4 = 0 ∧ offset < 64) →
      s.pending = .busRead offset width :: rest → step s = .refused (.notATransaction offset width)

/-- R56: the memory port, inside and outside DMEM; it changes no register, and a write changes no other byte. -/
def Obligations.MemoryPortReadsAndWrites : Prop :=
  ∀ (s : State) (a : Half) (rest : List Transaction), s.mem.wf →
    (∀ v : Byte, s.pending = .hostMemWrite a v :: rest → a.toNat < s.cfg.memSize →
      ∃ mem : Memory, step s = .next { s with pending := rest, reply := none, mem := mem } ∧
        mem.read a.toNat = some v ∧ ∀ x, x ≠ a.toNat → mem.read x = s.mem.read x) ∧
    (∀ v : Byte, s.pending = .hostMemWrite a v :: rest → s.cfg.memSize ≤ a.toNat →
      step s = .next { s with pending := rest, reply := none }) ∧
    (s.pending = .hostMemRead a :: rest → a.toNat < s.cfg.memSize →
      (∀ v : Byte, s.mem.read a.toNat = some v →
        step s = .next { s with pending := rest, reply := some (.byte v) }) ∧
      (s.mem.read a.toNat = none → step s = .fault (.unwrittenByte a.toNat))) ∧
    (s.pending = .hostMemRead a :: rest → s.cfg.memSize ≤ a.toNat →
      step s = .next { s with pending := rest, reply := some (.byte 0x00#8) })

/-- Between commands the block is idle and keeps all state (R200). That a step with no pending transaction goes on at all, to
the same state, is the model's choice (log entry 7, DESIGN CHOICE). -/
def Obligations.IdleBlockKeepsState : Prop := ∀ s : State, s.pending = [] → step s = .next s

/-- R53, R184: the engine never reads or writes outside DMEM: a fault of a command names an unwritten byte inside it, and a
command that goes on leaves every address outside it alone. -/
def Obligations.EngineStaysInsideDmem : Prop :=
  ∀ (i : Instr) (s : State), s.mem.wf →
    (∀ a, exec i s = .fault (.unwrittenByte a) → a < s.cfg.memSize ∧ s.mem.read a = none) ∧
    ∀ t : State, exec i s = .next t → ∀ a, s.cfg.memSize ≤ a → t.mem.read a = s.mem.read a

/-- The frame of every command: each byte of DMEM outside the bytes it stores (`storedRange`: none but for SPLIT and RECON) is
as before; the constant registers and the host's transactions are never touched; only a successful SPLIT moves the
provider; RES, the parameter registers and STATUS are the subject of ResIsWrittenOnSuccessOnly, ParametersPersist and
CodesAreThoseOfTheTable. No command is refused. -/
def Obligations.CommandFrame : Prop :=
  ∀ (i : Instr) (s : State), s.mem.wf → (∀ r : Refusal, exec i s ≠ .refused r) ∧
    ∀ t : State, exec i s = .next t →
      (∀ a, ¬ (storedRange i s).Has a → t.mem.read a = s.mem.read a) ∧
      (i ≠ .split → i ≠ .recon → t.mem = s.mem) ∧ (t.err ≠ 0x00#8 → t.mem = s.mem) ∧
      t.cfg = s.cfg ∧ t.pending = s.pending ∧ t.reply = s.reply ∧ (i ≠ .split ∨ t.err ≠ 0x00#8 → t.rng = s.rng)

/-! ## Reset (70_reset_and_hazards.md) -/

/-- R44, R210, R211: the reset transaction clears the registers and keeps DMEM, POLY and MEMSIZE; power-on is that with every
byte unwritten. -/
def Obligations.ResetClearsRegistersKeepsDmem : Prop :=
  (∀ (s : State) (rest : List Transaction), s.pending = .reset :: rest → ∃ t : State, step s = .next t ∧
    t.res = 0x00#8 ∧ t.err = 0x00#8 ∧ t.src = 0x0000#16 ∧ t.dst = 0x0000#16 ∧ t.len = 0x0000#16 ∧ t.t = 0x00#8 ∧
    t.n = 0x00#8 ∧ t.m = 0x00#8 ∧ t.mem = s.mem ∧ t.cfg = s.cfg ∧ t.pending = rest) ∧
  ∀ c : Config,
    ((State.powerOn c).res = 0x00#8 ∧ (State.powerOn c).err = 0x00#8 ∧ (State.powerOn c).src = 0x0000#16 ∧
      (State.powerOn c).dst = 0x0000#16 ∧ (State.powerOn c).len = 0x0000#16 ∧ (State.powerOn c).t = 0x00#8 ∧
      (State.powerOn c).n = 0x00#8 ∧ (State.powerOn c).m = 0x00#8 ∧ (State.powerOn c).cfg = c) ∧
    ∀ a, (State.powerOn c).mem.read a = none

/-- A reset that arrives while a command executes (R212): the registers are cleared, the bytes of the write range of an
abandoned SPLIT or RECON (with the register values it started with) are unwritten, and every other byte keeps its value.
Two parts are the model's choices (log entry 8, DESIGN CHOICE): the write range is forgotten even where the command's
checks would fail, and a word that is no EVAL, SPLIT or RECON leaves what a reset alone leaves. How many bytes an abandoned
SPLIT drew is the transaction's operand (the same entry) and not part of this statement. -/
def Obligations.ResetAbandonsACommand : Prop :=
  ∀ (s : State) (w : Word) (taken : Nat) (rest : List Transaction), s.pending = .resetDuring w taken :: rest →
    ∃ t : State, step s = .next t ∧
      (t.res = 0x00#8 ∧ t.err = 0x00#8 ∧ t.src = 0x0000#16 ∧ t.dst = 0x0000#16 ∧ t.len = 0x0000#16 ∧ t.t = 0x00#8 ∧
        t.n = 0x00#8 ∧ t.m = 0x00#8 ∧ t.cfg = s.cfg ∧ t.pending = rest) ∧
      (decode w = some .split → ∀ a, t.mem.read a =
        if s.dst.toNat ≤ a ∧ a < s.dst.toNat + s.n.toNat * (1 + s.len.toNat) then none else s.mem.read a) ∧
      (decode w = some .recon → ∀ a, t.mem.read a =
        if s.dst.toNat ≤ a ∧ a < s.dst.toNat + s.len.toNat then none else s.mem.read a) ∧
      (decode w ≠ some .split → decode w ≠ some .recon → ∀ a, t.mem.read a = s.mem.read a)

/-- The machine right after power-on meets the invariant, for every legal instance; so does `State.reset`. -/
def Obligations.PowerOnMeetsTheInvariant : Prop :=
  (∀ c : Config, c.Legal → (State.powerOn c).Inv) ∧ State.reset.Inv

/-- Every step that goes on keeps the invariant: the instance stays legal, DMEM stays in its canonical form and inside its
size, and STATUS.ERR stays a code of R180; whatever the transaction, from every state that meets it. -/
def Obligations.StepKeepsTheInvariant : Prop :=
  ∀ s t : State, s.Inv → step s = .next t → t.Inv

/-! ## Assembler (30_encoding.md R79 to R82) -/

/-- R79: the assembler accepts a source command exactly when it has its operands and each fits its field, and then each
operand stands in its field unchanged; the examples of the rule, as text. How white space is read is the model's choice (log entry
10, DESIGN CHOICE). -/
def Obligations.AssemblerAcceptsWhatFits : Prop :=
  (∀ c : SourceCommand, (assembleCommand c).isSome = c.wf) ∧
  (∀ a b : Nat, a < 256 → b < 256 →
    assembleCommand { mnemonic := .gadd, operands := [a, b] } = some (.gadd (BitVec.ofNat 8 a) (BitVec.ofNat 8 b)) ∧
    assembleCommand { mnemonic := .gmul, operands := [a, b] } = some (.gmul (BitVec.ofNat 8 a) (BitVec.ofNat 8 b)) ∧
    assembleCommand { mnemonic := .ginv, operands := [a] } = some (.ginv (BitVec.ofNat 8 a)) ∧
    assembleCommand { mnemonic := .gpow, operands := [a, b] } = some (.gpow (BitVec.ofNat 8 a) (BitVec.ofNat 8 b)) ∧
    assembleCommand { mnemonic := .settn, operands := [a, b] } = some (.settn (BitVec.ofNat 8 a) (BitVec.ofNat 8 b)) ∧
    assembleCommand { mnemonic := .setm, operands := [a] } = some (.setm (BitVec.ofNat 8 a)) ∧
    assembleCommand { mnemonic := .eval, operands := [a] } = some (.eval (BitVec.ofNat 8 a))) ∧
  (∀ a : Nat, a < 65536 →
    assembleCommand { mnemonic := .setsrc, operands := [a] } = some (.setsrc (BitVec.ofNat 16 a)) ∧
    assembleCommand { mnemonic := .setdst, operands := [a] } = some (.setdst (BitVec.ofNat 16 a)) ∧
    assembleCommand { mnemonic := .setlen, operands := [a] } = some (.setlen (BitVec.ofNat 16 a))) ∧
  assembleCommand { mnemonic := .split, operands := [] } = some .split ∧
  assembleCommand { mnemonic := .recon, operands := [] } = some .recon ∧
  assembleLine ['G', 'A', 'D', 'D', ' ', '0', 'x', '5', '3', ',', ' ', '0', 'x', 'C', 'A'] = some 0x0153CA00#32 ∧
  assembleLine ['G', 'I', 'N', 'V', ' ', '0', 'x', '5', '3'] = some 0x03530000#32 ∧
  assembleLine ['g', 'p', 'o', 'w', ' ', '0', 'x', '0', '2', ',', ' ', '2', '5', '4'] = some 0x0402FE00#32 ∧
  assembleLine ['S', 'E', 'T', 'S', 'R', 'C', ' ', '0', 'x', '0', '1', '0', '0'] = some 0x10000100#32 ∧
  assembleLine ['S', 'E', 'T', 'T', 'N', ' ', '3', ',', ' ', '5'] = some 0x13030500#32 ∧
  assembleLine ['S', 'E', 'T', 'M', ' ', '3'] = some 0x14030000#32 ∧
  assembleLine ['E', 'V', 'A', 'L', ' ', '0', 'x', '0', '5'] = some 0x20050000#32 ∧
  assembleLine ['S', 'P', 'L', 'I', 'T'] = some 0x21000000#32 ∧
  assembleLine ['R', 'E', 'C', 'O', 'N'] = some 0x30000000#32

/-- R82, with R79: what the disassembler prints for a command assembles back to the word, and no other word prints a line that
the assembler accepts. The text forms this rests on where R79 and R82 are silent (the blanks printed and skipped, the case
of hexadecimal digits, the comment) are the model's choice (log entry 10, DESIGN CHOICE). -/
def Obligations.DisassemblyAssemblesBack : Prop :=
  ∀ w : Word, ((decode w).isSome → assembleLine (disassemble w) = some w) ∧
    (decode w = none → assembleLine (disassemble w) = none)

/-- R81: each pseudo-instruction expands to its one command, and loads what its reason says. -/
def Obligations.PseudoInstructionsExpand : Prop :=
  (∀ a b : Nat, assembleCommand { mnemonic := .gsub, operands := [a, b] } =
      assembleCommand { mnemonic := .gadd, operands := [a, b] } ∧
    assembleCommand { mnemonic := .gsqr, operands := [a] } =
      assembleCommand { mnemonic := .gmul, operands := [a, a] }) ∧
  assembleCommand { mnemonic := .gone, operands := [] } = assembleCommand { mnemonic := .gpow, operands := [0, 0] } ∧
  assembleCommand { mnemonic := .gzero, operands := [] } = assembleCommand { mnemonic := .gadd, operands := [0, 0] } ∧
  mnemonicNamed ['S', 'E', 'T', 'T'] = none ∧
  ∀ s : State, exec (.gpow 0x00#8 0x00#8) s = .next { s with res := 0x01#8, err := 0x00#8 } ∧
    exec (.gadd 0x00#8 0x00#8) s = .next { s with res := 0x00#8, err := 0x00#8 }
end

