-- ==== Sys2Proof/Laws/Field.lean ====
section
/-! SUPPORT. The small laws of the field functions that follow from their definitions alone, under every `POLY`. -/

namespace Sys2Proof.Machine

@[simp] theorem gadd_self (a : Byte) : gadd a a = 0x00#8 := BitVec.xor_self

@[simp] theorem gadd_zero (a : Byte) : gadd a 0x00#8 = a := BitVec.xor_zero

@[simp] theorem zero_gadd (a : Byte) : gadd 0x00#8 a = a := BitVec.zero_xor

/-- The product with 0x00 has no bit to add. -/
theorem clmulBits_zero_left (b : Byte) (k : Nat) : clmulBits 0x00#8 b k = 0#15 := by
  induction k with
  | zero => rfl
  | succ k ih => cases h : b.getLsbD k <;> simp [clmulBits, ih, h]

theorem clmulBits_zero_right (a : Byte) (k : Nat) : clmulBits a 0x00#8 k = 0#15 := by
  induction k with
  | zero => rfl
  | succ k ih => simp [clmulBits, ih]

/-- Zero needs no reduction. -/
theorem reduceBits_zero (poly : BitVec 9) (k : Nat) : reduceBits poly k 0#15 = 0#15 := by
  induction k with
  | zero => rfl
  | succ k ih => simp [reduceBits, ih]

@[simp] theorem zero_gmul (poly : BitVec 9) (b : Byte) : gmul poly 0x00#8 b = 0x00#8 := by
  simp [gmul, clmul, clmulBits_zero_left, reduceBits_zero]

@[simp] theorem gmul_zero (poly : BitVec 9) (a : Byte) : gmul poly a 0x00#8 = 0x00#8 := by
  simp [gmul, clmul, clmulBits_zero_right, reduceBits_zero]

/-- The constant polynomial: Horner's rule starts at `y = c[t-1]` (41_generator.md R121). -/
theorem peval_singleton (poly : BitVec 9) (x c : Byte) : peval poly x [c] = c := by simp [peval]

theorem length_weights (poly : BitVec 9) (xs : List Byte) : (weights poly xs).length = xs.length := by
  simp [weights]

theorem length_recoverBytes (poly : BitVec 9) (xs : List Byte) (payloads : List (List Byte)) (l : Nat) :
    (recoverBytes poly xs payloads l).length = l := by
  simp [recoverBytes]

end Sys2Proof.Machine
end

