-- ==== Sys2Proof/Laws/Provider.lean ====
section
/-! SUPPORT. What the random-byte port supplies: a row of draws is `byteAt` of consecutive requests, and leaves the
provider that many requests further on. -/

namespace Sys2Proof.Machine

theorem Provider.after_zero (r : Provider) : r.after 0 = r := by simp [Provider.after]

theorem Provider.after_after (r : Provider) (j k : Nat) : (r.after j).after k = r.after (j + k) := by
  simp [Provider.after, Nat.add_assoc]

/-- Looking ahead from a later provider is looking further ahead. -/
theorem Provider.byteAt_after (r : Provider) (j q : Nat) :
    (r.after j).byteAt q = r.byteAt (j + q) := by
  simp only [Provider.byteAt, Provider.after, List.length_drop]
  by_cases hq : j + q < r.ready.length
  · rw [if_pos (by omega), if_pos hq]
    simp [List.getD_eq_getElem?_getD, List.getElem?_drop]
  · rw [if_neg (by omega), if_neg hq, Nat.add_assoc]

theorem Provider.answers_after {r : Provider} {j k : Nat} (h : r.Answers (j + k)) : (r.after j).Answers k := by
  rcases h with h | h
  · exact .inl h
  · exact .inr (by simp [Provider.after]; omega)

theorem Provider.answers_mono {r : Provider} {j k : Nat} (h : r.Answers k) (hj : j ≤ k) : r.Answers j :=
  h.imp id fun h => Nat.le_trans hj h

/-- One answered draw. -/
theorem Provider.draw_of_answers {r : Provider} (h : r.Answers 1) : r.draw = some (r.byteAt 0, r.after 1) := by
  obtain ⟨ready, live, drawn⟩ := r
  cases ready with
  | nil =>
    have hl : live = true := h.resolve_right (by simp)
    simp [Provider.draw, Provider.byteAt, Provider.after, hl]
  | cons b bs => simp [Provider.draw, Provider.byteAt, Provider.after]

/-- A draw that is not answered. -/
theorem Provider.draw_of_silent {r : Provider} (h : ¬ r.Answers 1) : r.draw = none := by
  obtain ⟨ready, live, drawn⟩ := r
  cases ready with
  | nil => simp_all [Provider.draw]
  | cons b bs => exact absurd (.inr (by simp)) h

/-- A row of answered draws. -/
theorem Provider.drawMany_of_answers {r : Provider} {k : Nat} (h : r.Answers k) :
    r.drawMany k = some ((List.range k).map r.byteAt, r.after k) := by
  induction k generalizing r with
  | zero => simp [Provider.drawMany, Provider.after_zero]
  | succ k ih =>
    have h1 := Provider.draw_of_answers (Provider.answers_mono h (j := 1) (by omega))
    have h2 := ih (r := r.after 1) (Provider.answers_after (by rwa [Nat.add_comm] at h))
    simp only [Provider.drawMany, h1, h2, Provider.after_after, Option.some.injEq, Prod.mk.injEq]
    refine ⟨?_, by rw [Nat.add_comm]⟩
    rw [List.range_succ_eq_map]
    simp [Provider.byteAt_after, Nat.add_comm, Function.comp_def]

/-- A row of draws that is not answered to its end. -/
theorem Provider.drawMany_of_silent {r : Provider} {k : Nat} (h : ¬ r.Answers k) : r.drawMany k = none := by
  induction k generalizing r with
  | zero => exact absurd (.inr (Nat.zero_le _)) h
  | succ k ih =>
    by_cases h1 : r.Answers 1
    · have hk : ¬ (r.after 1).Answers k := by
        rintro (hl | hr)
        · exact h (.inl hl)
        · rcases h1 with hl | h1
          · exact h (.inl hl)
          · refine h (.inr ?_)
            simp [Provider.after] at hr
            omega
      simp only [Provider.drawMany, Provider.draw_of_answers h1, ih hk]
    · simp only [Provider.drawMany, Provider.draw_of_silent h1]

end Sys2Proof.Machine
end

