-- ==== Sys2Proof/Laws/Generator.lean ====
section
/-! SUPPORT. What SPLIT computes before it writes: the polynomials it draws and the bytes of its share area. -/

namespace Sys2Proof.Machine

/-- The polynomials of a secret whose draws are all answered (41_generator.md R120, R122). -/
theorem drawPolynomials_of_answers {k : Nat} {bs : List Byte} {r : Provider} (h : r.Answers (bs.length * k)) :
    drawPolynomials k bs r =
      some (bs.mapIdx fun i b => b :: (List.range k).map fun j => r.byteAt (i * k + j), r.after (bs.length * k)) := by
  induction bs generalizing r with
  | nil => simp [drawPolynomials, Provider.after_zero]
  | cons b bs ih =>
    have hk : (bs.length + 1) * k = k + bs.length * k := by rw [Nat.add_mul, Nat.one_mul, Nat.add_comm]
    rw [List.length_cons, hk] at h ⊢
    have h1 := Provider.drawMany_of_answers (Provider.answers_mono h (Nat.le_add_right k _))
    have h2 := ih (r := r.after k) (Provider.answers_after h)
    simp only [drawPolynomials, h1, h2, Provider.after_after, Provider.byteAt_after, List.mapIdx_cons, Nat.zero_mul,
      Nat.zero_add, Option.some.injEq, Prod.mk.injEq, and_true]
    refine List.cons_eq_cons.2 ⟨rfl, ?_⟩
    refine congrArg (fun f => List.mapIdx f bs) ?_
    funext i c
    refine List.cons_eq_cons.2 ⟨rfl, List.map_congr_left fun j _ => ?_⟩
    exact congrArg r.byteAt (by rw [Nat.add_mul, Nat.one_mul]; omega)

/-- A SPLIT whose draws are not all answered gets no polynomials. -/
theorem drawPolynomials_of_silent {k : Nat} {bs : List Byte} {r : Provider} (h : ¬ r.Answers (bs.length * k)) :
    drawPolynomials k bs r = none := by
  induction bs generalizing r with
  | nil => exact absurd (.inr (by simp)) h
  | cons b bs ih =>
    have hk : (bs.length + 1) * k = k + bs.length * k := by rw [Nat.add_mul, Nat.one_mul, Nat.add_comm]
    rw [List.length_cons, hk] at h
    by_cases h1 : r.Answers k
    · have h2 : ¬ (r.after k).Answers (bs.length * k) := by
        rintro (hl | hr)
        · exact h (.inl hl)
        · rcases h1 with hl | h1
          · exact h (.inl hl)
          · exact h (.inr (by simp [Provider.after] at hr; omega))
      simp only [drawPolynomials, Provider.drawMany_of_answers h1, ih h2]
    · simp only [drawPolynomials, Provider.drawMany_of_silent h1]

/-- Rows of one length, one after the other: where a byte of a row stands in the whole. -/
theorem getD_flatMap_range (f : Nat → List Byte) (w : Nat) (hw : ∀ k, (f k).length = w) (n k i : Nat) (hk : k < n)
    (hi : i < w) : ((List.range n).flatMap f).getD (k * w + i) 0x00#8 = (f k).getD i 0x00#8 := by
  have hlen : ∀ j, ((List.range j).flatMap f).length = j * w := by
    intro j
    simp [List.length_flatMap, hw]
  have hsplit : ∀ j, k < j →
      ((List.range j).flatMap f).getD (k * w + i) 0x00#8 = (f k).getD i 0x00#8 := by
    intro j
    induction j with
    | zero => intro h; omega
    | succ j ih =>
      intro h
      rw [List.range_succ, List.flatMap_append]
      have hkw : (k + 1) * w = k * w + w := by rw [Nat.add_mul, Nat.one_mul]
      by_cases hkj : k < j
      · have : (k + 1) * w ≤ j * w := Nat.mul_le_mul_right w hkj
        rw [List.getD_append _ _ _ _ (by rw [hlen]; omega)]
        exact ih hkj
      · have : k = j := by omega
        subst this
        rw [List.getD_append_right _ _ _ _ (by rw [hlen]; omega), hlen]
        simp
  exact hsplit n hk

/-- A share has `1 + LEN` bytes (R123). -/
theorem length_shareBytes (poly : BitVec 9) (polys : List (List Byte)) (k : Nat) :
    (shareBytes poly polys k).length = 1 + polys.length := by
  simp [shareBytes, Nat.add_comm]

/-- The share area has `N · (1 + LEN)` bytes (R128). -/
theorem length_shareAreaBytes (poly : BitVec 9) (polys : List (List Byte)) (n : Nat) :
    (shareAreaBytes poly polys n).length = n * (1 + polys.length) := by
  simp [shareAreaBytes, List.length_flatMap, length_shareBytes]

/-- The first byte of share number `k + 1` is its index (R123, R127). -/
theorem getD_shareAreaBytes_index (poly : BitVec 9) (polys : List (List Byte)) {n k : Nat} (hk : k < n) :
    (shareAreaBytes poly polys n).getD (k * (1 + polys.length)) 0x00#8 = BitVec.ofNat 8 (k + 1) := by
  have := getD_flatMap_range (fun k => shareBytes poly polys (k + 1)) (1 + polys.length)
    (fun k => length_shareBytes poly polys (k + 1)) n k 0 hk (by omega)
  simpa [shareAreaBytes, shareBytes] using this

/-- Its further bytes are the polynomials' values at the index (R123, R128). -/
theorem getD_shareAreaBytes_payload (poly : BitVec 9) (polys : List (List Byte)) {n k i : Nat} (hk : k < n)
    (hi : i < polys.length) :
    (shareAreaBytes poly polys n).getD (k * (1 + polys.length) + 1 + i) 0x00#8 =
      peval poly (BitVec.ofNat 8 (k + 1)) (polys.getD i []) := by
  have := getD_flatMap_range (fun k => shareBytes poly polys (k + 1)) (1 + polys.length)
    (fun k => length_shareBytes poly polys (k + 1)) n k (1 + i) hk (by omega)
  rw [← Nat.add_assoc] at this
  rw [shareAreaBytes, this, shareBytes, Nat.add_comm 1 i, List.getD_cons_succ]
  simp [List.getD_eq_getElem?_getD, hi]

end Sys2Proof.Machine
end

