-- ==== Sys2Proof/Laws/Memory.lean ====
section
/-! SUPPORT. The laws of DMEM: what a read gives after each operation, and that every operation keeps the canonical form
and the size. -/

namespace Sys2Proof.Machine

/-! ## One byte -/

/-- Where an address lies below every listed one, it is unwritten. -/
theorem Memory.read_eq_none_of_lt {mem : Memory} {a : Nat} (h : ∀ c ∈ mem, a < c.1) : mem.read a = none := by
  induction mem with
  | nil => rfl
  | cons c mem ih =>
    have hc := h c (by simp)
    simp only [Memory.read]
    rw [if_neg (by omega)]
    exact ih fun d hd => h d (by simp [hd])

/-- A read finds a listed byte. -/
theorem Memory.mem_of_read {mem : Memory} {a : Nat} {b : Byte} (h : mem.read a = some b) : (a, b) ∈ mem := by
  induction mem with
  | nil => simp [Memory.read] at h
  | cons c mem ih =>
    simp only [Memory.read] at h
    split at h
    · rename_i hac
      obtain ⟨c1, c2⟩ := c
      simp_all
    · exact List.mem_cons_of_mem _ (ih h)

/-- In the canonical form a listed byte is what a read gives. -/
theorem Memory.read_of_mem {mem : Memory} (wf : mem.wf) {a : Nat} {b : Byte} (h : (a, b) ∈ mem) :
    mem.read a = some b := by
  induction mem with
  | nil => simp at h
  | cons c mem ih =>
    rw [Memory.wf, List.pairwise_cons] at wf
    rcases List.mem_cons.1 h with rfl | h
    · simp [Memory.read]
    · have := wf.1 _ h
      simp only [Memory.read]
      rw [if_neg (by simp at this; omega)]
      exact ih wf.2 h

/-- A written byte lies in DMEM. -/
theorem Memory.lt_of_read {mem : Memory} {size a : Nat} {b : Byte} (hw : mem.within size) (h : mem.read a = some b) :
    a < size :=
  hw _ (Memory.mem_of_read h)

/-- Read after write: the written address gives the written byte, every other address is as before. -/
theorem Memory.read_write (mem : Memory) (wf : mem.wf) (a x : Nat) (v : Byte) :
    (mem.write a v).read x = if x = a then some v else mem.read x := by
  induction mem with
  | nil => simp [Memory.write, Memory.read]
  | cons c mem ih =>
    rw [Memory.wf, List.pairwise_cons] at wf
    simp only [Memory.write]
    split
    · simp [Memory.read]
    · split
      · rename_i h
        simp only [Memory.read, h]
        split <;> simp_all
      · simp only [Memory.read, ih wf.2]
        split
        · rw [if_neg (by omega)]
        · rfl

/-- A write lists the written byte and otherwise only bytes listed before. -/
theorem Memory.mem_write {mem : Memory} {a : Nat} {v : Byte} {c : Host.Cell} (h : c ∈ mem.write a v) :
    c = (a, v) ∨ c ∈ mem := by
  induction mem with
  | nil => simpa [Memory.write] using h
  | cons d mem ih =>
    simp only [Memory.write] at h
    split at h
    · simpa using h
    · split at h
      · rcases List.mem_cons.1 h with h | h
        · exact .inl h
        · exact .inr (List.mem_cons_of_mem _ h)
      · rcases List.mem_cons.1 h with h | h
        · exact .inr (by simp [h])
        · rcases ih h with h | h
          · exact .inl h
          · exact .inr (List.mem_cons_of_mem _ h)

/-- A write keeps the canonical form. -/
theorem Memory.wf_write {mem : Memory} (wf : mem.wf) (a : Nat) (v : Byte) : (mem.write a v).wf := by
  induction mem with
  | nil => simp [Memory.write, Memory.wf]
  | cons c mem ih =>
    have wf0 := wf
    rw [Memory.wf, List.pairwise_cons] at wf
    simp only [Memory.write]
    split
    · rename_i h
      rw [Memory.wf, List.pairwise_cons]
      refine ⟨fun d hd => ?_, wf0⟩
      rcases List.mem_cons.1 hd with rfl | hd
      · exact h
      · exact Nat.lt_trans h (wf.1 d hd)
    · split
      · rename_i h
        rw [Memory.wf, List.pairwise_cons]
        exact ⟨fun d hd => h ▸ wf.1 d hd, wf.2⟩
      · rw [Memory.wf, List.pairwise_cons]
        refine ⟨fun d hd => ?_, ih wf.2⟩
        rcases Memory.mem_write hd with rfl | hd
        · simp only; omega
        · exact wf.1 d hd

/-- A write inside DMEM keeps every listed byte inside it. -/
theorem Memory.within_write {mem : Memory} {size a : Nat} (hw : mem.within size) (ha : a < size) (v : Byte) :
    (mem.write a v).within size := by
  intro c hc
  rcases Memory.mem_write hc with rfl | hc
  · exact ha
  · exact hw c hc

/-- Two canonical memories that read the same everywhere are equal. -/
theorem Memory.eq_of_read_eq {m₁ m₂ : Memory} (h₁ : m₁.wf) (h₂ : m₂.wf) (h : ∀ a, m₁.read a = m₂.read a) : m₁ = m₂ := by
  have hmem : ∀ c, c ∈ m₁ ↔ c ∈ m₂ := by
    rintro ⟨a, b⟩
    constructor
    · intro hc
      exact Memory.mem_of_read (h a ▸ Memory.read_of_mem h₁ hc)
    · intro hc
      exact Memory.mem_of_read ((h a).symm ▸ Memory.read_of_mem h₂ hc)
  have nodup : ∀ {m : Memory}, m.wf → m.Nodup := fun hm =>
    List.Pairwise.imp (fun {a b} (hab : a.1 < b.1) => by rintro rfl; omega) hm
  have hp : m₁.Perm m₂ := (List.perm_ext_iff_of_nodup (nodup h₁) (nodup h₂)).2 hmem
  exact hp.eq_of_pairwise (fun a b _ _ hab hba => absurd hab (by omega)) h₁ h₂

/-! ## Many bytes -/

/-- What a read gives after a row of bytes is written from `a` on. -/
theorem Memory.read_writeBytes (mem : Memory) (wf : mem.wf) (a : Nat) (bs : List Byte) (x : Nat) :
    (mem.writeBytes a bs).read x =
      if a ≤ x ∧ x < a + bs.length then some (bs.getD (x - a) 0x00#8) else mem.read x := by
  induction bs generalizing mem a with
  | nil => rw [if_neg (by simp)]; rfl
  | cons b bs ih =>
    simp only [Memory.writeBytes, List.length_cons]
    rw [ih _ (Memory.wf_write wf a b), Memory.read_write mem wf]
    by_cases hx : x = a
    · subst hx
      rw [if_neg (by omega), if_pos rfl, if_pos (by omega)]
      simp
    · by_cases hin : a + 1 ≤ x ∧ x < a + 1 + bs.length
      · rw [if_pos hin, if_pos (by omega)]
        have : x - a = (x - (a + 1)) + 1 := by omega
        rw [this, List.getD_cons_succ]
      · rw [if_neg hin, if_neg hx, if_neg (by omega)]

/-- Writing a row of bytes keeps the canonical form. -/
theorem Memory.wf_writeBytes {mem : Memory} (wf : mem.wf) (a : Nat) (bs : List Byte) : (mem.writeBytes a bs).wf := by
  induction bs generalizing mem a with
  | nil => exact wf
  | cons b bs ih => exact ih (Memory.wf_write wf a b) (a + 1)

/-- Writing a row of bytes inside DMEM keeps every listed byte inside it. -/
theorem Memory.within_writeBytes {mem : Memory} {size : Nat} (hw : mem.within size) (a : Nat) (bs : List Byte)
    (h : a + bs.length ≤ size) : (mem.writeBytes a bs).within size := by
  induction bs generalizing mem a with
  | nil => exact hw
  | cons b bs ih =>
    simp only [List.length_cons] at h
    exact ih (Memory.within_write hw (by omega) b) (a + 1) (by omega)

/-- The bytes read are those at the addresses. -/
theorem Memory.readAll_eq_ok_iff (mem : Memory) (as : List Nat) (bs : List Byte) :
    mem.readAll as = .ok bs ↔ as.map mem.read = bs.map some := by
  induction as generalizing bs with
  | nil => cases bs <;> simp [Memory.readAll]
  | cons a as ih =>
    simp only [Memory.readAll]
    cases ha : mem.read a with
    | none => cases bs <;> simp [ha]
    | some b =>
      cases hr : mem.readAll as with
      | error f =>
        cases bs with
        | nil => simp
        | cons c cs =>
          have := (not_congr (ih cs)).1 (by simp [hr])
          simp [ha, this]
      | ok cs =>
        have := (ih cs).1 hr
        cases bs with
        | nil => simp
        | cons d ds =>
          simp only [Except.ok.injEq, List.cons.injEq, List.map_cons, ha, Option.some.injEq, this]
          constructor
          · rintro ⟨rfl, rfl⟩; exact ⟨rfl, rfl⟩
          · rintro ⟨rfl, h⟩
            exact ⟨rfl, List.map_injective_iff.2 (Option.some_injective _) h⟩

/-- A successful read gives one byte per address. -/
theorem Memory.length_of_readAll {mem : Memory} {as : List Nat} {bs : List Byte} (h : mem.readAll as = .ok bs) :
    bs.length = as.length := by
  have := congrArg List.length ((Memory.readAll_eq_ok_iff mem as bs).1 h)
  simpa using this.symm

/-- A failed read names an address of the list whose byte is unwritten. -/
theorem Memory.fault_of_readAll {mem : Memory} {as : List Nat} {f : Fault} (h : mem.readAll as = .error f) :
    ∃ a ∈ as, mem.read a = none ∧ f = .unwrittenByte a := by
  induction as with
  | nil => simp [Memory.readAll] at h
  | cons a as ih =>
    simp only [Memory.readAll] at h
    cases ha : mem.read a with
    | none =>
      simp only [ha, Except.error.injEq] at h
      exact ⟨a, by simp, ha, h.symm⟩
    | some b =>
      simp only [ha] at h
      cases hr : mem.readAll as with
      | error g =>
        simp only [hr, Except.error.injEq] at h
        obtain ⟨x, hx, hn, hf⟩ := ih (h ▸ hr)
        exact ⟨x, List.mem_cons_of_mem _ hx, hn, hf⟩
      | ok bs => simp [hr] at h

/-- Where every address is written, the read succeeds. -/
theorem Memory.readAll_of_written {mem : Memory} {as : List Nat} (h : ∀ a ∈ as, ∃ b, mem.read a = some b) :
    ∃ bs, mem.readAll as = .ok bs := by
  cases hr : mem.readAll as with
  | ok bs => exact ⟨bs, rfl⟩
  | error f =>
    obtain ⟨a, ha, hn, -⟩ := Memory.fault_of_readAll hr
    obtain ⟨b, hb⟩ := h a ha
    simp [hb] at hn

/-- A row of consecutive bytes that are written is read as it stands. -/
theorem Memory.readAll_range' {mem : Memory} {a n : Nat} {bs : List Byte} (hn : bs.length = n)
    (h : ∀ i < bs.length, mem.read (a + i) = some (bs.getD i 0x00#8)) : mem.readAll (List.range' a n) = .ok bs := by
  rw [Memory.readAll_eq_ok_iff]
  apply List.ext_getElem
  · simp [hn]
  · intro i h1 h2
    have hi : i < bs.length := by simpa using h2
    simp only [List.getElem_map, List.getElem_range', Nat.one_mul]
    rw [h i hi]
    simp [hi]

/-- The byte a read of consecutive bytes gave for one of them. -/
theorem Memory.read_of_readAll_range' {mem : Memory} {a n i : Nat} {bs : List Byte}
    (h : mem.readAll (List.range' a n) = .ok bs) (hi : i < n) : mem.read (a + i) = some (bs.getD i 0x00#8) := by
  have hl : bs.length = n := by simpa using Memory.length_of_readAll h
  have := congrArg (fun l => l[i]?) ((Memory.readAll_eq_ok_iff _ _ _).1 h)
  simpa [hi, hl, List.getElem?_range'] using this

/-- A list of addresses is read up to its first unwritten byte, which faults. -/
theorem Memory.readAll_map_fault {mem : Memory} {f : Nat → Nat} {n j : Nat} (hj : j < n) (hn : mem.read (f j) = none)
    (hp : ∀ j' < j, mem.read (f j') ≠ none) :
    mem.readAll ((List.range n).map f) = .error (.unwrittenByte (f j)) := by
  induction n generalizing f j with
  | zero => omega
  | succ n ih =>
    rw [List.range_succ_eq_map, List.map_cons, List.map_map]
    simp only [Memory.readAll]
    cases j with
    | zero => simp only [hn]
    | succ j =>
      obtain ⟨b, hb⟩ := Option.ne_none_iff_exists'.1 (hp 0 (by omega))
      have := ih (f := f ∘ Nat.succ) (j := j) (by omega) hn fun j' hj' => hp (j' + 1) (by omega)
      simp only [hb, this]
      rfl

/-- Consecutive addresses as a mapped range. -/
theorem range'_eq_map (a n : Nat) : List.range' a n = (List.range n).map fun i => a + i := by
  rw [List.range'_eq_map_range]

/-- Rows are read one after the other. -/
theorem Memory.readRows_eq_ok_iff (mem : Memory) (rows : List (List Nat)) (bss : List (List Byte)) :
    mem.readRows rows = .ok bss ↔ rows.map mem.readAll = bss.map .ok := by
  induction rows generalizing bss with
  | nil => cases bss <;> simp [Memory.readRows]
  | cons as rows ih =>
    simp only [Memory.readRows]
    cases ha : mem.readAll as with
    | error f => cases bss <;> simp [ha]
    | ok bs =>
      cases hr : mem.readRows rows with
      | error f =>
        cases bss with
        | nil => simp
        | cons c cs =>
          have := (not_congr (ih cs)).1 (by simp [hr])
          simp [ha, this]
      | ok cs =>
        have := (ih cs).1 hr
        cases bss with
        | nil => simp
        | cons d ds =>
          simp only [Except.ok.injEq, List.cons.injEq, List.map_cons, ha, this]
          constructor
          · rintro ⟨rfl, rfl⟩; exact ⟨rfl, rfl⟩
          · rintro ⟨rfl, h⟩
            refine ⟨rfl, List.map_injective_iff.2 (fun a b hab => ?_) h⟩
            simpa using hab

/-- A failed read of rows names an address of one row whose byte is unwritten. -/
theorem Memory.fault_of_readRows {mem : Memory} {rows : List (List Nat)} {f : Fault}
    (h : mem.readRows rows = .error f) : ∃ as ∈ rows, ∃ a ∈ as, mem.read a = none ∧ f = .unwrittenByte a := by
  induction rows with
  | nil => simp [Memory.readRows] at h
  | cons as rows ih =>
    simp only [Memory.readRows] at h
    cases ha : mem.readAll as with
    | error g =>
      simp only [ha, Except.error.injEq] at h
      obtain ⟨x, hx, hn, hf⟩ := Memory.fault_of_readAll (h ▸ ha)
      exact ⟨as, by simp, x, hx, hn, hf⟩
    | ok bs =>
      simp only [ha] at h
      cases hr : mem.readRows rows with
      | error g =>
        simp only [hr, Except.error.injEq] at h
        obtain ⟨bs', hb, hx⟩ := ih (h ▸ hr)
        exact ⟨bs', List.mem_cons_of_mem _ hb, hx⟩
      | ok bss => simp [hr] at h

/-! ## Forgetting -/

/-- What a read gives after a range was marked unwritten. -/
theorem Memory.read_forget (mem : Memory) (a k x : Nat) :
    (mem.forget a k).read x = if a ≤ x ∧ x < a + k then none else mem.read x := by
  induction mem with
  | nil => simp [Memory.forget, Memory.read]
  | cons c mem ih =>
    simp only [Memory.forget] at ih ⊢
    by_cases hc : a ≤ c.1 ∧ c.1 < a + k
    · rw [List.filter_cons_of_neg (by simp [hc]), ih]
      simp only [Memory.read]
      split
      · rfl
      · rename_i h
        rw [if_neg (by rintro rfl; exact h hc)]
    · rw [List.filter_cons_of_pos (by
        simp only [Bool.not_eq_true', Bool.and_eq_false_iff, decide_eq_false_iff_not]; omega)]
      simp only [Memory.read, ih]
      split
      · rename_i h
        rw [if_neg (by rw [h]; exact hc)]
      · rfl

/-- Marking bytes unwritten keeps the canonical form. -/
theorem Memory.wf_forget {mem : Memory} (wf : mem.wf) (a k : Nat) : (mem.forget a k).wf :=
  List.Pairwise.filter _ wf

/-- Marking bytes unwritten keeps every listed byte inside DMEM. -/
theorem Memory.within_forget {mem : Memory} {size : Nat} (hw : mem.within size) (a k : Nat) :
    (mem.forget a k).within size :=
  fun c hc => hw c (List.mem_of_mem_filter hc)

end Sys2Proof.Machine
end

