-- ==== Sys2Proof/Laws/State.lean ====
section
/-! SUPPORT. What each update of State leaves in each field, so that no later proof unfolds a record update. -/

namespace Sys2Proof.Machine

/-! ## `setErr` -/

@[simp] theorem State.setErr_cfg (s : State) (c : ErrorCode) : (s.setErr c).cfg = s.cfg := rfl
@[simp] theorem State.setErr_res (s : State) (c : ErrorCode) : (s.setErr c).res = s.res := rfl
@[simp] theorem State.setErr_err (s : State) (c : ErrorCode) : (s.setErr c).err = c.number := rfl
@[simp] theorem State.setErr_src (s : State) (c : ErrorCode) : (s.setErr c).src = s.src := rfl
@[simp] theorem State.setErr_dst (s : State) (c : ErrorCode) : (s.setErr c).dst = s.dst := rfl
@[simp] theorem State.setErr_len (s : State) (c : ErrorCode) : (s.setErr c).len = s.len := rfl
@[simp] theorem State.setErr_t (s : State) (c : ErrorCode) : (s.setErr c).t = s.t := rfl
@[simp] theorem State.setErr_n (s : State) (c : ErrorCode) : (s.setErr c).n = s.n := rfl
@[simp] theorem State.setErr_m (s : State) (c : ErrorCode) : (s.setErr c).m = s.m := rfl
@[simp] theorem State.setErr_mem (s : State) (c : ErrorCode) : (s.setErr c).mem = s.mem := rfl
@[simp] theorem State.setErr_rng (s : State) (c : ErrorCode) : (s.setErr c).rng = s.rng := rfl
@[simp] theorem State.setErr_pending (s : State) (c : ErrorCode) : (s.setErr c).pending = s.pending := rfl
@[simp] theorem State.setErr_reply (s : State) (c : ErrorCode) : (s.setErr c).reply = s.reply := rfl

/-! ## `finish` -/

@[simp] theorem State.finish_cfg (s : State) : (s.finish).cfg = s.cfg := rfl
@[simp] theorem State.finish_res (s : State) : (s.finish).res = s.res := rfl
@[simp] theorem State.finish_err (s : State) : (s.finish).err = ErrorCode.ok.number := rfl
@[simp] theorem State.finish_src (s : State) : (s.finish).src = s.src := rfl
@[simp] theorem State.finish_dst (s : State) : (s.finish).dst = s.dst := rfl
@[simp] theorem State.finish_len (s : State) : (s.finish).len = s.len := rfl
@[simp] theorem State.finish_t (s : State) : (s.finish).t = s.t := rfl
@[simp] theorem State.finish_n (s : State) : (s.finish).n = s.n := rfl
@[simp] theorem State.finish_m (s : State) : (s.finish).m = s.m := rfl
@[simp] theorem State.finish_mem (s : State) : (s.finish).mem = s.mem := rfl
@[simp] theorem State.finish_rng (s : State) : (s.finish).rng = s.rng := rfl
@[simp] theorem State.finish_pending (s : State) : (s.finish).pending = s.pending := rfl
@[simp] theorem State.finish_reply (s : State) : (s.finish).reply = s.reply := rfl

/-! ## `raiseError` -/

@[simp] theorem State.raiseError_cfg (s : State) (c : ErrorCode) : (s.raiseError c).cfg = s.cfg := rfl
@[simp] theorem State.raiseError_res (s : State) (c : ErrorCode) : (s.raiseError c).res = s.res := rfl
@[simp] theorem State.raiseError_err (s : State) (c : ErrorCode) : (s.raiseError c).err = c.number := rfl
@[simp] theorem State.raiseError_src (s : State) (c : ErrorCode) : (s.raiseError c).src = s.src := rfl
@[simp] theorem State.raiseError_dst (s : State) (c : ErrorCode) : (s.raiseError c).dst = s.dst := rfl
@[simp] theorem State.raiseError_len (s : State) (c : ErrorCode) : (s.raiseError c).len = s.len := rfl
@[simp] theorem State.raiseError_t (s : State) (c : ErrorCode) : (s.raiseError c).t = s.t := rfl
@[simp] theorem State.raiseError_n (s : State) (c : ErrorCode) : (s.raiseError c).n = s.n := rfl
@[simp] theorem State.raiseError_m (s : State) (c : ErrorCode) : (s.raiseError c).m = s.m := rfl
@[simp] theorem State.raiseError_mem (s : State) (c : ErrorCode) : (s.raiseError c).mem = s.mem := rfl
@[simp] theorem State.raiseError_rng (s : State) (c : ErrorCode) : (s.raiseError c).rng = s.rng := rfl
@[simp] theorem State.raiseError_pending (s : State) (c : ErrorCode) : (s.raiseError c).pending = s.pending := rfl
@[simp] theorem State.raiseError_reply (s : State) (c : ErrorCode) : (s.raiseError c).reply = s.reply := rfl

/-! ## `setRes` -/

@[simp] theorem State.setRes_cfg (s : State) (v : Byte) : (s.setRes v).cfg = s.cfg := rfl
@[simp] theorem State.setRes_res (s : State) (v : Byte) : (s.setRes v).res = v := rfl
@[simp] theorem State.setRes_err (s : State) (v : Byte) : (s.setRes v).err = s.err := rfl
@[simp] theorem State.setRes_src (s : State) (v : Byte) : (s.setRes v).src = s.src := rfl
@[simp] theorem State.setRes_dst (s : State) (v : Byte) : (s.setRes v).dst = s.dst := rfl
@[simp] theorem State.setRes_len (s : State) (v : Byte) : (s.setRes v).len = s.len := rfl
@[simp] theorem State.setRes_t (s : State) (v : Byte) : (s.setRes v).t = s.t := rfl
@[simp] theorem State.setRes_n (s : State) (v : Byte) : (s.setRes v).n = s.n := rfl
@[simp] theorem State.setRes_m (s : State) (v : Byte) : (s.setRes v).m = s.m := rfl
@[simp] theorem State.setRes_mem (s : State) (v : Byte) : (s.setRes v).mem = s.mem := rfl
@[simp] theorem State.setRes_rng (s : State) (v : Byte) : (s.setRes v).rng = s.rng := rfl
@[simp] theorem State.setRes_pending (s : State) (v : Byte) : (s.setRes v).pending = s.pending := rfl
@[simp] theorem State.setRes_reply (s : State) (v : Byte) : (s.setRes v).reply = s.reply := rfl

/-! ## `setSrc` -/

@[simp] theorem State.setSrc_cfg (s : State) (v : Half) : (s.setSrc v).cfg = s.cfg := rfl
@[simp] theorem State.setSrc_res (s : State) (v : Half) : (s.setSrc v).res = s.res := rfl
@[simp] theorem State.setSrc_err (s : State) (v : Half) : (s.setSrc v).err = s.err := rfl
@[simp] theorem State.setSrc_src (s : State) (v : Half) : (s.setSrc v).src = v := rfl
@[simp] theorem State.setSrc_dst (s : State) (v : Half) : (s.setSrc v).dst = s.dst := rfl
@[simp] theorem State.setSrc_len (s : State) (v : Half) : (s.setSrc v).len = s.len := rfl
@[simp] theorem State.setSrc_t (s : State) (v : Half) : (s.setSrc v).t = s.t := rfl
@[simp] theorem State.setSrc_n (s : State) (v : Half) : (s.setSrc v).n = s.n := rfl
@[simp] theorem State.setSrc_m (s : State) (v : Half) : (s.setSrc v).m = s.m := rfl
@[simp] theorem State.setSrc_mem (s : State) (v : Half) : (s.setSrc v).mem = s.mem := rfl
@[simp] theorem State.setSrc_rng (s : State) (v : Half) : (s.setSrc v).rng = s.rng := rfl
@[simp] theorem State.setSrc_pending (s : State) (v : Half) : (s.setSrc v).pending = s.pending := rfl
@[simp] theorem State.setSrc_reply (s : State) (v : Half) : (s.setSrc v).reply = s.reply := rfl

/-! ## `setDst` -/

@[simp] theorem State.setDst_cfg (s : State) (v : Half) : (s.setDst v).cfg = s.cfg := rfl
@[simp] theorem State.setDst_res (s : State) (v : Half) : (s.setDst v).res = s.res := rfl
@[simp] theorem State.setDst_err (s : State) (v : Half) : (s.setDst v).err = s.err := rfl
@[simp] theorem State.setDst_src (s : State) (v : Half) : (s.setDst v).src = s.src := rfl
@[simp] theorem State.setDst_dst (s : State) (v : Half) : (s.setDst v).dst = v := rfl
@[simp] theorem State.setDst_len (s : State) (v : Half) : (s.setDst v).len = s.len := rfl
@[simp] theorem State.setDst_t (s : State) (v : Half) : (s.setDst v).t = s.t := rfl
@[simp] theorem State.setDst_n (s : State) (v : Half) : (s.setDst v).n = s.n := rfl
@[simp] theorem State.setDst_m (s : State) (v : Half) : (s.setDst v).m = s.m := rfl
@[simp] theorem State.setDst_mem (s : State) (v : Half) : (s.setDst v).mem = s.mem := rfl
@[simp] theorem State.setDst_rng (s : State) (v : Half) : (s.setDst v).rng = s.rng := rfl
@[simp] theorem State.setDst_pending (s : State) (v : Half) : (s.setDst v).pending = s.pending := rfl
@[simp] theorem State.setDst_reply (s : State) (v : Half) : (s.setDst v).reply = s.reply := rfl

/-! ## `setLen` -/

@[simp] theorem State.setLen_cfg (s : State) (v : Half) : (s.setLen v).cfg = s.cfg := rfl
@[simp] theorem State.setLen_res (s : State) (v : Half) : (s.setLen v).res = s.res := rfl
@[simp] theorem State.setLen_err (s : State) (v : Half) : (s.setLen v).err = s.err := rfl
@[simp] theorem State.setLen_src (s : State) (v : Half) : (s.setLen v).src = s.src := rfl
@[simp] theorem State.setLen_dst (s : State) (v : Half) : (s.setLen v).dst = s.dst := rfl
@[simp] theorem State.setLen_len (s : State) (v : Half) : (s.setLen v).len = v := rfl
@[simp] theorem State.setLen_t (s : State) (v : Half) : (s.setLen v).t = s.t := rfl
@[simp] theorem State.setLen_n (s : State) (v : Half) : (s.setLen v).n = s.n := rfl
@[simp] theorem State.setLen_m (s : State) (v : Half) : (s.setLen v).m = s.m := rfl
@[simp] theorem State.setLen_mem (s : State) (v : Half) : (s.setLen v).mem = s.mem := rfl
@[simp] theorem State.setLen_rng (s : State) (v : Half) : (s.setLen v).rng = s.rng := rfl
@[simp] theorem State.setLen_pending (s : State) (v : Half) : (s.setLen v).pending = s.pending := rfl
@[simp] theorem State.setLen_reply (s : State) (v : Half) : (s.setLen v).reply = s.reply := rfl

/-! ## `setTN` -/

@[simp] theorem State.setTN_cfg (s : State) (t n : Byte) : (s.setTN t n).cfg = s.cfg := rfl
@[simp] theorem State.setTN_res (s : State) (t n : Byte) : (s.setTN t n).res = s.res := rfl
@[simp] theorem State.setTN_err (s : State) (t n : Byte) : (s.setTN t n).err = s.err := rfl
@[simp] theorem State.setTN_src (s : State) (t n : Byte) : (s.setTN t n).src = s.src := rfl
@[simp] theorem State.setTN_dst (s : State) (t n : Byte) : (s.setTN t n).dst = s.dst := rfl
@[simp] theorem State.setTN_len (s : State) (t n : Byte) : (s.setTN t n).len = s.len := rfl
@[simp] theorem State.setTN_t (s : State) (t n : Byte) : (s.setTN t n).t = t := rfl
@[simp] theorem State.setTN_n (s : State) (t n : Byte) : (s.setTN t n).n = n := rfl
@[simp] theorem State.setTN_m (s : State) (t n : Byte) : (s.setTN t n).m = s.m := rfl
@[simp] theorem State.setTN_mem (s : State) (t n : Byte) : (s.setTN t n).mem = s.mem := rfl
@[simp] theorem State.setTN_rng (s : State) (t n : Byte) : (s.setTN t n).rng = s.rng := rfl
@[simp] theorem State.setTN_pending (s : State) (t n : Byte) : (s.setTN t n).pending = s.pending := rfl
@[simp] theorem State.setTN_reply (s : State) (t n : Byte) : (s.setTN t n).reply = s.reply := rfl

/-! ## `setM` -/

@[simp] theorem State.setM_cfg (s : State) (v : Byte) : (s.setM v).cfg = s.cfg := rfl
@[simp] theorem State.setM_res (s : State) (v : Byte) : (s.setM v).res = s.res := rfl
@[simp] theorem State.setM_err (s : State) (v : Byte) : (s.setM v).err = s.err := rfl
@[simp] theorem State.setM_src (s : State) (v : Byte) : (s.setM v).src = s.src := rfl
@[simp] theorem State.setM_dst (s : State) (v : Byte) : (s.setM v).dst = s.dst := rfl
@[simp] theorem State.setM_len (s : State) (v : Byte) : (s.setM v).len = s.len := rfl
@[simp] theorem State.setM_t (s : State) (v : Byte) : (s.setM v).t = s.t := rfl
@[simp] theorem State.setM_n (s : State) (v : Byte) : (s.setM v).n = s.n := rfl
@[simp] theorem State.setM_m (s : State) (v : Byte) : (s.setM v).m = v := rfl
@[simp] theorem State.setM_mem (s : State) (v : Byte) : (s.setM v).mem = s.mem := rfl
@[simp] theorem State.setM_rng (s : State) (v : Byte) : (s.setM v).rng = s.rng := rfl
@[simp] theorem State.setM_pending (s : State) (v : Byte) : (s.setM v).pending = s.pending := rfl
@[simp] theorem State.setM_reply (s : State) (v : Byte) : (s.setM v).reply = s.reply := rfl

/-! ## `setMem` -/

@[simp] theorem State.setMem_cfg (s : State) (v : Memory) : (s.setMem v).cfg = s.cfg := rfl
@[simp] theorem State.setMem_res (s : State) (v : Memory) : (s.setMem v).res = s.res := rfl
@[simp] theorem State.setMem_err (s : State) (v : Memory) : (s.setMem v).err = s.err := rfl
@[simp] theorem State.setMem_src (s : State) (v : Memory) : (s.setMem v).src = s.src := rfl
@[simp] theorem State.setMem_dst (s : State) (v : Memory) : (s.setMem v).dst = s.dst := rfl
@[simp] theorem State.setMem_len (s : State) (v : Memory) : (s.setMem v).len = s.len := rfl
@[simp] theorem State.setMem_t (s : State) (v : Memory) : (s.setMem v).t = s.t := rfl
@[simp] theorem State.setMem_n (s : State) (v : Memory) : (s.setMem v).n = s.n := rfl
@[simp] theorem State.setMem_m (s : State) (v : Memory) : (s.setMem v).m = s.m := rfl
@[simp] theorem State.setMem_mem (s : State) (v : Memory) : (s.setMem v).mem = v := rfl
@[simp] theorem State.setMem_rng (s : State) (v : Memory) : (s.setMem v).rng = s.rng := rfl
@[simp] theorem State.setMem_pending (s : State) (v : Memory) : (s.setMem v).pending = s.pending := rfl
@[simp] theorem State.setMem_reply (s : State) (v : Memory) : (s.setMem v).reply = s.reply := rfl

/-! ## `setRng` -/

@[simp] theorem State.setRng_cfg (s : State) (v : Provider) : (s.setRng v).cfg = s.cfg := rfl
@[simp] theorem State.setRng_res (s : State) (v : Provider) : (s.setRng v).res = s.res := rfl
@[simp] theorem State.setRng_err (s : State) (v : Provider) : (s.setRng v).err = s.err := rfl
@[simp] theorem State.setRng_src (s : State) (v : Provider) : (s.setRng v).src = s.src := rfl
@[simp] theorem State.setRng_dst (s : State) (v : Provider) : (s.setRng v).dst = s.dst := rfl
@[simp] theorem State.setRng_len (s : State) (v : Provider) : (s.setRng v).len = s.len := rfl
@[simp] theorem State.setRng_t (s : State) (v : Provider) : (s.setRng v).t = s.t := rfl
@[simp] theorem State.setRng_n (s : State) (v : Provider) : (s.setRng v).n = s.n := rfl
@[simp] theorem State.setRng_m (s : State) (v : Provider) : (s.setRng v).m = s.m := rfl
@[simp] theorem State.setRng_mem (s : State) (v : Provider) : (s.setRng v).mem = s.mem := rfl
@[simp] theorem State.setRng_rng (s : State) (v : Provider) : (s.setRng v).rng = v := rfl
@[simp] theorem State.setRng_pending (s : State) (v : Provider) : (s.setRng v).pending = s.pending := rfl
@[simp] theorem State.setRng_reply (s : State) (v : Provider) : (s.setRng v).reply = s.reply := rfl

/-! ## `setReply` -/

@[simp] theorem State.setReply_cfg (s : State) (r : Reply) : (s.setReply r).cfg = s.cfg := rfl
@[simp] theorem State.setReply_res (s : State) (r : Reply) : (s.setReply r).res = s.res := rfl
@[simp] theorem State.setReply_err (s : State) (r : Reply) : (s.setReply r).err = s.err := rfl
@[simp] theorem State.setReply_src (s : State) (r : Reply) : (s.setReply r).src = s.src := rfl
@[simp] theorem State.setReply_dst (s : State) (r : Reply) : (s.setReply r).dst = s.dst := rfl
@[simp] theorem State.setReply_len (s : State) (r : Reply) : (s.setReply r).len = s.len := rfl
@[simp] theorem State.setReply_t (s : State) (r : Reply) : (s.setReply r).t = s.t := rfl
@[simp] theorem State.setReply_n (s : State) (r : Reply) : (s.setReply r).n = s.n := rfl
@[simp] theorem State.setReply_m (s : State) (r : Reply) : (s.setReply r).m = s.m := rfl
@[simp] theorem State.setReply_mem (s : State) (r : Reply) : (s.setReply r).mem = s.mem := rfl
@[simp] theorem State.setReply_rng (s : State) (r : Reply) : (s.setReply r).rng = s.rng := rfl
@[simp] theorem State.setReply_pending (s : State) (r : Reply) : (s.setReply r).pending = s.pending := rfl
@[simp] theorem State.setReply_reply (s : State) (r : Reply) : (s.setReply r).reply = some r := rfl

/-! ## `resetRegisters` -/

@[simp] theorem State.resetRegisters_cfg (s : State) : (s.resetRegisters).cfg = s.cfg := rfl
@[simp] theorem State.resetRegisters_res (s : State) : (s.resetRegisters).res = 0x00#8 := rfl
@[simp] theorem State.resetRegisters_err (s : State) : (s.resetRegisters).err = 0x00#8 := rfl
@[simp] theorem State.resetRegisters_src (s : State) : (s.resetRegisters).src = 0x0000#16 := rfl
@[simp] theorem State.resetRegisters_dst (s : State) : (s.resetRegisters).dst = 0x0000#16 := rfl
@[simp] theorem State.resetRegisters_len (s : State) : (s.resetRegisters).len = 0x0000#16 := rfl
@[simp] theorem State.resetRegisters_t (s : State) : (s.resetRegisters).t = 0x00#8 := rfl
@[simp] theorem State.resetRegisters_n (s : State) : (s.resetRegisters).n = 0x00#8 := rfl
@[simp] theorem State.resetRegisters_m (s : State) : (s.resetRegisters).m = 0x00#8 := rfl
@[simp] theorem State.resetRegisters_mem (s : State) : (s.resetRegisters).mem = s.mem := rfl
@[simp] theorem State.resetRegisters_rng (s : State) : (s.resetRegisters).rng = s.rng := rfl
@[simp] theorem State.resetRegisters_pending (s : State) : (s.resetRegisters).pending = s.pending := rfl
@[simp] theorem State.resetRegisters_reply (s : State) : (s.resetRegisters).reply = s.reply := rfl

end Sys2Proof.Machine
end

