-- ==== Sys2Proof/Laws/Commands.lean ====
section
/-! SUPPORT. Everything each DMEM command can answer, said once: later proofs cite these cases and do not unfold the
meanings. -/

namespace Sys2Proof.Machine

/-- EVAL answers an error, faults on an unwritten coefficient, or writes RES. -/
theorem execEval_cases (x : Byte) (s : State) :
    (∃ code, evalCheck s = some code ∧ execEval x s = .next (s.raiseError code)) ∨
    (evalCheck s = none ∧ ∃ f, s.mem.readAll (coefficientRange s).addresses = .error f ∧ execEval x s = .fault f) ∨
    (evalCheck s = none ∧ ∃ c, s.mem.readAll (coefficientRange s).addresses = .ok c ∧
      execEval x s = .next (s.setRes (peval s.cfg.poly x c)).finish) := by
  unfold execEval
  cases hc : evalCheck s with
  | some code => exact .inl ⟨code, rfl, rfl⟩
  | none =>
    cases hr : s.mem.readAll (coefficientRange s).addresses with
    | error f => exact .inr (.inl ⟨rfl, f, rfl, rfl⟩)
    | ok c => exact .inr (.inr ⟨rfl, c, rfl, rfl⟩)

/-- SPLIT answers an error, faults on an unwritten secret byte, is stuck at a silent provider, or writes its share area
and takes its draws. -/
theorem execSplit_cases (s : State) :
    (∃ code, splitCheck s = some code ∧ execSplit s = .next (s.raiseError code)) ∨
    (splitCheck s = none ∧ ∃ f, s.mem.readAll (secretRange s).addresses = .error f ∧ execSplit s = .fault f) ∨
    (splitCheck s = none ∧ ¬ s.rng.Answers (splitDraws s) ∧ execSplit s = .fault .providerSilent) ∨
    (splitCheck s = none ∧ s.rng.Answers (splitDraws s) ∧
      ∃ secret, s.mem.readAll (secretRange s).addresses = .ok secret ∧ secret.length = s.len.toNat ∧
        execSplit s = .next ((s.setRng (s.rng.after (splitDraws s))).setMem
          (s.mem.writeBytes s.dst.toNat
            (shareAreaBytes s.cfg.poly (secret.mapIdx (splitPolynomial s)) s.n.toNat))).finish) := by
  cases hc : splitCheck s with
  | some code => exact .inl ⟨code, rfl, by simp only [execSplit, hc]⟩
  | none =>
    cases hr : s.mem.readAll (secretRange s).addresses with
    | error f => exact .inr (.inl ⟨rfl, f, rfl, by simp only [execSplit, hc, hr]⟩)
    | ok secret =>
      have hl : secret.length = s.len.toNat := by
        simpa [ByteRange.addresses, secretRange] using Memory.length_of_readAll hr
      by_cases ha : s.rng.Answers (splitDraws s)
      · have hd := drawPolynomials_of_answers (bs := secret) (k := s.t.toNat - 1) (r := s.rng) (by rw [hl]; exact ha)
        rw [hl] at hd
        refine .inr (.inr (.inr ⟨rfl, ha, secret, rfl, hl, ?_⟩))
        simp only [execSplit, hc, hr, hd]
        rfl
      · have hd := drawPolynomials_of_silent (bs := secret) (k := s.t.toNat - 1) (r := s.rng) (by rw [hl]; exact ha)
        exact .inr (.inr (.inl ⟨rfl, ha, by simp only [execSplit, hc, hr, hd]⟩))

/-- RECON answers an error before or after it reads the indices, faults on an unwritten byte, or writes its output. -/
theorem execRecon_cases (s : State) :
    (∃ code, reconCheck s = some code ∧ execRecon s = .next (s.raiseError code)) ∨
    (reconCheck s = none ∧ ∃ f, s.mem.readAll (indexAddresses s) = .error f ∧ execRecon s = .fault f) ∨
    (reconCheck s = none ∧ ∃ xs, s.mem.readAll (indexAddresses s) = .ok xs ∧ ¬ IndicesOk xs ∧
      execRecon s = .next (s.raiseError .share)) ∨
    (reconCheck s = none ∧ ∃ xs, s.mem.readAll (indexAddresses s) = .ok xs ∧ IndicesOk xs ∧
      ∃ f, s.mem.readRows (payloadAddresses s) = .error f ∧ execRecon s = .fault f) ∨
    (reconCheck s = none ∧ ∃ xs, s.mem.readAll (indexAddresses s) = .ok xs ∧ IndicesOk xs ∧
      ∃ payloads, s.mem.readRows (payloadAddresses s) = .ok payloads ∧
        execRecon s = .next (s.setMem (s.mem.writeBytes s.dst.toNat
          (recoverBytes s.cfg.poly xs payloads s.len.toNat))).finish) := by
  unfold execRecon
  cases hc : reconCheck s with
  | some code => exact .inl ⟨code, rfl, rfl⟩
  | none =>
    cases hr : s.mem.readAll (indexAddresses s) with
    | error f => exact .inr (.inl ⟨rfl, f, rfl, rfl⟩)
    | ok xs =>
      by_cases hx : IndicesOk xs
      · cases hp : s.mem.readRows (payloadAddresses s) with
        | error f =>
          refine .inr (.inr (.inr (.inl ⟨rfl, xs, rfl, hx, f, rfl, ?_⟩)))
          exact if_neg (not_not.2 hx)
        | ok payloads =>
          refine .inr (.inr (.inr (.inr ⟨rfl, xs, rfl, hx, payloads, rfl, ?_⟩)))
          exact if_neg (not_not.2 hx)
      · refine .inr (.inr (.inl ⟨rfl, xs, rfl, hx, ?_⟩))
        exact if_pos hx

/-- The codes of EVAL's checks. -/
theorem evalCheck_code {s : State} {code : ErrorCode} (h : evalCheck s = some code) :
    code = .param ∨ code = .range := by
  unfold evalCheck at h
  split at h
  · simp_all
  · split at h <;> simp_all

/-- The codes of SPLIT's checks. -/
theorem splitCheck_code {s : State} {code : ErrorCode} (h : splitCheck s = some code) :
    code = .param ∨ code = .range ∨ code = .overlap := by
  unfold splitCheck at h
  split at h
  · simp_all
  · split at h
    · simp_all
    · split at h <;> simp_all

/-- The codes of RECON's checks before its first read. -/
theorem reconCheck_code {s : State} {code : ErrorCode} (h : reconCheck s = some code) :
    code = .param ∨ code = .share ∨ code = .range ∨ code = .overlap := by
  unfold reconCheck at h
  split at h
  · simp_all
  · split at h
    · simp_all
    · split at h
      · simp_all
      · split at h <;> simp_all

/-- What passing EVAL's checks says (41_generator.md R125). -/
theorem evalCheck_eq_none_iff (s : State) :
    evalCheck s = none ↔ s.t ≠ 0x00#8 ∧ (coefficientRange s).Fits s.cfg.memSize := by
  unfold evalCheck
  split
  · simp_all
  · split <;> simp_all

/-- What passing SPLIT's checks says (41_generator.md R128). -/
theorem splitCheck_eq_none_iff (s : State) :
    splitCheck s = none ↔ (s.len ≠ 0x0000#16 ∧ s.t ≠ 0x00#8 ∧ s.t.toNat ≤ s.n.toNat) ∧
      ((secretRange s).Fits s.cfg.memSize ∧ (shareAreaRange s).Fits s.cfg.memSize) ∧
      ¬ (secretRange s).Overlaps (shareAreaRange s) := by
  by_cases hp : s.len = 0x0000#16 ∨ s.t = 0x00#8 ∨ s.n.toNat < s.t.toNat
  · rw [splitCheck, if_pos hp]
    refine iff_of_false (by simp) ?_
    rintro ⟨⟨h1, h2, h3⟩, -⟩
    rcases hp with h | h | h
    · exact h1 h
    · exact h2 h
    · omega
  · have hp' : s.len ≠ 0x0000#16 ∧ s.t ≠ 0x00#8 ∧ s.t.toNat ≤ s.n.toNat := by
      rw [not_or, not_or, Nat.not_lt] at hp
      exact hp
    rw [splitCheck, if_neg hp]
    by_cases hr : ¬ (secretRange s).Fits s.cfg.memSize ∨ ¬ (shareAreaRange s).Fits s.cfg.memSize
    · rw [if_pos hr]
      exact iff_of_false (by simp) fun h => hr.elim (fun k => k h.2.1.1) fun k => k h.2.1.2
    · rw [if_neg hr]
      have hr' := not_or.1 hr
      by_cases ho : (secretRange s).Overlaps (shareAreaRange s)
      · rw [if_pos ho]
        exact iff_of_false (by simp) fun h => h.2.2 ho
      · rw [if_neg ho]
        exact iff_of_true rfl ⟨hp', ⟨not_not.1 hr'.1, not_not.1 hr'.2⟩, ho⟩

/-- What passing RECON's first checks says (42_interpolator.md R141). -/
theorem reconCheck_eq_none_iff (s : State) :
    reconCheck s = none ↔ (s.len ≠ 0x0000#16 ∧ s.m ≠ 0x00#8) ∧
      ((shareSetRange s).Fits s.cfg.memSize ∧ (outputRange s).Fits s.cfg.memSize) ∧
      ¬ (shareSetRange s).Overlaps (outputRange s) := by
  by_cases hl : s.len = 0x0000#16
  · rw [reconCheck, if_pos hl]
    exact iff_of_false (by simp) fun h => h.1.1 hl
  · rw [reconCheck, if_neg hl]
    by_cases hm : s.m = 0x00#8
    · rw [if_pos hm]
      exact iff_of_false (by simp) fun h => h.1.2 hm
    · rw [if_neg hm]
      by_cases hr : ¬ (shareSetRange s).Fits s.cfg.memSize ∨ ¬ (outputRange s).Fits s.cfg.memSize
      · rw [if_pos hr]
        exact iff_of_false (by simp) fun h => hr.elim (fun k => k h.2.1.1) fun k => k h.2.1.2
      · rw [if_neg hr]
        have hr' := not_or.1 hr
        by_cases ho : (shareSetRange s).Overlaps (outputRange s)
        · rw [if_pos ho]
          exact iff_of_false (by simp) fun h => h.2.2 ho
        · rw [if_neg ho]
          exact iff_of_true rfl ⟨⟨hl, hm⟩, ⟨not_not.1 hr'.1, not_not.1 hr'.2⟩, ho⟩

/-- SPLIT's checks pass exactly in the states that `SplitReady` describes. -/
theorem splitCheck_eq_none_iff_ready (s : State) : splitCheck s = none ↔ SplitReady s :=
  splitCheck_eq_none_iff s

/-- RECON's first checks pass exactly in the states that `ReconReady` describes. -/
theorem reconCheck_eq_none_iff_ready (s : State) : reconCheck s = none ↔ ReconReady s := by
  rw [reconCheck_eq_none_iff]
  simp only [ReconReady, ReconInRange, ReconOverlap, shareSetRange, outputRange, ByteRange.Fits, ByteRange.Overlaps,
    shareSize]
  tauto

end Sys2Proof.Machine
end

