-- ==== Sys2Proof/Laws/Encoding.lean ====
section
/-! SUPPORT. The fields of a word built in each format (30_encoding.md R71): what the encoder writes is what the decoder's
field functions read. -/

namespace Sys2Proof

@[simp] theorem fieldOP_formatB (op a b : Byte) : fieldOP (formatB op a b) = op := by
  ext i hi
  simp only [fieldOP, formatB, BitVec.getElem_extractLsb', BitVec.getLsbD_append]
  grind

@[simp] theorem fieldA_formatB (op a b : Byte) : fieldA (formatB op a b) = a := by
  ext i hi
  simp only [fieldA, formatB, BitVec.getElem_extractLsb', BitVec.getLsbD_append]
  grind

@[simp] theorem fieldB_formatB (op a b : Byte) : fieldB (formatB op a b) = b := by
  ext i hi
  simp only [fieldB, formatB, BitVec.getElem_extractLsb', BitVec.getLsbD_append]
  grind

@[simp] theorem zero_formatB (op a b : Byte) : (formatB op a b).extractLsb' 0 8 = 0x00#8 := by
  ext i hi
  simp only [formatB, BitVec.getElem_extractLsb', BitVec.getLsbD_append]
  grind

@[simp] theorem fieldOP_formatU (op a : Byte) : fieldOP (formatU op a) = op := by
  ext i hi
  simp only [fieldOP, formatU, BitVec.getElem_extractLsb', BitVec.getLsbD_append]
  grind

@[simp] theorem fieldA_formatU (op a : Byte) : fieldA (formatU op a) = a := by
  ext i hi
  simp only [fieldA, formatU, BitVec.getElem_extractLsb', BitVec.getLsbD_append]
  grind

@[simp] theorem zero_formatU (op a : Byte) : (formatU op a).extractLsb' 0 16 = 0x0000#16 := by
  ext i hi
  simp only [formatU, BitVec.getElem_extractLsb', BitVec.getLsbD_append]
  grind

@[simp] theorem fieldOP_formatI (op : Byte) (imm : Half) : fieldOP (formatI op imm) = op := by
  ext i hi
  simp only [fieldOP, formatI, BitVec.getElem_extractLsb', BitVec.getLsbD_append]
  grind

@[simp] theorem fieldIMM_formatI (op : Byte) (imm : Half) : fieldIMM (formatI op imm) = imm := by
  ext i hi
  simp only [fieldIMM, formatI, BitVec.getElem_extractLsb', BitVec.getLsbD_append]
  grind

@[simp] theorem zero_formatI (op : Byte) (imm : Half) : (formatI op imm).extractLsb' 16 8 = 0x00#8 := by
  ext i hi
  simp only [formatI, BitVec.getElem_extractLsb', BitVec.getLsbD_append]
  grind

@[simp] theorem fieldOP_formatN (op : Byte) : fieldOP (formatN op) = op := by
  ext i hi
  simp only [fieldOP, formatN, BitVec.getElem_extractLsb', BitVec.getLsbD_append]
  grind

@[simp] theorem zero_formatN (op : Byte) : (formatN op).extractLsb' 0 24 = 0x000000#24 := by
  ext i hi
  simp only [formatN, BitVec.getElem_extractLsb', BitVec.getLsbD_append]
  grind

end Sys2Proof
end

