-- ==== Sys2Proof/Laws/PerInstr.lean ====
section
/-! SUPPORT. Facts about every command as syntax, one lemma per constructor of `Instr`. Family `OpcodeByte`: the word of a
command carries its row's OP byte (30_encoding.md R73). -/

namespace Sys2Proof.Laws.OpcodeByte

/-- The OP byte of each mnemonic's row (R73). -/
def opcodeOf : Instr → Byte
  | .gadd _ _ => 0x01#8
  | .gmul _ _ => 0x02#8
  | .ginv _ => 0x03#8
  | .gpow _ _ => 0x04#8
  | .setsrc _ => 0x10#8
  | .setdst _ => 0x11#8
  | .setlen _ => 0x12#8
  | .settn _ _ => 0x13#8
  | .setm _ => 0x14#8
  | .eval _ => 0x20#8
  | .split => 0x21#8
  | .recon => 0x30#8

/-- `OP = w[31:24]` of the encoded command is its row's OP. -/
def Statement (i : Instr) : Prop := fieldOP (encode i) = opcodeOf i

theorem gadd (a b : Byte) : Statement (.gadd a b) := fieldOP_formatB _ a b
theorem gmul (a b : Byte) : Statement (.gmul a b) := fieldOP_formatB _ a b
theorem ginv (a : Byte) : Statement (.ginv a) := fieldOP_formatU _ a
theorem gpow (a n : Byte) : Statement (.gpow a n) := fieldOP_formatB _ a n
theorem setsrc (addr : Half) : Statement (.setsrc addr) := fieldOP_formatI _ addr
theorem setdst (addr : Half) : Statement (.setdst addr) := fieldOP_formatI _ addr
theorem setlen (len : Half) : Statement (.setlen len) := fieldOP_formatI _ len
theorem settn (t n : Byte) : Statement (.settn t n) := fieldOP_formatB _ t n
theorem setm (m : Byte) : Statement (.setm m) := fieldOP_formatU _ m
theorem eval (x : Byte) : Statement (.eval x) := fieldOP_formatU _ x
theorem split : Statement .split := fieldOP_formatN _
theorem recon : Statement .recon := fieldOP_formatN _

end Sys2Proof.Laws.OpcodeByte
end

