-- ==== Sys2Proof/Laws/Step.lean ====
section
/-! SUPPORT. Everything one command and one step can do when the machine goes on, said once. -/

namespace Sys2Proof.Machine

/-- A command that goes on raised one of its errors, or wrote RES, one parameter register, its share area or its
output. -/
theorem exec_next_cases {i : Instr} {s t : State} (h : exec i s = .next t) :
    (∃ code ∈ codesOf i, t = s.raiseError code) ∨
    (∃ v, storedRange i s = { base := 0, size := 0 } ∧ t = (s.setRes v).finish) ∨
    (∃ v, i = .setsrc v ∧ t = (s.setSrc v).finish) ∨
    (∃ v, i = .setdst v ∧ t = (s.setDst v).finish) ∨
    (∃ v, i = .setlen v ∧ t = (s.setLen v).finish) ∨
    (∃ a b, i = .settn a b ∧ t = (s.setTN a b).finish) ∨
    (∃ v, i = .setm v ∧ t = (s.setM v).finish) ∨
    (i = .split ∧ splitCheck s = none ∧ ∃ bs, bs.length = (shareAreaRange s).size ∧
      t = ((s.setRng (s.rng.after (splitDraws s))).setMem (s.mem.writeBytes s.dst.toNat bs)).finish) ∨
    (i = .recon ∧ reconCheck s = none ∧ ∃ bs, bs.length = (outputRange s).size ∧
      t = (s.setMem (s.mem.writeBytes s.dst.toNat bs)).finish) := by
  have hres : ∀ v, answerRes v s = .next t → storedRange i s = { base := 0, size := 0 } →
      ∃ v, storedRange i s = { base := 0, size := 0 } ∧ t = (s.setRes v).finish := fun v hv hst =>
    ⟨v, hst, (Host.Outcome.next.inj hv).symm⟩
  cases i with
  | gadd a b => exact .inr (.inl (hres _ h rfl))
  | gmul a b => exact .inr (.inl (hres _ h rfl))
  | ginv a =>
    simp only [exec, execGinv] at h
    split at h
    · exact .inl ⟨.invZero, by simp [codesOf], (Host.Outcome.next.inj h).symm⟩
    · exact .inr (.inl (hres _ h rfl))
  | gpow a n => exact .inr (.inl (hres _ h rfl))
  | setsrc v => exact .inr (.inr (.inl ⟨v, rfl, (Host.Outcome.next.inj h).symm⟩))
  | setdst v => exact .inr (.inr (.inr (.inl ⟨v, rfl, (Host.Outcome.next.inj h).symm⟩)))
  | setlen v => exact .inr (.inr (.inr (.inr (.inl ⟨v, rfl, (Host.Outcome.next.inj h).symm⟩))))
  | settn a b => exact .inr (.inr (.inr (.inr (.inr (.inl ⟨a, b, rfl, (Host.Outcome.next.inj h).symm⟩)))))
  | setm v => exact .inr (.inr (.inr (.inr (.inr (.inr (.inl ⟨v, rfl, (Host.Outcome.next.inj h).symm⟩))))))
  | eval x =>
    rcases execEval_cases x s with ⟨code, hc, he⟩ | ⟨-, f, -, he⟩ | ⟨-, c, -, he⟩
    · refine .inl ⟨code, ?_, (Host.Outcome.next.inj (he.symm.trans h)).symm⟩
      rcases evalCheck_code hc with rfl | rfl <;> simp [codesOf]
    · exact absurd (he.symm.trans h) (by simp)
    · exact .inr (.inl ⟨_, rfl, (Host.Outcome.next.inj (he.symm.trans h)).symm⟩)
  | split =>
    rcases execSplit_cases s with ⟨code, hc, he⟩ | ⟨-, f, -, he⟩ | ⟨-, -, he⟩ | ⟨hc, -, secret, -, hl, he⟩
    · refine .inl ⟨code, ?_, (Host.Outcome.next.inj (he.symm.trans h)).symm⟩
      rcases splitCheck_code hc with rfl | rfl | rfl <;> simp [codesOf]
    · exact absurd (he.symm.trans h) (by simp)
    · exact absurd (he.symm.trans h) (by simp)
    · refine .inr (.inr (.inr (.inr (.inr (.inr (.inr (.inl ⟨rfl, hc, _, ?_,
        (Host.Outcome.next.inj (he.symm.trans h)).symm⟩)))))))
      rw [length_shareAreaBytes, List.length_mapIdx, hl]
      rfl
  | recon =>
    rcases execRecon_cases s with ⟨code, hc, he⟩ | ⟨-, f, -, he⟩ | ⟨-, xs, -, -, he⟩ | ⟨-, xs, -, -, f, -, he⟩ |
      ⟨hc, xs, -, -, payloads, -, he⟩
    · refine .inl ⟨code, ?_, (Host.Outcome.next.inj (he.symm.trans h)).symm⟩
      rcases reconCheck_code hc with rfl | rfl | rfl | rfl <;> simp [codesOf]
    · exact absurd (he.symm.trans h) (by simp)
    · exact .inl ⟨.share, by simp [codesOf], (Host.Outcome.next.inj (he.symm.trans h)).symm⟩
    · exact absurd (he.symm.trans h) (by simp)
    · refine .inr (.inr (.inr (.inr (.inr (.inr (.inr (.inr ⟨rfl, hc, _, ?_,
        (Host.Outcome.next.inj (he.symm.trans h)).symm⟩)))))))
      exact length_recoverBytes ..

/-- A step that goes on was idle or performed the oldest pending transaction. -/
theorem step_next_cases {s t : State} (h : step s = .next t) :
    (s.pending = [] ∧ t = s) ∨
    ∃ tr rest, s.pending = tr :: rest ∧ transact tr { s with pending := rest, reply := none } = .next t := by
  unfold step serve at h
  cases hp : s.pending with
  | nil =>
    rw [hp] at h
    exact .inl ⟨rfl, (Host.Outcome.next.inj h).symm⟩
  | cons tr rest =>
    rw [hp] at h
    exact .inr ⟨tr, rest, rfl, h⟩

/-- Every number of a code is at most 6 (60_exceptions.md R180). -/
theorem ErrorCode.number_le (c : ErrorCode) : c.number.toNat ≤ 6 := by cases c <;> decide

end Sys2Proof.Machine
end

