-- ==== Sys2Proof/Tests/Slice0.lean ====
section
/-! SUPPORT. Tests of the model against the words and vectors that spec/95_test_vectors.md and the encoding rules write out, and,
for every obligation with hypotheses, a witness that meets them. Test numbers (V-…) are those of 95_test_vectors.md. -/

namespace Sys2Proof.Tests

open Sys2Proof Sys2Proof.Machine

/-! ## Small states -/

/-- The next state of an outcome. -/
def nextOf : Host.Outcome State Fault Refusal → Option State
  | .next s => some s
  | .fault _ => none
  | .refused _ => none

/-- The fault of an outcome. -/
def faultOf : Host.Outcome State Fault Refusal → Option Fault
  | .next _ => none
  | .fault f => some f
  | .refused _ => none

/-- The refusal of an outcome. -/
def refusalOf : Host.Outcome State Fault Refusal → Option Refusal
  | .next _ => none
  | .fault _ => none
  | .refused r => some r

/-- The state after an outcome that goes on. -/
def after (o : Host.Outcome State Fault Refusal) : State := (nextOf o).getD State.reset

theorem eq_next_after {o : Host.Outcome State Fault Refusal} (h : (nextOf o).isSome) : o = .next (after o) := by
  cases o <;> simp_all [nextOf, after]

theorem eq_fault_of {o : Host.Outcome State Fault Refusal} {f : Fault} (h : faultOf o = some f) : o = .fault f := by
  cases o <;> simp_all [faultOf]

/-- The instance with `POLY = 0x11D`. -/
def cfgD : Config := { poly := 0x11D#9, memSize := 65536 }

/-- A small instance. -/
def cfgSmall : Config := { poly := 0x11B#9, memSize := 256 }

/-- Any state with RES = 0x99 and a command pending. -/
def issuing (w : Word) : State := { State.reset with res := 0x99#8, src := 0x1234#16, pending := [.regWrite 0 w] }

/-- EVAL's start state (V-EVAL-1). -/
def evalState (c : Config) : State :=
  { State.powerOn c with mem := [(0, 0x41#8), (1, 0x11#8), (2, 0x22#8)], t := 0x03#8 }

/-- SPLIT's start state (V-SPLIT-1). -/
def splitState (c : Config) : State :=
  { State.powerOn c with
    mem := [(0, 0x41#8), (1, 0x42#8)], len := 0x0002#16, dst := 0x0100#16, t := 0x03#8, n := 0x05#8, res := 0x99#8,
    rng := { ready := [0x11#8, 0x22#8, 0x33#8, 0x44#8], live := false, drawn := 0 } }

/-- Two shares of one byte, as V-SPLIT-3 makes them. -/
def splitSmall : State :=
  { State.reset with
    mem := [(0, 0x00#8)], len := 0x0001#16, dst := 0x0100#16, t := 0x02#8, n := 0x02#8,
    rng := { ready := [0xFF#8], live := false, drawn := 0 } }

/-- A split that draws nothing (V-SPLIT-5). -/
def splitPlain : State :=
  { State.reset with mem := [(0, 0x7E#8)], len := 0x0001#16, dst := 0x0001#16, t := 0x01#8, n := 0x01#8 }

/-- RECON's start state: shares 1 to 3 of V-SPLIT-1 under 0x11B. -/
def reconState : State :=
  { State.reset with
    mem := [(0x100, 0x01#8), (0x101, 0x72#8), (0x102, 0x35#8), (0x103, 0x02#8), (0x104, 0xEB#8), (0x105, 0x2F#8),
      (0x106, 0x03#8), (0x107, 0xD8#8), (0x108, 0x58#8)],
    src := 0x0100#16, dst := 0x0200#16, len := 0x0002#16, m := 0x03#8, res := 0x99#8 }

/-- One share (V-RECON-T1). -/
def reconOne : State :=
  { State.reset with
    mem := [(0x100, 0x02#8), (0x101, 0xDE#8), (0x102, 0xAD#8)], src := 0x0100#16, dst := 0x0200#16, len := 0x0002#16,
    m := 0x01#8 }

/-- Two shares of one byte (V-RECON-X), in either order. -/
def reconTwo (x0 y0 x1 y1 : Byte) : State :=
  { State.reset with
    mem := [(0x400, x0), (0x401, y0), (0x402, x1), (0x403, y1)], src := 0x0400#16, dst := 0x0500#16, len := 0x0001#16,
    m := 0x02#8 }

/-- Bytes of DMEM after an outcome. -/
def bytesAfter (o : Host.Outcome State Fault Refusal) (a k : Nat) : List (Option Byte) :=
  (List.range' a k).map (after o).mem.read

/-! ## Well-formedness: ill-formed terms are refused (R7, R8, R9, R79) -/

theorem test_config_reducible_poly_refused : ¬ Config.Legal { poly := 0x11A#9, memSize := 65536 } := by decide
theorem test_config_low_degree_refused : ¬ Config.Legal { poly := 0x01B#9, memSize := 65536 } := by decide
theorem test_config_empty_memory_refused : ¬ Config.Legal { poly := 0x11B#9, memSize := 0 } := by decide
theorem test_config_large_memory_refused : ¬ Config.Legal { poly := 0x11B#9, memSize := 65537 } := by decide
theorem test_config_reference_accepted : Config.reference.Legal ∧ cfgD.Legal ∧ cfgSmall.Legal := by decide

theorem test_source_byte_too_large_refused : SourceCommand.wf { mnemonic := .gadd, operands := [0x53, 256] } = false := by
  decide
theorem test_source_half_too_large_refused : SourceCommand.wf { mnemonic := .setsrc, operands := [65536] } = false := by
  decide
theorem test_source_missing_operand_refused : SourceCommand.wf { mnemonic := .settn, operands := [3] } = false := by
  decide
theorem test_source_extra_operand_refused : SourceCommand.wf { mnemonic := .split, operands := [0] } = false := by decide
theorem test_source_accepted :
    SourceCommand.wf { mnemonic := .gadd, operands := [255, 0] } = true ∧
      SourceCommand.wf { mnemonic := .setlen, operands := [65535] } = true := by decide

/-! ## Decoding: words written out field by field from R71 and R73 -/

theorem test_decode_gadd : decode (0b00000001_01010011_11001010_00000000#32) = some (.gadd 0x53#8 0xCA#8) := by decide
theorem test_decode_gmul : decode (0b00000010_01010111_10000011_00000000#32) = some (.gmul 0x57#8 0x83#8) := by decide
theorem test_decode_ginv : decode (0b00000011_01010011_00000000_00000000#32) = some (.ginv 0x53#8) := by decide
theorem test_decode_gpow : decode (0b00000100_00000010_11111110_00000000#32) = some (.gpow 0x02#8 0xFE#8) := by decide
theorem test_decode_setsrc : decode (0b00010000_00000000_00000001_00000000#32) = some (.setsrc 0x0100#16) := by decide
theorem test_decode_setdst : decode (0b00010001_00000000_00000010_00000000#32) = some (.setdst 0x0200#16) := by decide
theorem test_decode_setlen : decode (0b00010010_00000000_00000000_00000010#32) = some (.setlen 0x0002#16) := by decide
theorem test_decode_settn : decode (0b00010011_00000011_00000101_00000000#32) = some (.settn 0x03#8 0x05#8) := by decide
theorem test_decode_setm : decode (0b00010100_00000011_00000000_00000000#32) = some (.setm 0x03#8) := by decide
theorem test_decode_eval : decode (0b00100000_00000101_00000000_00000000#32) = some (.eval 0x05#8) := by decide
theorem test_decode_split : decode (0b00100001_00000000_00000000_00000000#32) = some .split := by decide
theorem test_decode_recon : decode (0b00110000_00000000_00000000_00000000#32) = some .recon := by decide
theorem test_decode_zero_word_illegal : decode 0x00000000#32 = none := by decide
theorem test_decode_must_be_zero_field_illegal :
    decode 0x0153CA01#32 = none ∧ decode 0x03000100#32 = none ∧ decode 0x10010000#32 = none ∧
      decode 0x30800000#32 = none := by decide
theorem test_decode_table_word : decodeTableWord 32 0x13030500 = some (.settn 0x03#8 0x05#8) := by decide

/-! ## Commands -/

theorem test_gadd : (after (exec (.gadd 0x53#8 0xCA#8) State.reset)).res = 0x99#8 := by decide
theorem test_gmul_11B : (after (exec (.gmul 0x80#8 0x80#8) State.reset)).res = 0x9A#8 := by decide +kernel
theorem test_gmul_11D : (after (exec (.gmul 0x80#8 0x80#8) (State.powerOn cfgD))).res = 0x13#8 := by decide +kernel
theorem test_ginv : (after (exec (.ginv 0x83#8) (State.powerOn cfgD))).res = 0x1D#8 := by decide +kernel
theorem test_ginv_zero :
    nextOf (exec (.ginv 0x00#8) (evalState cfgD)) = some { evalState cfgD with err := 0x02#8 } := by decide
theorem test_gpow_zero_to_zero : (after (exec (.gpow 0x00#8 0x00#8) State.reset)).res = 0x01#8 := by decide
theorem test_gpow : (after (exec (.gpow 0x02#8 0x33#8) (State.powerOn cfgD))).res = 0x0A#8 := by decide +kernel
theorem test_setsrc : (after (exec (.setsrc 0xFFFF#16) State.reset)).src = 0xFFFF#16 := by decide
theorem test_setdst : (after (exec (.setdst 0x0200#16) State.reset)).dst = 0x0200#16 := by decide
theorem test_setlen : (after (exec (.setlen 0x0002#16) State.reset)).len = 0x0002#16 := by decide
theorem test_settn_threshold_first : registerRead (after (exec (.settn 0x03#8 0x05#8) State.reset)) 6 = 0x00000503#32 := by
  decide
theorem test_setm_clears_error :
    nextOf (exec (.setm 0x01#8) { State.reset with err := 0x02#8 }) = some { State.reset with m := 0x01#8 } := by decide
theorem test_eval_11B : (after (exec (.eval 0x04#8) (evalState Config.reference))).res = 0x13#8 := by decide +kernel
theorem test_eval_11D : (after (exec (.eval 0xFF#8) (evalState cfgD))).res = 0x3D#8 := by decide +kernel

/-- V-SPLIT-1 under 0x11D. -/
theorem test_split_11D :
    bytesAfter (exec .split (splitState cfgD)) 0xFF 17 =
      none :: ([0x01#8, 0x72#8, 0x35#8, 0x02#8, 0xEB#8, 0x29#8, 0x03#8, 0xD8#8, 0x5E#8, 0x04#8, 0x1F#8, 0xBA#8, 0x05#8,
        0x2C#8, 0xCD#8].map some) ++ [none] := by decide +kernel

/-- V-SPLIT-E8, E12: the first failed check gives the code, and nothing else changes. -/
theorem test_split_errors :
    nextOf (exec .split { splitState cfgD with dst := 0x0001#16 }) =
        some { splitState cfgD with dst := 0x0001#16, err := 0x05#8 } ∧
      (after (exec .split { splitState cfgD with src := 0xFFFF#16, dst := 0xFFFE#16, t := 0x01#8, n := 0x01#8 })).err =
        0x04#8 := by decide +kernel

/-- V-RECON-X under 0x11B. -/
theorem test_recon : bytesAfter (exec .recon (reconTwo 0x10#8 0xAA#8 0x20#8 0xBB#8)) 0x500 1 = [some 0xA5#8] := by
  decide +kernel

/-- V-RECON-E5, E6, E12: zero index, equal indices, and the range check before either. -/
theorem test_recon_errors :
    (after (exec .recon (reconTwo 0x10#8 0xAA#8 0x00#8 0xBB#8))).err = 0x06#8 ∧
      (after (exec .recon (reconTwo 0x10#8 0xAA#8 0x10#8 0xBB#8))).err = 0x06#8 ∧
      (after (exec .recon { reconTwo 0x10#8 0xAA#8 0x00#8 0xBB#8 with src := 0xFFFD#16 })).err = 0x04#8 := by
  decide +kernel

/-! ## Faults and refusals (R201) -/

/-- V-EVAL-16. -/
theorem test_eval_unwritten :
    faultOf (exec (.eval 0x01#8) { evalState cfgD with mem := [(0, 0x41#8), (1, 0x11#8)] }) = some (.unwrittenByte 2) := by
  decide

/-- V-SPLIT-U. -/
theorem test_split_unwritten :
    faultOf (exec .split { splitState cfgD with mem := [(0, 0x41#8)] }) = some (.unwrittenByte 1) := by decide +kernel

/-- V-RECON-U: shares 1 and 3 have their indices, share 2 lacks its last byte. -/
theorem test_recon_unwritten :
    faultOf (exec .recon { reconState with mem := reconState.mem.filter fun c => c.1 ≠ 0x105 }) =
      some (.unwrittenByte 0x105) := by decide +kernel

theorem test_split_silent_provider :
    faultOf (exec .split { splitSmall with rng := { ready := [], live := false, drawn := 0 } }) = some .providerSilent := by
  decide +kernel

/-- V-RESET-2. -/
theorem test_host_read_unwritten :
    faultOf (step { State.reset with pending := [.hostMemRead 0x0000#16] }) = some (.unwrittenByte 0) := by decide

theorem test_bus_narrow_write_refused :
    refusalOf (step { State.reset with pending := [.busWrite 0 [0x00#8, 0x00#8]] }) = some (.notATransaction 0 2) ∧
      refusalOf (step { State.reset with pending := [.busRead 64 4] }) = some (.notATransaction 64 4) := by decide

/-! ## Ports and reset -/

/-- V-ILL-5: `GINV 0x00` with a non-zero Z field is illegal, and only STATUS changes. -/
theorem test_illegal_word :
    nextOf (step (issuing 0x03000100#32)) = some { issuing 0x03000100#32 with pending := [], err := 0x01#8 } := by decide

/-- A command word on the little-endian byte bus: `SETTN 3, 5`. -/
theorem test_bus_write_issues :
    (after (step { State.reset with pending := [.busWrite 0 [0x00#8, 0x05#8, 0x03#8, 0x13#8]] })).n = 0x05#8 := by decide

theorem test_bus_read_id :
    (after (step { State.reset with pending := [.busRead 36 4] })).reply =
      some (.bus [0x01#8, 0x38#8, 0x46#8, 0x47#8]) := by decide

/-- V-RESET-1. -/
theorem test_reset_register_reads :
    registerRead State.reset 8 = 0x0000011B#32 ∧ registerRead State.reset 10 = 0x00010000#32 ∧
      registerRead State.reset 6 = 0x00000000#32 ∧ registerRead State.reset 15 = 0x00000000#32 := by decide

/-- V-RESET-4. -/
theorem test_write_to_status_does_nothing :
    nextOf (step { splitSmall with pending := [.regWrite 1 0x21000000#32] }) = some splitSmall := by decide

/-- Host memory writes keep addresses rising and replace a byte. -/
theorem test_host_memory_write :
    (after (step { splitSmall with pending := [.hostMemWrite 0x0000#16 0x5A#8] })).mem = [(0, 0x5A#8)] ∧
      (after (step { State.powerOn cfgSmall with pending := [.hostMemWrite 0x0100#16 0x5A#8] })).mem = [] := by decide

/-- A RECON abandoned by reset leaves its output unwritten and its share set alone (R212). -/
theorem test_reset_during_recon :
    (after (step { reconOne with mem := reconOne.mem ++ [(0x201, 0x11#8)], pending := [.resetDuring 0x30000000#32 0] })).mem
      = reconOne.mem := by decide

/-! ## Assembler (R79, R81, R82) -/

theorem test_assemble_refuses_large_literal :
    assembleLine ['S', 'E', 'T', 'M', ' ', '2', '5', '6'] = none := by decide
theorem test_assemble_pseudo :
    assembleLine ['G', 'S', 'Q', 'R', ' ', '0', 'x', '1', '0'] = some 0x02101000#32 := by decide
theorem test_disassemble :
    disassemble 0x13030500#32 = ['S', 'E', 'T', 'T', 'N', ' ', '0', 'x', '0', '3', ',', ' ', '0', 'x', '0', '5'] := by
  decide

/-! ## Witnesses: states and operands that meet the hypotheses of an obligation -/

theorem witness_DecodeAndEncodeAgree : decode 0x13030500#32 = some (.settn 0x03#8 0x05#8) := by decide

theorem witness_DecodeSelectsTheTableRow :
    decode 0x14030000#32 = some (.setm 0x03#8) ∧ decode 0x14030001#32 = none ∧
      ∃ row ∈ opcodeTable, 0x14030000#32 &&& row.mask = row.pattern := by decide

theorem witness_IllegalWordOnlySetsStatus :
    (issuing 0xFFFFFFFF#32).pending = [.regWrite 0 0xFFFFFFFF#32] ∧ decode 0xFFFFFFFF#32 = none := by decide

theorem witness_StepRunsTheIssuedCommand :
    (issuing 0x0153CA00#32).pending = [.regWrite 0 0x0153CA00#32] ∧
      decode 0x0153CA00#32 = some (.gadd 0x53#8 0xCA#8) := by decide

/-- The degrees 3 and 4 meet their bound 7. -/
theorem witness_GmulResult :
    State.reset.cfg.Legal ∧ 0x0F#8 ≠ 0x00#8 ∧ 0x1F#8 ≠ 0x00#8 ∧ (0x0F#8).toNat < 2 ^ (3 + 1) ∧
      (0x1F#8).toNat < 2 ^ (4 + 1) ∧ 3 + 4 < 8 := by decide

theorem witness_GinvResult : (State.powerOn cfgD).cfg.Legal ∧ 0x53#8 ≠ 0x00#8 := by decide

theorem witness_GpowResult : (State.powerOn cfgD).cfg.Legal ∧ 0x02#8 ≠ 0x00#8 ∧ 0xFF#8 ≠ 0x00#8 := by decide

theorem witness_FieldCommandsArePure :
    (∃ a b, Instr.ginv 0x00#8 = .gadd a b ∨ Instr.ginv 0x00#8 = .gmul a b ∨ Instr.ginv 0x00#8 = .gpow a b ∨
      Instr.ginv 0x00#8 = .ginv a) ∧ State.reset.cfg.poly = 0x11B#9 :=
  ⟨⟨0x00#8, 0x00#8, .inr (.inr (.inr rfl))⟩, rfl⟩

theorem witness_MultiplicationLaws : 0x1F9#9 ∈ legalPolys ∧ gmul 0x1F9#9 0x53#8 0x00#8 = 0x00#8 := by decide +kernel

theorem witness_InverseLaws : 0x11B#9 ∈ legalPolys ∧ 0x01#8 ≠ 0x00#8 ∧ 0xFF#8 ≠ 0x00#8 := by decide

theorem witness_PowerLaws : 0x11D#9 ∈ legalPolys ∧ 254 + 1 ≤ 255 ∧ 0x02#8 ≠ 0x00#8 := by decide

theorem witness_MultiplicationFormsAgree : (0x11A#9).getLsbD 8 = true := by decide

theorem witness_SumsAndProductsAreOrderFree :
    0x11B#9 ∈ legalPolys ∧ [0x53#8, 0xCA#8].Perm [0xCA#8, 0x53#8] := by decide

theorem witness_LegalPolysAreTheIrreducibles : 0x11D#9 ∈ primitivePolys ∧ 0x11B#9 ∉ primitivePolys ∧ 0 < 254 ∧ 254 < 255 := by
  decide

theorem witness_EvaluationFormsAgree : 0x18D#9 ∈ legalPolys := by decide

/-- T = 0; a range one byte too long; the last byte of DMEM in range; an unwritten coefficient behind written ones. -/
theorem witness_EvalBehaviour :
    State.reset.t = 0x00#8 ∧
    ({ evalState cfgSmall with src := 0x00FE#16 }.t ≠ 0x00#8 ∧
      { evalState cfgSmall with src := 0x00FE#16 }.cfg.memSize < (0x00FE#16).toNat + (0x03#8).toNat) ∧
    (let s := { evalState cfgSmall with src := 0x00FD#16, mem := [(253, 0x41#8), (254, 0x11#8), (255, 0x22#8)] };
      s.t ≠ 0x00#8 ∧ s.src.toNat + s.t.toNat = s.cfg.memSize ∧
        ∀ j < [0x41#8, 0x11#8, 0x22#8].length,
          s.mem.read (s.src.toNat + j) = some ([0x41#8, 0x11#8, 0x22#8].getD j 0x00#8)) ∧
    (let s := { evalState cfgSmall with mem := [(0, 0x41#8), (1, 0x11#8)] };
      2 < s.t.toNat ∧ s.mem.read (s.src.toNat + 2) = none ∧ ∀ j' < 2, s.mem.read (s.src.toNat + j') ≠ none) := by
  decide

/-- The polynomial 0x00 + 0xFF·x of the small split, in another state, and the share at the boundary k = N. -/
theorem witness_EvalBehaviour_share :
    let s := splitSmall
    let u := { evalState Config.reference with mem := [(0, 0x00#8), (1, 0xFF#8)], t := 0x02#8 }
    s.mem.wf ∧ exec .split s = .next (after (exec .split s)) ∧ (after (exec .split s)).err = 0x00#8 ∧ 2 ≤ s.n.toNat ∧
      0 < s.len.toNat ∧ s.mem.read (s.src.toNat + 0) = some 0x00#8 ∧ u.cfg = s.cfg ∧ u.t = s.t ∧
      u.src.toNat + u.t.toNat ≤ u.cfg.memSize ∧
      (∀ j < u.t.toNat, u.mem.read (u.src.toNat + j) = some ((splitPolynomial s 0 0x00#8).getD j 0x00#8)) ∧
      exec (.eval 0x02#8) u = .next (after (exec (.eval 0x02#8) u)) := by
  refine ⟨?_, eq_next_after ?_, ?_, ?_, ?_, ?_, rfl, rfl, ?_, ?_, eq_next_after ?_⟩ <;> decide +kernel

/-- Each parameter error; a range error; one shared byte; and a ready state, its secret written or not. -/
theorem witness_SplitBehaviour :
    (splitState cfgD).mem.wf ∧
    (State.reset.len = 0x0000#16 ∧ State.reset.t = 0x00#8 ∧ (0x02#8).toNat < (0x03#8).toNat) ∧
    (SplitParams { splitState cfgSmall with dst := 0x00F2#16 } ∧
      ¬ SplitInRange { splitState cfgSmall with dst := 0x00F2#16 }) ∧
    (SplitParams { splitState cfgD with src := 0x010E#16 } ∧ SplitInRange { splitState cfgD with src := 0x010E#16 } ∧
      SplitOverlap { splitState cfgD with src := 0x010E#16 }) ∧
    (SplitReady (splitState cfgD) ∧ (splitState cfgD).rng.Answers (2 * 2) ∧
      ∀ i < [0x41#8, 0x42#8].length,
        (splitState cfgD).mem.read ((splitState cfgD).src.toNat + i) = some ([0x41#8, 0x42#8].getD i 0x00#8)) ∧
    (SplitReady { splitState cfgD with mem := [(0, 0x41#8)] } ∧
      { splitState cfgD with mem := [(0, 0x41#8)] }.mem.read 1 = none ∧
      ∀ i' < 1, { splitState cfgD with mem := [(0, 0x41#8)] }.mem.read i' ≠ none) := by decide

/-- A share area that ends at the last byte of DMEM (V-SPLIT-E16), and a secret that touches it (V-SPLIT-E10). -/
theorem witness_SplitBehaviour_boundary :
    SplitReady { splitState cfgSmall with dst := 0x00F1#16 } ∧ SplitReady { splitState cfgD with src := 0x010F#16 } := by
  decide

/-- A split with draws, one without, and one that reports an error. -/
theorem witness_SplitSharesAreEvaluations :
    (splitSmall.mem.wf ∧ exec .split splitSmall = .next (after (exec .split splitSmall)) ∧
      (after (exec .split splitSmall)).err = 0x00#8 ∧ splitSmall.n = 0x02#8) ∧
    (splitPlain.mem.wf ∧ exec .split splitPlain = .next (after (exec .split splitPlain)) ∧
      (after (exec .split splitPlain)).err = 0x00#8 ∧ splitPlain.t = 0x01#8) ∧
    (exec .split State.reset = .next (after (exec .split State.reset)) ∧
      (after (exec .split State.reset)).err ≠ 0x00#8) := by
  refine ⟨⟨by decide, eq_next_after ?_, ?_, rfl⟩, ⟨by decide, eq_next_after ?_, ?_, rfl⟩, eq_next_after ?_, ?_⟩ <;>
    decide +kernel

theorem witness_SplitWaitsForTheProvider :
    let s := { splitSmall with rng := { ready := [], live := false, drawn := 0 } }
    SplitReady s ∧ (∀ i < s.len.toNat, s.mem.read (s.src.toNat + i) ≠ none) ∧
      ¬ s.rng.Answers (s.len.toNat * (s.t.toNat - 1)) := by decide

/-- Two splits that agree on position 0 and differ, in the secret byte and the draws, on position 1. -/
theorem witness_BytePositionsAreIndependent_split :
    let s := splitState cfgD
    let s' := { splitState cfgD with
      mem := [(0, 0x41#8), (1, 0x99#8)], rng := { ready := [0x11#8, 0x22#8, 0x00#8, 0x01#8], live := true, drawn := 7 } }
    s.mem.wf ∧ s'.mem.wf ∧ s.cfg.poly = s'.cfg.poly ∧ exec .split s = .next (after (exec .split s)) ∧
      exec .split s' = .next (after (exec .split s')) ∧ (after (exec .split s)).err = 0x00#8 ∧
      (after (exec .split s')).err = 0x00#8 ∧ s.t = s'.t ∧ 0 < s.len.toNat ∧ 0 < s'.len.toNat ∧
      s.mem.read (s.src.toNat + 0) = s'.mem.read (s'.src.toNat + 0) ∧
      (∀ j < s.t.toNat - 1, s.rng.byteAt (0 * (s.t.toNat - 1) + j) = s'.rng.byteAt (0 * (s.t.toNat - 1) + j)) ∧
      4 < s.n.toNat ∧ 4 < s'.n.toNat := by
  refine ⟨?_, ?_, rfl, eq_next_after ?_, eq_next_after ?_, ?_, ?_, rfl, ?_, ?_, ?_, ?_, ?_, ?_⟩ <;> decide +kernel

theorem witness_BytePositionsAreIndependent_recon :
    let s := reconOne
    let s' := { reconOne with mem := [(0x100, 0x02#8), (0x101, 0xDE#8), (0x102, 0x77#8)], dst := 0x0300#16 }
    s.mem.wf ∧ s'.mem.wf ∧ s.cfg.poly = s'.cfg.poly ∧ exec .recon s = .next (after (exec .recon s)) ∧
      exec .recon s' = .next (after (exec .recon s')) ∧ (after (exec .recon s)).err = 0x00#8 ∧
      (after (exec .recon s')).err = 0x00#8 ∧ s.m = s'.m ∧ 0 < s.len.toNat ∧ 0 < s'.len.toNat ∧
      ∀ j < s.m.toNat,
        s.mem.read (shareByteAt s.src.toNat s.len.toNat j 0) =
          s'.mem.read (shareByteAt s'.src.toNat s'.len.toNat j 0) ∧
        s.mem.read (shareByteAt s.src.toNat s.len.toNat j (1 + 0)) =
          s'.mem.read (shareByteAt s'.src.toNat s'.len.toNat j (1 + 0)) := by
  refine ⟨?_, ?_, rfl, eq_next_after ?_, eq_next_after ?_, ?_, ?_, rfl, ?_, ?_, ?_⟩ <;> decide +kernel

theorem witness_LagrangeWeightsFormula :
    0x11B#9 ∈ legalPolys ∧ IndicesOk [0x01#8, 0x02#8, 0xFF#8] ∧ 2 < [0x01#8, 0x02#8, 0xFF#8].length ∧
      (0 : Nat) < 3 ∧ (0 : Nat) ≠ 2 ∧ IndicesOk [0x05#8] ∧ [0x05#8].length = 1 := by decide

/-- Each error before the indices are read. -/
theorem witness_ReconBehaviour_errors :
    reconState.mem.wf ∧ State.reset.len = 0x0000#16 ∧
    ({ reconState with m := 0x00#8 }.len ≠ 0x0000#16 ∧ { reconState with m := 0x00#8 }.m = 0x00#8) ∧
    (reconState.len ≠ 0x0000#16 ∧ reconState.m ≠ 0x00#8 ∧ ¬ ReconInRange { reconState with src := 0xFFF8#16 } ∧
      ¬ ReconInRange { reconState with dst := 0xFFFF#16 }) ∧
    (ReconInRange { reconState with dst := 0x00FF#16 } ∧ ReconOverlap { reconState with dst := 0x00FF#16 } ∧
      ReconOverlap { reconState with dst := 0x0108#16 } ∧ ¬ ReconOverlap { reconState with dst := 0x0109#16 }) := by
  decide

/-- A ready state, with an unwritten index, a zero index, two equal indices, an unwritten payload byte, and complete. -/
theorem witness_ReconBehaviour_ready :
    let y : Nat → Nat → Byte := fun j i => ([[0x72#8, 0x35#8], [0xEB#8, 0x2F#8], [0xD8#8, 0x58#8]].getD j []).getD i 0x00#8
    ReconReady reconState ∧ IndicesOk [0x01#8, 0x02#8, 0x03#8] ∧
    (∀ j < reconState.m.toNat, ∀ i < reconState.len.toNat,
      reconState.mem.read (shareByteAt reconState.src.toNat reconState.len.toNat j (1 + i)) = some (y j i)) ∧
    (∀ j < 3, reconState.mem.read (shareByteAt reconState.src.toNat reconState.len.toNat j 0) =
      some ([0x01#8, 0x02#8, 0x03#8].getD j 0x00#8)) ∧
    Memory.read (reconState.mem.filter fun c => c.1 ≠ 0x103) (shareByteAt 0x100 2 1 0) = none ∧
    Memory.read (reconState.mem.filter fun c => c.1 ≠ 0x105) (shareByteAt 0x100 2 1 (1 + 1)) = none ∧
    ((reconTwo 0x10#8 0xAA#8 0x00#8 0xBB#8).mem.read 0x402 = some 0x00#8 ∧
      ReconReady (reconTwo 0x10#8 0xAA#8 0x00#8 0xBB#8)) ∧
    ((reconTwo 0x10#8 0xAA#8 0x10#8 0xBB#8).mem.read 0x402 = (reconTwo 0x10#8 0xAA#8 0x10#8 0xBB#8).mem.read 0x400 ∧
      ReconReady (reconTwo 0x10#8 0xAA#8 0x10#8 0xBB#8)) := by decide

theorem witness_ReconOfOneShare :
    reconOne.mem.wf ∧ ReconReady reconOne ∧ reconOne.m = 0x01#8 ∧
      reconOne.mem.read reconOne.src.toNat = some 0x02#8 ∧ 0x02#8 ≠ 0x00#8 ∧
      ∀ i < reconOne.len.toNat, reconOne.mem.read (reconOne.src.toNat + 1 + i) ≠ none := by decide

theorem witness_ReconIgnoresTheThreshold :
    exec .recon reconOne = .next (after (exec .recon reconOne)) ∧ ReconReady reconOne ∧ IndicesOk [0x02#8] ∧
      ∀ j < [0x02#8].length, reconOne.mem.read (shareByteAt reconOne.src.toNat reconOne.len.toNat j 0) =
        some ([0x02#8].getD j 0x00#8) := by
  refine ⟨eq_next_after ?_, ?_, ?_, ?_⟩ <;> decide +kernel

theorem witness_ReconIsOrderFree :
    let u := reconTwo 0x10#8 0xAA#8 0x20#8 0xBB#8
    let u' := reconTwo 0x20#8 0xBB#8 0x10#8 0xAA#8
    u.cfg.Legal ∧ u.mem.wf ∧ u'.mem.wf ∧ u'.cfg = u.cfg ∧ u'.len = u.len ∧ u'.m = u.m ∧
      exec .recon u = .next (after (exec .recon u)) ∧ (after (exec .recon u)).err = 0x00#8 ∧ ReconReady u' ∧
      [1, 0].Perm (List.range u.m.toNat) ∧
      ∀ j < u.m.toNat, ∀ b ≤ u.len.toNat,
        u'.mem.read (shareByteAt u'.src.toNat u'.len.toNat j b) =
          u.mem.read (shareByteAt u.src.toNat u.len.toNat ([1, 0].getD j 0) b) := by
  refine ⟨?_, ?_, ?_, rfl, rfl, rfl, eq_next_after ?_, ?_, ?_, ?_, ?_⟩ <;> decide +kernel

/-- Both shares of a T = N = 2 split, in falling order. -/
theorem witness_SplitThenReconRecoversTheSecret :
    let s := splitSmall
    let u := reconTwo 0x02#8 0xE5#8 0x01#8 0xFF#8
    let t := after (exec .split s)
    s.cfg.Legal ∧ s.mem.wf ∧ u.mem.wf ∧ exec .split s = .next t ∧ t.err = 0x00#8 ∧ u.cfg = s.cfg ∧ u.len = s.len ∧
      u.m.toNat = [2, 1].length ∧ s.t.toNat ≤ [2, 1].length ∧ [2, 1].Nodup ∧
      (∀ k ∈ [2, 1], 1 ≤ k ∧ k ≤ s.n.toNat) ∧
      (∀ j < [2, 1].length, ∀ b ≤ s.len.toNat,
        u.mem.read (shareByteAt u.src.toNat s.len.toNat j b) =
          t.mem.read (shareByteAt s.dst.toNat s.len.toNat ([2, 1].getD j 0 - 1) b)) ∧
      ReconInRange u ∧ ¬ ReconOverlap u := by
  refine ⟨?_, ?_, ?_, eq_next_after ?_, ?_, rfl, rfl, ?_, ?_, ?_, ?_, ?_, ?_, ?_⟩ <;> decide +kernel

theorem witness_WeightsSumToOne :
    let s := reconTwo 0x01#8 0x77#8 0x02#8 0x77#8
    0x11D#9 ∈ legalPolys ∧ [0x01#8, 0xFE#8] ≠ [] ∧ IndicesOk [0x01#8, 0xFE#8] ∧ s.cfg.Legal ∧ s.mem.wf ∧
      exec .recon s = .next (after (exec .recon s)) ∧ (after (exec .recon s)).err = 0x00#8 ∧ 0 < s.len.toNat ∧
      ∀ j < s.m.toNat, s.mem.read (shareByteAt s.src.toNat s.len.toNat j (1 + 0)) = some 0x77#8 := by
  refine ⟨?_, ?_, ?_, ?_, ?_, eq_next_after ?_, ?_, ?_, ?_⟩ <;> decide +kernel

theorem witness_UniqueCoefficientsFitAnySharesAndSecret :
    0x11B#9 ∈ legalPolys ∧ IndicesOk [0x01#8, 0xFF#8] ∧ [0x00#8, 0x53#8].length = [0x01#8, 0xFF#8].length ∧
      1 < [0x01#8, 0xFF#8].length := by decide

theorem witness_SetAddressCommandsStore : 0xFF#8 ≠ 0x00#8 := by decide

/-- A run of written bytes reads back. -/
theorem read_zeros (n : Nat) : ∀ b a : Nat, b ≤ a → a < b + n →
    Memory.read ((List.range' b n).map fun x => (x, 0x00#8)) a = some 0x00#8 := by
  induction n with
  | zero => intro b a h1 h2; omega
  | succ n ih =>
    intro b a h1 h2
    rw [List.range'_succ, List.map_cons, Memory.read]
    by_cases h : a = b
    · rw [if_pos h]
    · rw [if_neg h]
      exact ih (b + 1) a (by omega) (by omega)

/-- LEN = 0; LEN = 65535 in the one placement that overlaps and in one out of range (V-SPLIT-E13, E14). -/
theorem witness_SetlenStoresTheLength :
    0x01#8 ≠ 0x00#8 ∧ State.reset.len = 0x0000#16 ∧
    (let u := { splitPlain with len := 0xFFFF#16, dst := 0x0000#16, src := 0x0001#16 };
      u.cfg.memSize = 65536 ∧ u.len = 0xFFFF#16 ∧ u.t ≠ 0x00#8 ∧ u.t.toNat ≤ u.n.toNat ∧ u.n = 0x01#8 ∧
        u.dst = 0x0000#16 ∧ u.src.toNat ≤ 1) ∧
    (let u := { splitPlain with len := 0xFFFF#16 };
      u.cfg.memSize = 65536 ∧ u.t ≠ 0x00#8 ∧ u.t.toNat ≤ u.n.toNat ∧ u.dst ≠ 0x0000#16) ∧
    (exec .split splitPlain = .next (after (exec .split splitPlain)) ∧
      (after (exec .split splitPlain)).err = 0x00#8) := by
  refine ⟨?_, ?_, ?_, ?_, eq_next_after ?_, ?_⟩ <;> decide +kernel

/-- The largest secret one SPLIT can take. -/
theorem witness_SetlenStoresTheLength_largest :
    let u := { splitPlain with
      len := 0x7FFF#16, dst := 0x7FFF#16, mem := (List.range' 0 32767).map fun x => (x, 0x00#8) }
    u.cfg.memSize = 65536 ∧ u.len = 0x7FFF#16 ∧ u.t = 0x01#8 ∧ u.n = 0x01#8 ∧ u.src = 0x0000#16 ∧
      u.dst = 0x7FFF#16 ∧ u.Written (secretRange u) := by
  refine ⟨rfl, rfl, rfl, rfl, rfl, rfl, fun a ha => ⟨0x00#8, ?_⟩⟩
  have h : (0 : Nat) ≤ a ∧ a < 0 + 32767 := ha
  exact read_zeros 32767 0 a h.1 h.2

theorem witness_SettnStoresBoth :
    0x01#8 ≠ 0x00#8 ∧ (State.reset.t = 0x00#8 ∧ State.reset.n = 0x00#8) ∧
      ({ State.reset with t := 0x03#8, n := 0x02#8 }.t = 0x03#8 ∧ (0x02#8).toNat < (0x03#8).toNat) := by decide

theorem witness_SetmStoresTheCount :
    0x0100#16 ≠ 0x0000#16 ∧ { reconOne with m := 0x00#8 }.m = 0x00#8 ∧
      { reconOne with m := 0x00#8 }.len ≠ 0x0000#16 := by decide

/-- A command that succeeds and is no SET command, and one that reports an error. -/
theorem witness_exec_next :
    (exec (.gadd 0x01#8 0x02#8) State.reset = .next (after (exec (.gadd 0x01#8 0x02#8) State.reset)) ∧
      (after (exec (.gadd 0x01#8 0x02#8) State.reset)).err = 0x00#8) ∧
    (exec (.ginv 0x00#8) State.reset = .next (after (exec (.ginv 0x00#8) State.reset)) ∧
      (after (exec (.ginv 0x00#8) State.reset)).err ≠ 0x00#8) := by
  refine ⟨⟨eq_next_after ?_, ?_⟩, eq_next_after ?_, ?_⟩ <;> decide

theorem witness_ParametersPersist_ports :
    let s := { splitSmall with pending := [.busWrite 4 [0x00#8, 0x00#8, 0x00#8, 0x21#8]] }
    step s = .next (after (step s)) ∧
      (∀ w, Transaction.busWrite 4 [0x00#8, 0x00#8, 0x00#8, 0x21#8] ≠ .regWrite 0 w) ∧
      (∀ data, Transaction.busWrite 4 [0x00#8, 0x00#8, 0x00#8, 0x21#8] ≠ .busWrite 0 data) ∧
      decode 0x00000000#32 = none ∧
      issue 0x00000000#32 splitSmall = .next (after (issue 0x00000000#32 splitSmall)) := by
  refine ⟨eq_next_after ?_, by simp, by simp, ?_, eq_next_after ?_⟩ <;> decide +kernel

theorem witness_ParametersPersist :
    (∀ v, Instr.gadd 0x01#8 0x02#8 ≠ .setsrc v) ∧ (∀ v, Instr.gadd 0x01#8 0x02#8 ≠ .setdst v) ∧
      (∀ v, Instr.gadd 0x01#8 0x02#8 ≠ .setlen v) ∧ (∀ a b, Instr.gadd 0x01#8 0x02#8 ≠ .settn a b) ∧
      (∀ v, Instr.gadd 0x01#8 0x02#8 ≠ .setm v) := by simp

theorem witness_FailedCommandOnlySetsStatus :
    exec (.ginv 0x00#8) State.reset = .next (after (exec (.ginv 0x00#8) State.reset)) ∧
      (after (exec (.ginv 0x00#8) State.reset)).err ≠ 0x00#8 := witness_exec_next.2

theorem witness_CodesAreThoseOfTheTable :
    exec (.ginv 0x00#8) State.reset = .next (after (exec (.ginv 0x00#8) State.reset)) ∧
      ErrorCode.invZero ∈ codesOf (.ginv 0x00#8) ∧ ErrorCode.range ∈ codesOf (.eval 0xFF#8) ∧
      ErrorCode.overlap ∈ codesOf .split ∧ ErrorCode.share ∈ codesOf .recon :=
  ⟨witness_exec_next.2.1, by decide, by decide, by decide, by decide⟩

theorem witness_ErrInvZeroOnlyFromGinv :
    (exec .recon reconOne = .next (after (exec .recon reconOne)) ∧ (after (exec .recon reconOne)).err = 0x00#8) ∧
      IndicesOk [0x01#8, 0x02#8] ∧ 0 < 1 ∧ 1 < [0x01#8, 0x02#8].length := by
  refine ⟨⟨eq_next_after ?_, ?_⟩, ?_, ?_, ?_⟩ <;> decide +kernel

/-- A command that writes RES, and one that fails. -/
theorem witness_ResIsWrittenOnSuccessOnly :
    (exec (.gadd 0x01#8 0x02#8) State.reset = .next (after (exec (.gadd 0x01#8 0x02#8) State.reset)) ∧
      (after (exec (.gadd 0x01#8 0x02#8) State.reset)).err = 0x00#8 ∧
      ∃ a b, Instr.gadd 0x01#8 0x02#8 = .gadd a b ∨ Instr.gadd 0x01#8 0x02#8 = .gmul a b ∨
        Instr.gadd 0x01#8 0x02#8 = .gpow a b ∨ Instr.gadd 0x01#8 0x02#8 = .ginv a ∨ Instr.gadd 0x01#8 0x02#8 = .eval a) ∧
    (exec (.ginv 0x00#8) State.reset = .next (after (exec (.ginv 0x00#8) State.reset)) ∧
      ¬ (after (exec (.ginv 0x00#8) State.reset)).err = 0x00#8) :=
  ⟨⟨witness_exec_next.1.1, witness_exec_next.1.2, 0x01#8, 0x02#8, .inl rfl⟩, witness_exec_next.2⟩

/-- Ranges of one byte that meet, and that touch; a SPLIT and a RECON that report the overlap of one byte. -/
theorem witness_RangesOverlapWhenTheyShareAByte :
    ({ base := 5, size := 1 : ByteRange }.Overlaps { base := 5, size := 1 } ∧
      ¬ { base := 5, size := 1 : ByteRange }.Overlaps { base := 6, size := 1 }) ∧
    (exec .split { splitState cfgD with dst := 0x0001#16 } =
        .next (after (exec .split { splitState cfgD with dst := 0x0001#16 })) ∧
      (after (exec .split { splitState cfgD with dst := 0x0001#16 })).err = 0x05#8) ∧
    (exec .recon { reconState with dst := 0x0108#16 } =
        .next (after (exec .recon { reconState with dst := 0x0108#16 })) ∧
      (after (exec .recon { reconState with dst := 0x0108#16 })).err = 0x05#8) := by
  refine ⟨by decide, ⟨eq_next_after ?_, ?_⟩, eq_next_after ?_, ?_⟩ <;> decide +kernel

theorem witness_ConstantRegistersNeverChange :
    let s := { splitSmall with pending := [.reset] }
    s.cfg.Legal ∧ s.cfg.memSize = 65536 ∧ step s = .next (after (step s)) := by
  refine ⟨?_, ?_, eq_next_after ?_⟩ <;> decide +kernel

theorem witness_RegisterReadsFollowTheMap :
    { State.reset with pending := [.regRead 15] }.pending = [.regRead 15] ∧ 11 ≤ (11 : Fin 16).val ∧
      11 ≤ (15 : Fin 16).val ∧ (7 : Fin 16).val ≤ 7 := by decide

theorem witness_OtherRegisterWritesDoNothing :
    11 ≤ (15 : Fin 16).val ∧ { State.reset with pending := [.regRead 15] }.pending = [.regRead 15] ∧
    (1 : Fin 16).val ≠ 0 ∧ (15 : Fin 16).val ≠ 0 ∧
      { State.reset with pending := [.regWrite 1 0x21000000#32] }.pending = [.regWrite 1 0x21000000#32] := by decide

/-- Whole aligned accesses at the ends of the register space; a narrow, a misaligned and a too high one. -/
theorem witness_BusAccessesAreWholeWords :
    { State.reset with pending := [.busWrite 60 [0x00#8, 0x00#8, 0x00#8, 0x00#8]] }.pending =
        [.busWrite (4 * (15 : Fin 16).val) [0x00#8, 0x00#8, 0x00#8, 0x00#8]] ∧
      { State.reset with pending := [.busRead 0 4] }.pending = [.busRead (4 * (0 : Fin 16).val) 4] ∧
      ¬ ([0x00#8].length = 4 ∧ 0 % 4 = 0 ∧ 0 < 64) ∧ ¬ (4 = 4 ∧ 62 % 4 = 0 ∧ 62 < 64) ∧
      ¬ (4 = 4 ∧ 64 % 4 = 0 ∧ 64 < 64) := by decide

/-- The last byte of a small DMEM, written and unwritten, and the first address above it. -/
theorem witness_MemoryPortReadsAndWrites :
    let s := { State.powerOn cfgSmall with mem := [(255, 0x5A#8)] }
    s.mem.wf ∧ (0x00FF#16).toNat < s.cfg.memSize ∧ s.mem.read (0x00FF#16).toNat = some 0x5A#8 ∧
      s.mem.read (0x00FE#16).toNat = none ∧ s.cfg.memSize ≤ (0x0100#16).toNat := by decide

theorem witness_IdleBlockKeepsState : splitSmall.pending = [] := by decide

theorem witness_EngineStaysInsideDmem :
    let s := { evalState cfgSmall with mem := [(0, 0x41#8)] }
    s.mem.wf ∧ exec (.eval 0x01#8) s = .fault (.unwrittenByte 1) ∧ s.cfg.memSize ≤ 256 ∧
      exec (.setm 0x01#8) s = .next (after (exec (.setm 0x01#8) s)) := by
  refine ⟨?_, eq_fault_of ?_, ?_, eq_next_after ?_⟩ <;> decide

/-- A storing command, a command that stores nothing, and one that reports an error. -/
theorem witness_CommandFrame :
    (splitSmall.mem.wf ∧ exec .split splitSmall = .next (after (exec .split splitSmall)) ∧
      ¬ (storedRange .split splitSmall).Has 0xFF ∧ (storedRange .split splitSmall).Has 0x103 ∧
      ¬ (storedRange .split splitSmall).Has 0x104) ∧
    (State.reset.mem.wf ∧ exec (.ginv 0x00#8) State.reset = .next (after (exec (.ginv 0x00#8) State.reset)) ∧
      Instr.ginv 0x00#8 ≠ .split ∧ Instr.ginv 0x00#8 ≠ .recon ∧
      (after (exec (.ginv 0x00#8) State.reset)).err ≠ 0x00#8) := by
  refine ⟨⟨?_, eq_next_after ?_, ?_, ?_, ?_⟩, ?_, eq_next_after ?_, ?_, ?_, ?_⟩ <;> decide +kernel

theorem witness_ResetClearsRegistersKeepsDmem : { splitSmall with pending := [.reset] }.pending = [.reset] := by decide

theorem witness_ResetAbandonsACommand :
    { splitSmall with pending := [.resetDuring 0x21000000#32 1] }.pending = [.resetDuring 0x21000000#32 1] ∧
      decode 0x21000000#32 = some .split ∧ decode 0x30000000#32 = some .recon ∧
      (decode 0x20040000#32 ≠ some .split ∧ decode 0x20040000#32 ≠ some .recon) := by decide

theorem witness_PowerOnMeetsTheInvariant : cfgSmall.Legal := by decide

theorem witness_StepKeepsTheInvariant :
    let s := { splitSmall with pending := [.regWrite 0 0x21000000#32] }
    s.Inv ∧ step s = .next (after (step s)) := by
  refine ⟨⟨?_, ?_, ?_, ?_⟩, eq_next_after ?_⟩ <;> decide +kernel

theorem witness_AssemblerAcceptsWhatFits : 255 < 256 ∧ 65535 < 65536 := by decide

theorem witness_DisassemblyAssemblesBack : (decode 0x1200FFFF#32).isSome ∧ decode 0x12010000#32 = none := by decide

end Sys2Proof.Tests
end

/-! # The invariant of the machine is kept by every step (20_memory.md R51, 60_exceptions.md R180)

Every operation a transaction can perform keeps the parameters, and the bytes it stores lie inside DMEM: a command's
because its checks passed (R184), the host's because the port ignores other addresses (R56). -/

namespace Sys2Proof.Machine

/-! ### What one transaction can do -/

/-- A register write that goes on ran a command, met an ILLEGAL word, or wrote a register without effect. -/
theorem registerWrite_next_cases {r : Fin 16} {w : Word} {s t : State} (h : registerWrite r w s = .next t) :
    (∃ i, decode w = some i ∧ exec i s = .next t) ∨ (decode w = none ∧ t = s.raiseError .illegal) ∨
      (r ≠ 0 ∧ t = s) := by
  by_cases hr : r.val = 0
  · rw [registerWrite, if_pos hr, issue] at h
    cases hd : decode w with
    | some i => exact .inl ⟨i, rfl, by simpa only [hd] using h⟩
    | none =>
      rw [hd] at h
      exact .inr (.inl ⟨rfl, (Host.Outcome.next.inj h).symm⟩)
  · rw [registerWrite, if_neg hr] at h
    exact .inr (.inr ⟨fun h0 => hr (congrArg Fin.val h0), (Host.Outcome.next.inj h).symm⟩)

/-- A memory write goes on: it writes one byte inside DMEM or has no effect (20_memory.md R56). -/
theorem hostMemWrite_next_cases {a : Half} {v : Byte} {s t : State} (h : hostMemWrite a v s = .next t) :
    (a.toNat < s.cfg.memSize ∧ t = s.setMem (s.mem.write a.toNat v)) ∨ (s.cfg.memSize ≤ a.toNat ∧ t = s) := by
  unfold hostMemWrite at h
  split at h
  · exact .inl ⟨‹_›, (Host.Outcome.next.inj h).symm⟩
  · exact .inr ⟨Nat.not_lt.1 ‹_›, (Host.Outcome.next.inj h).symm⟩

/-- A memory read that goes on changes the reply only. -/
theorem hostMemRead_next {a : Half} {s t : State} (h : hostMemRead a s = .next t) : ∃ r, t = s.setReply r := by
  unfold hostMemRead at h
  split at h
  · split at h
    · cases h
    · exact ⟨_, (Host.Outcome.next.inj h).symm⟩
  · exact ⟨_, (Host.Outcome.next.inj h).symm⟩

/-- A byte-bus write that goes on is a register write (20_memory.md R55). -/
theorem busWrite_next {offset : Nat} {data : List Byte} {s t : State} (h : busWrite offset data s = .next t) :
    BusAligned offset data.length ∧ registerWrite (busRegister offset) (wordOfBytes data) s = .next t := by
  unfold busWrite at h
  split at h
  · exact ⟨‹_›, h⟩
  · cases h

/-- A byte-bus read that goes on changes the reply only. -/
theorem busRead_next {offset width : Nat} {s t : State} (h : busRead offset width s = .next t) :
    ∃ r, t = s.setReply r := by
  unfold busRead at h
  split at h
  · exact ⟨_, (Host.Outcome.next.inj h).symm⟩
  · cases h

/-! ### What keeps the invariant -/

/-- A state with the same parameters whose DMEM and code are in order meets the invariant. -/
theorem State.Inv.of_cfg_eq {s t : State} (h : s.Inv) (hcfg : t.cfg = s.cfg) (hwf : t.mem.wf)
    (hin : t.mem.within s.cfg.memSize) (hcode : t.err.toNat ≤ 6) : t.Inv :=
  ⟨hcfg ▸ h.legal, hwf, hcfg ▸ hin, hcode⟩

/-- The invariant speaks of the parameters, DMEM and STATUS.ERR only. -/
theorem State.Inv.of_mem_eq {s t : State} (h : s.Inv) (hcfg : t.cfg = s.cfg) (hmem : t.mem = s.mem)
    (hcode : t.err.toNat ≤ 6) : t.Inv :=
  h.of_cfg_eq hcfg (hmem ▸ h.wf) (hmem ▸ h.within) hcode

/-- An error code of R180 keeps the invariant. -/
theorem State.Inv.raiseError {s : State} (h : s.Inv) (c : ErrorCode) : (s.raiseError c).Inv :=
  h.of_mem_eq rfl rfl c.number_le

/-- A reply is no part of the invariant. -/
theorem State.Inv.setReply {s : State} (h : s.Inv) (r : Reply) : (s.setReply r).Inv := h.of_mem_eq rfl rfl h.code

/-- Storing bytes at `a` on, inside DMEM, keeps the invariant. -/
theorem State.Inv.of_writeBytes {s t : State} (h : s.Inv) {a : Nat} {bs : List Byte} (hcfg : t.cfg = s.cfg)
    (hmem : t.mem = s.mem.writeBytes a bs) (hfit : a + bs.length ≤ s.cfg.memSize) (hcode : t.err.toNat ≤ 6) : t.Inv :=
  h.of_cfg_eq hcfg (hmem ▸ Memory.wf_writeBytes h.wf a bs) (hmem ▸ Memory.within_writeBytes h.within a bs hfit) hcode

/-- A command keeps the invariant: SPLIT and RECON store in the range their checks found inside DMEM (R184). -/
theorem exec_keeps_inv {i : Instr} {s t : State} (hs : s.Inv) (h : exec i s = .next t) : t.Inv := by
  have ok : ErrorCode.ok.number.toNat ≤ 6 := ErrorCode.ok.number_le
  rcases exec_next_cases h with ⟨code, -, rfl⟩ | ⟨v, -, rfl⟩ | ⟨v, -, rfl⟩ | ⟨v, -, rfl⟩ | ⟨v, -, rfl⟩ | ⟨a, b, -, rfl⟩ |
    ⟨v, -, rfl⟩ | ⟨-, hc, bs, hl, rfl⟩ | ⟨-, hc, bs, hl, rfl⟩
  · exact hs.raiseError code
  iterate 6 exact hs.of_mem_eq rfl rfl ok
  · obtain ⟨-, ⟨-, hfit⟩, -⟩ := (splitCheck_eq_none_iff s).1 hc
    exact hs.of_writeBytes rfl rfl (hl ▸ hfit) ok
  · obtain ⟨-, ⟨-, hfit⟩, -⟩ := (reconCheck_eq_none_iff s).1 hc
    exact hs.of_writeBytes rfl rfl (hl ▸ hfit) ok

/-- A register write keeps the invariant, whatever the word. -/
theorem registerWrite_keeps_inv {r : Fin 16} {w : Word} {s t : State} (hs : s.Inv)
    (h : registerWrite r w s = .next t) : t.Inv := by
  rcases registerWrite_next_cases h with ⟨i, -, hi⟩ | ⟨-, rfl⟩ | ⟨-, rfl⟩
  · exact exec_keeps_inv hs hi
  · exact hs.raiseError .illegal
  · exact hs

/-- A memory write keeps the invariant: outside DMEM it has no effect (20_memory.md R56). -/
theorem hostMemWrite_keeps_inv {a : Half} {v : Byte} {s t : State} (hs : s.Inv)
    (h : hostMemWrite a v s = .next t) : t.Inv := by
  rcases hostMemWrite_next_cases h with ⟨ha, rfl⟩ | ⟨-, rfl⟩
  · exact hs.of_cfg_eq rfl (Memory.wf_write hs.wf _ v) (Memory.within_write hs.within ha v) hs.code
  · exact hs

/-- The DMEM that an abandoned command leaves is in canonical form (70_reset_and_hazards.md R212). -/
theorem wf_abandonMem {s : State} (h : s.mem.wf) (w : Word) : (abandonMem w s).wf := by
  unfold abandonMem
  split
  · exact Memory.wf_forget h _ _
  · exact h

/-- The DMEM that an abandoned command leaves lies inside its size. -/
theorem within_abandonMem {s : State} {size : Nat} (h : s.mem.within size) (w : Word) :
    (abandonMem w s).within size := by
  unfold abandonMem
  split
  · exact Memory.within_forget h _ _
  · exact h

/-- A reset keeps the invariant and needs nothing of the old code: it clears STATUS.ERR. -/
theorem State.Inv.resetRegisters {s : State} (h : s.Inv) : s.resetRegisters.Inv :=
  h.of_mem_eq rfl rfl (Nat.zero_le 6)

/-- A reset that abandons a command keeps the invariant: it only forgets bytes (R212). -/
theorem State.Inv.resetDuring {s : State} (h : s.Inv) (w : Word) (taken : Nat) : (resetDuring w taken s).Inv :=
  h.of_cfg_eq rfl (wf_abandonMem h.wf w) (within_abandonMem h.within w) (Nat.zero_le 6)

/-- Every transaction that goes on keeps the invariant. -/
theorem transact_keeps_inv {tr : Transaction} {s t : State} (hs : s.Inv) (h : transact tr s = .next t) : t.Inv := by
  cases tr with
  | regWrite r w => exact registerWrite_keeps_inv hs h
  | regRead r => exact Host.Outcome.next.inj h ▸ hs.setReply _
  | busWrite offset data => exact registerWrite_keeps_inv hs (busWrite_next h).2
  | busRead offset width =>
    obtain ⟨r, rfl⟩ := busRead_next h
    exact hs.setReply r
  | hostMemWrite a v => exact hostMemWrite_keeps_inv hs h
  | hostMemRead a =>
    obtain ⟨r, rfl⟩ := hostMemRead_next h
    exact hs.setReply r
  | reset => exact Host.Outcome.next.inj h ▸ hs.resetRegisters
  | resetDuring w taken => exact Host.Outcome.next.inj h ▸ hs.resetDuring w taken

/-- Settles O55: the idle step keeps the state, and every transaction keeps the invariant. -/
theorem stepKeepsTheInvariant : Obligations.StepKeepsTheInvariant := by
  intro s t hs h
  rcases step_next_cases h with ⟨-, rfl⟩ | ⟨tr, rest, -, htr⟩
  · exact hs
  · have hs' : { s with pending := rest, reply := none }.Inv := hs.of_mem_eq rfl rfl hs.code
    exact transact_keeps_inv hs' htr

end Sys2Proof.Machine

/-! # The values of POLY: irreducible and primitive polynomials (00_scope.md R8)

The carry-less product of two bytes is the product of their polynomials over GF(2), so a reducible value of degree 8 has
a factor of degree 1 to 4, and the list of legal values is what the products of that form leave. The primitive values are
the legal ones under which the powers of 0x02 first meet 0x01 at the exponent 255. -/

namespace Sys2Proof.Machine

open Polynomial

/-! ### Bit vectors as polynomials over GF(2) (00_scope.md R7) -/

/-- The polynomial over GF(2) that a bit vector writes: bit i is the coefficient of z^i (R7). -/
noncomputable def bitPoly {w : Nat} (v : BitVec w) : (ZMod 2)[X] :=
  ∑ i ∈ Finset.range w, if v.getLsbD i then X ^ i else 0

theorem coeff_bitPoly {w : Nat} (v : BitVec w) (n : Nat) :
    (bitPoly v).coeff n = if v.getLsbD n then 1 else 0 := by
  have term : ∀ i, (if v.getLsbD i then X ^ i else 0 : (ZMod 2)[X]).coeff n =
      if n = i then (if v.getLsbD n then 1 else 0) else 0 := by
    intro i
    by_cases hn : n = i
    · subst hn
      cases v.getLsbD n <;> simp
    · cases v.getLsbD i <;> simp [coeff_X_pow, hn]
  rw [bitPoly, finsetSum_coeff, Finset.sum_congr rfl fun i _ => term i, Finset.sum_ite_eq]
  by_cases hn : n < w
  · simp [hn]
  · simp [hn, BitVec.getLsbD_of_ge v n (Nat.le_of_not_lt hn)]

theorem bitPoly_injective {w : Nat} {u v : BitVec w} (h : bitPoly u = bitPoly v) : u = v := by
  apply BitVec.eq_of_getLsbD_eq
  intro i _
  have hi := congrArg (coeff · i) h
  simp only [coeff_bitPoly] at hi
  cases hu : u.getLsbD i <;> cases hv : v.getLsbD i <;> simp_all

@[simp] theorem bitPoly_zero (w : Nat) : bitPoly 0#w = 0 := by simp [bitPoly]

theorem bitPoly_eq_zero_iff {w : Nat} {v : BitVec w} : bitPoly v = 0 ↔ v = 0#w :=
  ⟨fun h => bitPoly_injective (h.trans (bitPoly_zero w).symm), fun h => h ▸ bitPoly_zero w⟩

/-- XOR adds the coefficients. -/
theorem bitPoly_xor {w : Nat} (u v : BitVec w) : bitPoly (u ^^^ v) = bitPoly u + bitPoly v := by
  ext n
  simp only [coeff_add, coeff_bitPoly, BitVec.getLsbD_xor]
  cases u.getLsbD n <;> cases v.getLsbD n <;> decide

/-- A left shift that loses no bit multiplies by a power of z. -/
theorem bitPoly_setWidth_shiftLeft (a : Byte) {k : Nat} (hk : k < 8) :
    bitPoly (a.setWidth 15 <<< k) = bitPoly a * X ^ k := by
  ext n
  rw [coeff_mul_X_pow', coeff_bitPoly, coeff_bitPoly]
  by_cases hn : k ≤ n
  · by_cases h15 : n < 15
    · simp [hn, h15, Nat.not_lt.2 hn, show n - k < 15 by omega, -BitVec.getLsbD_eq_getElem]
    · simp [hn, h15, BitVec.getLsbD_of_ge a (n - k) (by omega)]
  · simp [hn, Nat.lt_of_not_le hn]

/-- The carry-less product is the product of polynomials (00_scope.md R14). -/
theorem bitPoly_clmul (a b : Byte) : bitPoly (clmul a b) = bitPoly a * bitPoly b := by
  have partialProduct : ∀ k ≤ 8, bitPoly (clmulBits a b k) =
      bitPoly a * ∑ i ∈ Finset.range k, if b.getLsbD i then X ^ i else 0 := by
    intro k hk
    induction k with
    | zero => simp [clmulBits]
    | succ k ih =>
      rw [clmulBits, bitPoly_xor, ih (by omega), Finset.sum_range_succ, mul_add]
      cases b.getLsbD k
      · simp
      · simp [bitPoly_setWidth_shiftLeft a hk]
  exact partialProduct 8 (Nat.le_refl 8)

theorem clmul_comm (a b : Byte) : clmul a b = clmul b a :=
  bitPoly_injective (by rw [bitPoly_clmul, bitPoly_clmul, mul_comm])

/-- The degree is the position of the highest set bit. -/
theorem natDegree_bitPoly {w : Nat} (v : BitVec w) : (bitPoly v).natDegree = v.toNat.log2 := by
  by_cases hv : v = 0#w
  · simp [hv]
  · have hn : v.toNat ≠ 0 := fun h => hv (BitVec.eq_of_toNat_eq (by simpa using h))
    apply natDegree_eq_of_le_of_coeff_ne_zero
    · rw [natDegree_le_iff_coeff_eq_zero]
      intro n h
      have : v.getLsbD n = false := Nat.testBit_lt_two_pow ((Nat.log2_lt hn).1 h)
      simp [coeff_bitPoly, this]
    · have : v.getLsbD v.toNat.log2 = true := Nat.testBit_log2 hn
      simp [coeff_bitPoly, this]

/-- Degrees add under the carry-less product. -/
theorem log2_clmul {a b : Byte} (h : clmul a b ≠ 0#15) :
    (clmul a b).toNat.log2 = a.toNat.log2 + b.toNat.log2 := by
  have hp : bitPoly a * bitPoly b ≠ 0 := by rwa [← bitPoly_clmul, Ne, bitPoly_eq_zero_iff]
  simp only [← natDegree_bitPoly, bitPoly_clmul]
  exact natDegree_mul (left_ne_zero_of_mul hp) (right_ne_zero_of_mul hp)

/-! ### The irreducible polynomials of degree 8 (00_scope.md R8) -/

/-- The bytes of degree `i`, for `i` at most 7. -/
def bytesOfDegree (i : Nat) : List Byte := (List.range' (2 ^ i) (2 ^ i)).map (BitVec.ofNat 8)

theorem mem_bytesOfDegree {a : Byte} (h : a.toNat.log2 ≠ 0) : a ∈ bytesOfDegree a.toNat.log2 := by
  have hn : a.toNat ≠ 0 := fun h0 => h (by rw [h0, Nat.log2_zero])
  refine List.mem_map.2 ⟨a.toNat, List.mem_range'_1.2 ⟨Nat.log2_self_le hn, ?_⟩, by simp⟩
  rw [← Nat.two_mul, ← Nat.pow_succ']
  exact Nat.lt_log2_self

theorem log2_byte_lt (a : Byte) : a.toNat.log2 < 8 := by
  by_cases h : a.toNat = 0
  · simp [h]
  · exact (Nat.log2_lt h).2 a.isLt

/-- The products of degree 8 of two bytes, the factor of lower degree first. -/
def degreeEightProducts : List Nat :=
  [1, 2, 3, 4].flatMap fun i =>
    (bytesOfDegree i).flatMap fun a => (bytesOfDegree (8 - i)).map fun b => (clmul a b).toNat

/-- The 9-bit values of degree 8. -/
def degreeEightPolys : List (BitVec 9) := (List.range' 256 256).map (BitVec.ofNat 9)

theorem getLsbD_eight_iff (p : BitVec 9) : p.getLsbD 8 = true ↔ 256 ≤ p.toNat := by
  rw [← BitVec.msb_eq_getLsbD_last, BitVec.msb_eq_decide, decide_eq_true_iff]

theorem mem_degreeEightPolys (p : BitVec 9) : p ∈ degreeEightPolys ↔ p.getLsbD 8 = true := by
  rw [getLsbD_eight_iff]
  constructor
  · intro h
    obtain ⟨n, hn, rfl⟩ := List.mem_map.1 h
    rw [List.mem_range'_1] at hn
    rw [BitVec.toNat_ofNat]
    omega
  · intro h
    exact List.mem_map.2 ⟨p.toNat, List.mem_range'_1.2 ⟨h, p.isLt⟩, by simp⟩

theorem clmul_mem_degreeEightProducts {a b : Byte} (h0 : a.toNat.log2 ≠ 0) (h4 : a.toNat.log2 ≤ 4)
    (h : a.toNat.log2 + b.toNat.log2 = 8) : (clmul a b).toNat ∈ degreeEightProducts := by
  have hb : b ∈ bytesOfDegree (8 - a.toNat.log2) := by
    rw [show 8 - a.toNat.log2 = b.toNat.log2 by omega]
    exact mem_bytesOfDegree (by omega)
  have hi : a.toNat.log2 ∈ [1, 2, 3, 4] := by
    simp only [List.mem_cons, List.not_mem_nil]
    omega
  exact List.mem_flatMap.2 ⟨_, hi, List.mem_flatMap.2 ⟨a, mem_bytesOfDegree h0, List.mem_map.2 ⟨b, hb, rfl⟩⟩⟩

/-- Of two bytes with a product of degree 8, one has degree 1 to 4. -/
theorem mem_degreeEightProducts_iff {p : BitVec 9} (hp : p.getLsbD 8 = true) :
    p.toNat ∈ degreeEightProducts ↔ ∃ a b : Byte, clmul a b = p.setWidth 15 := by
  have hlo := (getLsbD_eight_iff p).1 hp
  have hw : (p.setWidth 15).toNat = p.toNat := BitVec.toNat_setWidth_of_le (by decide)
  constructor
  · intro h
    simp only [degreeEightProducts, List.mem_flatMap, List.mem_map] at h
    obtain ⟨i, -, a, -, b, -, hab⟩ := h
    exact ⟨a, b, BitVec.eq_of_toNat_eq (hab.trans hw.symm)⟩
  · rintro ⟨a, b, hab⟩
    have hne : clmul a b ≠ 0#15 := by
      intro h0
      rw [← hw, ← hab, h0] at hlo
      exact absurd hlo (by decide)
    have hsum : a.toNat.log2 + b.toNat.log2 = 8 := by
      rw [← log2_clmul hne, hab, hw, Nat.log2_eq_iff (by omega)]
      exact ⟨hlo, p.isLt⟩
    have ha := log2_byte_lt a
    have hb := log2_byte_lt b
    rw [← hw, ← hab]
    rcases Nat.lt_or_ge 4 a.toNat.log2 with h | h
    · rw [clmul_comm]
      exact clmul_mem_degreeEightProducts (by omega) (by omega) (by omega)
    · exact clmul_mem_degreeEightProducts (by omega) h hsum

/-- The sieve, evaluated: 256 values against the 1024 products. -/
theorem legalPolys_eq_filter :
    legalPolys = degreeEightPolys.filter fun p => !degreeEightProducts.contains p.toNat := by
  decide +kernel

theorem mem_legalPolys_iff (p : BitVec 9) :
    p ∈ legalPolys ↔ p.getLsbD 8 = true ∧ ∀ a b : Byte, clmul a b ≠ p.setWidth 15 := by
  rw [legalPolys_eq_filter, List.mem_filter, mem_degreeEightPolys]
  refine and_congr_right fun hp => ?_
  simp [mem_degreeEightProducts_iff hp]

/-! ### The order of 0x02 (00_scope.md R8) -/

/-- Multiplication by the element 0x02, the polynomial z: a shift and one reduction. -/
def timesZ (poly : BitVec 9) (v : Byte) : Byte := bif v.getLsbD 7 then v <<< 1 ^^^ poly.setWidth 8 else v <<< 1

theorem gmul_two (poly : BitVec 9) (v : Byte) : gmul poly v 0x02#8 = timesZ poly v := by
  have hprod : clmul v 0x02#8 = v.setWidth 15 <<< 1 := by simp [clmul, clmulBits]
  have high : ∀ i, 8 < i → (v.setWidth 15 <<< 1).getLsbD i = false := by
    intro i hi
    rw [BitVec.getLsbD_shiftLeft, BitVec.getLsbD_setWidth, BitVec.getLsbD_of_ge v (i - 1) (by omega)]
    simp
  have h8 : (v.setWidth 15 <<< 1).getLsbD 8 = v.getLsbD 7 := by simp
  rw [gmul, hprod, timesZ]
  simp only [reduceBits, high, h8, cond_false, Nat.reduceAdd, Nat.reduceLT]
  cases v.getLsbD 7 <;> simp

theorem iterate_timesZ (poly : BitVec 9) (k : Nat) :
    (timesZ poly)^[k] (timesZ poly 0x01#8) = gpow poly 0x02#8 (k + 1) := by
  induction k with
  | zero => exact (gmul_two poly 0x01#8).symm
  | succ k ih => rw [Function.iterate_succ_apply', ih, ← gmul_two, ← gpow]

/-- The least exponent from 1 to 255 with which 0x02 gives 0x01; 256 where there is none. -/
def orderOfZ (poly : BitVec 9) : Nat := (List.iterate (timesZ poly) (timesZ poly 0x01#8) 255).idxOf 0x01#8 + 1

theorem orderOfZ_eq_iff (poly : BitVec 9) : orderOfZ poly = 255 ↔
    gpow poly 0x02#8 255 = 0x01#8 ∧ ∀ k : Nat, 0 < k → k < 255 → gpow poly 0x02#8 k ≠ 0x01#8 := by
  rw [orderOfZ, Nat.succ_inj (b := 254), List.idxOf, List.findIdx_eq (by rw [List.length_iterate]; decide)]
  simp only [List.getElem_iterate, iterate_timesZ, Nat.reduceAdd, beq_iff_eq, beq_eq_false_iff_ne]
  refine and_congr_right fun _ => ⟨fun h k h0 hk => ?_, fun h j hj => h (j + 1) (by omega) (by omega)⟩
  obtain ⟨j, rfl⟩ := Nat.exists_eq_succ_of_ne_zero (Nat.ne_of_gt h0)
  exact h j (by omega)

/-- The order of 0x02, evaluated under each of the 30 legal values. -/
theorem primitivePolys_eq_filter : primitivePolys = legalPolys.filter fun p => orderOfZ p == 255 := by decide +kernel

/-- Settles O17: the legal values are the values of degree 8 that are no product of two bytes, the primitive ones are the
legal ones under which the first power of 0x02 to be 0x01 is the 255th. -/
theorem legalPolysAreTheIrreducibles : Obligations.LegalPolysAreTheIrreducibles := by
  refine ⟨mem_legalPolys_iff, rfl, rfl, fun p => ?_⟩
  rw [primitivePolys_eq_filter, List.mem_filter, beq_iff_eq, orderOfZ_eq_iff]

end Sys2Proof.Machine

/-! # The registers of the block (10_state.md R31 to R44)

A step performs the oldest pending transaction, so each statement reads off what that transaction does to the registers. No
transaction writes the parameters POLY and MEM_SIZE, and the constant registers are read from nothing else (R32 to R34). -/

namespace Sys2Proof.Machine

/-- A step performs the oldest pending transaction on the state without it and without an earlier reply (20_memory.md
R60). -/
theorem step_of_pending {s : State} {tr : Transaction} {rest : List Transaction} (h : s.pending = tr :: rest) :
    step s = transact tr { s with pending := rest, reply := none } := by
  rw [step, serve, h]

/-! ### Register writes -/

/-- A write to CMD of a word that decodes runs its command (R35). -/
theorem registerWrite_cmd_of_decode {w : Word} {i : Instr} (h : decode w = some i) (s : State) :
    registerWrite 0 w s = exec i s := by
  rw [registerWrite, if_pos (Fin.val_zero _), issue, h]

/-- A write to any other register has no effect (R36, R37). -/
theorem registerWrite_of_ne_zero {r : Fin 16} (h : r.val ≠ 0) (w : Word) (s : State) : registerWrite r w s = .next s :=
  if_neg h

/-- Settles O5: the step's transaction is the write to CMD, and that write runs the decoded command. -/
theorem stepRunsTheIssuedCommand : Obligations.StepRunsTheIssuedCommand := by
  intro s w i rest hp hd
  rw [step_of_pending hp]
  exact registerWrite_cmd_of_decode hd _

/-! ### Register reads -/

/-- POLY is hardwired to its parameter (R32). -/
theorem registerRead_poly (s : State) : registerRead s 8 = s.cfg.poly.setWidth 32 := rfl

/-- ID is a constant (R33). -/
theorem registerRead_id (s : State) : registerRead s 9 = 0x47463801#32 := rfl

/-- MEMSIZE is hardwired to its parameter (R34). -/
theorem registerRead_memSize (s : State) : registerRead s 10 = BitVec.ofNat 32 s.cfg.memSize := rfl

/-- The reserved indices read zero (R36). -/
theorem registerRead_reserved {r : Fin 16} (h : 11 ≤ r.val) (s : State) : registerRead s r = 0x00000000#32 := by
  obtain ⟨r, hr⟩ := r
  change 11 ≤ r at h
  interval_cases r <;> rfl

/-- The registers that a command can change all read zero at power-on, as does CMD (R44). -/
theorem registerRead_powerOn {r : Fin 16} (h : r.val ≤ 7) (c : Config) :
    registerRead (State.powerOn c) r = 0x00000000#32 := by
  obtain ⟨r, hr⟩ := r
  change r ≤ 7 at h
  interval_cases r
  iterate 6 rfl
  · exact (by decide : 0x0000#16 ++ 0x00#8 ++ 0x00#8 = 0x00000000#32)
  · rfl

/-- A register read answers the register's value and changes nothing else. -/
theorem step_of_pending_regRead {s : State} {r : Fin 16} {rest : List Transaction} (h : s.pending = .regRead r :: rest) :
    step s = .next { s with pending := rest, reply := some (.word (registerRead s r)) } :=
  step_of_pending h

/-- Settles O45: the value of each index is the field of the map, extended with zero bits to the left. -/
theorem registerReadsFollowTheMap : Obligations.RegisterReadsFollowTheMap := by
  refine ⟨fun s r rest h => step_of_pending_regRead h, fun s => ?_, fun c r h => registerRead_powerOn h c⟩
  have byte (x : Byte) : x.setWidth 32 = 0x000000#24 ++ x := BitVec.setWidth_eq_append (by decide)
  have half (x : Half) : x.setWidth 32 = 0x0000#16 ++ x := BitVec.setWidth_eq_append (by decide)
  have poly : s.cfg.poly.setWidth 32 = 0#23 ++ s.cfg.poly := BitVec.setWidth_eq_append (by decide)
  exact ⟨rfl, byte s.err, byte s.res, half s.src, half s.dst, half s.len, rfl, byte s.m, poly, registerRead_id s,
    registerRead_memSize s, fun _ h => registerRead_reserved h s⟩

/-- Settles O46: the write leaves the state that the step hands it, and the read answers the zero of a reserved index. -/
theorem otherRegisterWritesDoNothing : Obligations.OtherRegisterWritesDoNothing := by
  intro s r w rest hr
  constructor
  · intro hp
    rw [step_of_pending hp]
    exact registerWrite_of_ne_zero hr w _
  · intro hres hp
    rw [step_of_pending_regRead hp, registerRead_reserved hres]

/-! ### The constant registers -/

/-- A command keeps the parameters: it stores in RES, a parameter register, STATUS.ERR, DMEM and the provider only. -/
theorem exec_keeps_cfg {i : Instr} {s t : State} (h : exec i s = .next t) : t.cfg = s.cfg := by
  rcases exec_next_cases h with ⟨code, -, rfl⟩ | ⟨v, -, rfl⟩ | ⟨v, -, rfl⟩ | ⟨v, -, rfl⟩ | ⟨v, -, rfl⟩ | ⟨a, b, -, rfl⟩ |
    ⟨v, -, rfl⟩ | ⟨-, -, bs, -, rfl⟩ | ⟨-, -, bs, -, rfl⟩ <;> rfl

theorem registerWrite_keeps_cfg {r : Fin 16} {w : Word} {s t : State} (h : registerWrite r w s = .next t) :
    t.cfg = s.cfg := by
  rcases registerWrite_next_cases h with ⟨i, -, hi⟩ | ⟨-, rfl⟩ | ⟨-, rfl⟩
  · exact exec_keeps_cfg hi
  · exact s.raiseError_cfg .illegal
  · rfl

/-- Every transaction that goes on keeps the parameters, a reset included (70_reset_and_hazards.md R210). -/
theorem transact_keeps_cfg {tr : Transaction} {s t : State} (h : transact tr s = .next t) : t.cfg = s.cfg := by
  cases tr with
  | regWrite r w => exact registerWrite_keeps_cfg h
  | regRead r => exact Host.Outcome.next.inj h ▸ s.setReply_cfg _
  | busWrite offset data => exact registerWrite_keeps_cfg (busWrite_next h).2
  | busRead offset width =>
    obtain ⟨r, rfl⟩ := busRead_next h
    exact s.setReply_cfg r
  | hostMemWrite a v =>
    rcases hostMemWrite_next_cases h with ⟨-, rfl⟩ | ⟨-, rfl⟩
    · exact s.setMem_cfg _
    · rfl
  | hostMemRead a =>
    obtain ⟨r, rfl⟩ := hostMemRead_next h
    exact s.setReply_cfg r
  | reset => exact Host.Outcome.next.inj h ▸ s.resetRegisters_cfg
  | resetDuring w taken => exact Host.Outcome.next.inj h ▸ State.resetRegisters_cfg _

/-- Every step that goes on keeps POLY and MEM_SIZE. -/
theorem step_keeps_cfg {s t : State} (h : step s = .next t) : t.cfg = s.cfg := by
  rcases step_next_cases h with ⟨-, rfl⟩ | ⟨tr, rest, -, htr⟩
  · rfl
  · exact (transact_keeps_cfg htr :)

/-- Bit 8 of POLY reads 1, as a legal value has degree 8 (R32, 00_scope.md R8). -/
theorem getLsbD_registerRead_poly {s : State} (h : s.cfg.Legal) : (registerRead s 8).getLsbD 8 = true := by
  rw [registerRead_poly, BitVec.getLsbD_setWidth, ((mem_legalPolys_iff _).1 h.1).1]
  rfl

/-- MEMSIZE has room for every legal size (R34, 00_scope.md R9). -/
theorem toNat_registerRead_memSize {s : State} (h : s.cfg.Legal) : (registerRead s 10).toNat = s.cfg.memSize := by
  obtain ⟨-, -, hmax⟩ := h
  rw [registerRead_memSize, BitVec.toNat_ofNat, Nat.mod_eq_of_lt (by omega)]

/-- Settles O44: the three registers are read from the parameters alone, and no step changes the parameters. -/
theorem constantRegistersNeverChange : Obligations.ConstantRegistersNeverChange := by
  intro s hs
  refine ⟨registerRead_poly s, getLsbD_registerRead_poly hs, registerRead_id s, toNat_registerRead_memSize hs, ?_, ?_⟩
  · intro h
    rw [registerRead_memSize, h]
  · intro t h
    have hcfg := step_keeps_cfg h
    simp only [registerRead_poly, registerRead_id, registerRead_memSize, hcfg, and_self]

/-! ### Reset and power-on -/

/-- Settles O52: the reset transaction is `State.resetRegisters`, and the DMEM of power-on lists no byte. -/
theorem resetClearsRegistersKeepsDmem : Obligations.ResetClearsRegistersKeepsDmem := by
  constructor
  · intro s rest hp
    exact ⟨_, step_of_pending hp, rfl, rfl, rfl, rfl, rfl, rfl, rfl, rfl, rfl, rfl, rfl⟩
  · exact fun c => ⟨⟨rfl, rfl, rfl, rfl, rfl, rfl, rfl, rfl, rfl⟩, fun a => rfl⟩

/-- The power-on state of legal parameters meets the invariant: it lists no byte, and its code is 0x00. -/
theorem State.powerOn_inv {c : Config} (h : c.Legal) : (State.powerOn c).Inv where
  legal := h
  wf := List.Pairwise.nil
  within := List.forall_mem_nil _
  code := Nat.zero_le 6

/-- The reference parameters are legal (00_scope.md R8, R9). -/
theorem configReference_legal : Config.reference.Legal := by decide

/-- Settles O54: `State.reset` is the power-on state of the reference parameters. -/
theorem powerOnMeetsTheInvariant : Obligations.PowerOnMeetsTheInvariant :=
  ⟨fun _ => State.powerOn_inv, State.powerOn_inv configReference_legal⟩

end Sys2Proof.Machine

/-! # The ports and the reach of the engine (20_memory.md R53 to R56)

A byte-bus access is a register access under another name or no transaction at all, a memory-port access concerns one byte
inside DMEM or none, and a command reads and stores only in ranges that its checks found inside DMEM. -/

namespace Sys2Proof.Machine

/-! ### The byte bus (R55) -/

/-- The offset of a register is that of a whole aligned access. -/
theorem busAligned_four_mul (r : Fin 16) : BusAligned (4 * r.val) 4 := ⟨rfl, by omega, by omega⟩

theorem busRegister_four_mul (r : Fin 16) : busRegister (4 * r.val) = r := by
  rw [busRegister, Nat.mul_div_cancel_left _ (by decide), Fin.ofNat_eq_cast, Fin.cast_val_eq_self]

/-- A whole aligned write is the register write of the little-endian word. -/
theorem busWrite_four_mul (r : Fin 16) (b0 b1 b2 b3 : Byte) (s : State) :
    busWrite (4 * r.val) [b0, b1, b2, b3] s = registerWrite r (b3 ++ b2 ++ b1 ++ b0) s := by
  have h : BusAligned (4 * r.val) [b0, b1, b2, b3].length := busAligned_four_mul r
  rw [busWrite, if_pos h, busRegister_four_mul, wordOfBytes]

/-- A whole aligned read answers the bytes of the register. -/
theorem busRead_four_mul (r : Fin 16) (s : State) :
    busRead (4 * r.val) 4 s = .next (s.setReply (.bus (bytesOfWord (registerRead s r)))) := by
  rw [busRead, if_pos (busAligned_four_mul r), busRegister_four_mul]

/-- Every other write is refused. -/
theorem busWrite_of_not_aligned {offset : Nat} {data : List Byte} (h : ¬ BusAligned offset data.length) (s : State) :
    busWrite offset data s = .refused (.notATransaction offset data.length) := if_neg h

/-- Every other read is refused. -/
theorem busRead_of_not_aligned {offset width : Nat} (h : ¬ BusAligned offset width) (s : State) :
    busRead offset width s = .refused (.notATransaction offset width) := if_neg h

/-- The four bytes of a word, put together again, highest first. -/
theorem append_extractLsb'_bytes (w : Word) :
    w.extractLsb' 24 8 ++ w.extractLsb' 16 8 ++ w.extractLsb' 8 8 ++ w.extractLsb' 0 8 = w := by
  iterate 3 rw [BitVec.extractLsb'_append_extractLsb'_eq_extractLsb' (by rfl)]
  exact BitVec.extractLsb'_eq_self

/-- Settles O47: the offset 4r names register r, and the byte order of a write is that of a read. -/
theorem busAccessesAreWholeWords : Obligations.BusAccessesAreWholeWords := by
  intro s rest
  refine ⟨fun r b0 b1 b2 b3 hp => ?_, fun r hp => ?_, fun offset data hn hp => ?_, fun offset width hn hp => ?_⟩ <;>
    rw [step_of_pending hp]
  · rw [step_of_pending (tr := .regWrite r (b3 ++ b2 ++ b1 ++ b0)) rfl]
    exact busWrite_four_mul r b0 b1 b2 b3 _
  · exact ⟨_, _, _, _, append_extractLsb'_bytes (registerRead s r), busRead_four_mul r _⟩
  · exact busWrite_of_not_aligned hn _
  · exact busRead_of_not_aligned hn _

/-! ### The memory port (R56) -/

theorem hostMemWrite_of_lt {a : Half} {s : State} (v : Byte) (h : a.toNat < s.cfg.memSize) :
    hostMemWrite a v s = .next (s.setMem (s.mem.write a.toNat v)) := if_pos h

theorem hostMemWrite_of_le {a : Half} {s : State} (v : Byte) (h : s.cfg.memSize ≤ a.toNat) :
    hostMemWrite a v s = .next s := if_neg (Nat.not_lt.2 h)

theorem hostMemRead_of_written {a : Half} {s : State} {v : Byte} (h : a.toNat < s.cfg.memSize)
    (hv : s.mem.read a.toNat = some v) : hostMemRead a s = .next (s.setReply (.byte v)) := by
  rw [hostMemRead, if_pos h, hv]

theorem hostMemRead_of_unwritten {a : Half} {s : State} (h : a.toNat < s.cfg.memSize)
    (hv : s.mem.read a.toNat = none) : hostMemRead a s = .fault (.unwrittenByte a.toNat) := by
  rw [hostMemRead, if_pos h, hv]

theorem hostMemRead_of_le {a : Half} {s : State} (h : s.cfg.memSize ≤ a.toNat) :
    hostMemRead a s = .next (s.setReply (.byte 0x00#8)) := if_neg (Nat.not_lt.2 h)

/-- Settles O48: the step's transaction is the port's operation, and a write in canonical form changes one byte. -/
theorem memoryPortReadsAndWrites : Obligations.MemoryPortReadsAndWrites := by
  intro s a rest hwf
  refine ⟨fun v hp ha => ?_, fun v hp ha => ?_, fun hp ha => ⟨fun v hv => ?_, fun hv => ?_⟩, fun hp ha => ?_⟩ <;>
    rw [step_of_pending hp]
  · refine ⟨s.mem.write a.toNat v, hostMemWrite_of_lt v ha, ?_, fun x hx => ?_⟩
    · rw [Memory.read_write _ hwf, if_pos rfl]
    · rw [Memory.read_write _ hwf, if_neg hx]
  · exact hostMemWrite_of_le v ha
  · exact hostMemRead_of_written ha hv
  · exact hostMemRead_of_unwritten ha hv
  · exact hostMemRead_of_le ha

/-! ### What a command reads (R53) -/

theorem ByteRange.mem_addresses_iff {r : ByteRange} {a : Nat} : a ∈ r.addresses ↔ r.Has a := List.mem_range'_1

/-- An address of a range that was found inside DMEM lies below its size (60_exceptions.md R184). -/
theorem ByteRange.Fits.lt {r : ByteRange} {a memSize : Nat} (hfit : r.Fits memSize) (ha : r.Has a) : a < memSize :=
  Nat.lt_of_lt_of_le ha.2 hfit

/-- Byte `b` of share `j` lies in the share set (41_generator.md R123). -/
theorem shareSetRange_has {s : State} {j b : Nat} (hj : j < s.m.toNat) (hb : b < shareSize s) :
    (shareSetRange s).Has (shareAddress s s.src.toNat j + b) := by
  have hend : (j + 1) * shareSize s ≤ s.m.toNat * shareSize s := Nat.mul_le_mul_right _ hj
  rw [Nat.add_one_mul] at hend
  simp only [ByteRange.Has, shareSetRange, shareAddress]
  omega

/-- The index bytes that RECON reads lie in its share set (42_interpolator.md R141). -/
theorem shareSetRange_has_of_mem_indexAddresses {s : State} {a : Nat} (h : a ∈ indexAddresses s) :
    (shareSetRange s).Has a := by
  obtain ⟨j, hj, rfl⟩ := List.mem_map.1 h
  exact shareSetRange_has (List.mem_range.1 hj) (b := 0) (by rw [shareSize]; omega)

/-- The payload bytes that RECON reads lie in its share set (42_interpolator.md R141). -/
theorem shareSetRange_has_of_mem_payloadAddresses {s : State} {as : List Nat} {a : Nat} (h : as ∈ payloadAddresses s)
    (ha : a ∈ as) : (shareSetRange s).Has a := by
  obtain ⟨j, hj, rfl⟩ := List.mem_map.1 h
  obtain ⟨i, hi, rfl⟩ := List.mem_range'.1 ha
  rw [Nat.add_assoc]
  exact shareSetRange_has (List.mem_range.1 hj) (by rw [shareSize]; omega)

/-- A fault of EVAL names an unwritten coefficient. -/
theorem execEval_fault {x : Byte} {s : State} {f : Fault} (h : execEval x s = .fault f) :
    evalCheck s = none ∧ ∃ a, (coefficientRange s).Has a ∧ s.mem.read a = none ∧ f = .unwrittenByte a := by
  rcases execEval_cases x s with ⟨code, -, he⟩ | ⟨hc, g, hr, he⟩ | ⟨-, c, -, he⟩ <;> cases he.symm.trans h
  obtain ⟨a, ha, hn, hf⟩ := Memory.fault_of_readAll hr
  exact ⟨hc, a, ByteRange.mem_addresses_iff.1 ha, hn, hf⟩

/-- A fault of SPLIT names an unwritten byte of the secret, or tells of a provider that does not answer. -/
theorem execSplit_fault {s : State} {f : Fault} (h : execSplit s = .fault f) :
    splitCheck s = none ∧
      (f = .providerSilent ∨ ∃ a, (secretRange s).Has a ∧ s.mem.read a = none ∧ f = .unwrittenByte a) := by
  rcases execSplit_cases s with ⟨code, -, he⟩ | ⟨hc, g, hr, he⟩ | ⟨hc, -, he⟩ | ⟨-, -, secret, -, -, he⟩ <;>
    cases he.symm.trans h
  · obtain ⟨a, ha, hn, hf⟩ := Memory.fault_of_readAll hr
    exact ⟨hc, .inr ⟨a, ByteRange.mem_addresses_iff.1 ha, hn, hf⟩⟩
  · exact ⟨hc, .inl rfl⟩

/-- A fault of RECON names an unwritten byte of the share set. -/
theorem execRecon_fault {s : State} {f : Fault} (h : execRecon s = .fault f) :
    reconCheck s = none ∧ ∃ a, (shareSetRange s).Has a ∧ s.mem.read a = none ∧ f = .unwrittenByte a := by
  rcases execRecon_cases s with ⟨code, -, he⟩ | ⟨hc, g, hr, he⟩ | ⟨-, xs, -, -, he⟩ | ⟨hc, xs, -, -, g, hr, he⟩ |
    ⟨-, xs, -, -, payloads, -, he⟩ <;> cases he.symm.trans h
  · obtain ⟨a, ha, hn, hf⟩ := Memory.fault_of_readAll hr
    exact ⟨hc, a, shareSetRange_has_of_mem_indexAddresses ha, hn, hf⟩
  · obtain ⟨as, has, a, ha, hn, hf⟩ := Memory.fault_of_readRows hr
    exact ⟨hc, a, shareSetRange_has_of_mem_payloadAddresses has ha, hn, hf⟩

/-- GINV has no path that faults. -/
theorem execGinv_ne_fault (a : Byte) (s : State) (f : Fault) : execGinv a s ≠ .fault f := by
  rw [execGinv]
  split <;> exact nofun

/-- A fault of a command is SPLIT's wait for the provider, or names an unwritten byte inside DMEM: the command's checks
found the range that it reads inside DMEM. -/
theorem exec_fault_cases {i : Instr} {s : State} {f : Fault} (h : exec i s = .fault f) :
    (i = .split ∧ f = .providerSilent) ∨ ∃ a < s.cfg.memSize, s.mem.read a = none ∧ f = .unwrittenByte a := by
  cases i with
  | ginv a => exact absurd h (execGinv_ne_fault a s f)
  | eval x =>
    obtain ⟨hc, a, ha, hn, hf⟩ := execEval_fault h
    obtain ⟨-, hfit⟩ := (evalCheck_eq_none_iff s).1 hc
    exact .inr ⟨a, hfit.lt ha, hn, hf⟩
  | split =>
    obtain ⟨hc, hf | ⟨a, ha, hn, hf⟩⟩ := execSplit_fault h
    · exact .inl ⟨rfl, hf⟩
    · obtain ⟨-, ⟨hfit, -⟩, -⟩ := (splitCheck_eq_none_iff s).1 hc
      exact .inr ⟨a, hfit.lt ha, hn, hf⟩
  | recon =>
    obtain ⟨hc, a, ha, hn, hf⟩ := execRecon_fault h
    obtain ⟨-, ⟨hfit, -⟩, -⟩ := (reconCheck_eq_none_iff s).1 hc
    exact .inr ⟨a, hfit.lt ha, hn, hf⟩
  | gadd | gmul | gpow | setsrc | setdst | setlen | settn | setm => cases h

/-! ### What a command stores (R54) -/

/-- A command that goes on leaves DMEM alone, or stores its whole range, which its checks found inside DMEM. -/
theorem exec_next_mem {i : Instr} {s t : State} (h : exec i s = .next t) :
    t.mem = s.mem ∨ ∃ bs, bs.length = (storedRange i s).size ∧ (storedRange i s).Fits s.cfg.memSize ∧
      t.mem = s.mem.writeBytes (storedRange i s).base bs := by
  rcases exec_next_cases h with ⟨code, -, rfl⟩ | ⟨v, -, rfl⟩ | ⟨v, -, rfl⟩ | ⟨v, -, rfl⟩ | ⟨v, -, rfl⟩ | ⟨a, b, -, rfl⟩ |
    ⟨v, -, rfl⟩ | ⟨rfl, hc, bs, hl, rfl⟩ | ⟨rfl, hc, bs, hl, rfl⟩
  iterate 7 exact .inl rfl
  · obtain ⟨-, ⟨-, hfit⟩, -⟩ := (splitCheck_eq_none_iff s).1 hc
    exact .inr ⟨bs, hl, hfit, rfl⟩
  · obtain ⟨-, ⟨-, hfit⟩, -⟩ := (reconCheck_eq_none_iff s).1 hc
    exact .inr ⟨bs, hl, hfit, rfl⟩

/-- Bytes that fill a range leave the addresses outside it alone. -/
theorem Memory.read_writeBytes_of_not_has {mem : Memory} (wf : mem.wf) {r : ByteRange} {bs : List Byte}
    (hl : bs.length = r.size) {a : Nat} (ha : ¬ r.Has a) : (mem.writeBytes r.base bs).read a = mem.read a := by
  rw [Memory.read_writeBytes _ wf, hl, if_neg ha]

/-- Settles O50: the ranges that a command reads and stores were found inside DMEM. -/
theorem engineStaysInsideDmem : Obligations.EngineStaysInsideDmem := by
  intro i s hwf
  constructor
  · intro a h
    rcases exec_fault_cases h with ⟨-, hf⟩ | ⟨b, hb, hn, hf⟩
    · cases hf
    · cases hf
      exact ⟨hb, hn⟩
  · intro t h a ha
    rcases exec_next_mem h with hm | ⟨bs, hl, hfit, hm⟩
    · rw [hm]
    · rw [hm]
      exact Memory.read_writeBytes_of_not_has hwf hl fun hin => Nat.not_lt.2 ha (hfit.lt hin)

end Sys2Proof.Machine

/-! # Command words (30_encoding.md R70 to R75)

A word is its fields put together again, so a word with the OP byte of a row and a must-be-zero field of zero is the word
that row's format builds. The decoder and the opcode map both test exactly those two things. -/

namespace Sys2Proof

open Machine (append_extractLsb'_bytes)

/-! ### A word with the fields of a format is a word of that format (R71) -/

theorem eq_formatB {w : Word} {op : Byte} (hop : fieldOP w = op) (hz : w.extractLsb' 0 8 = 0x00#8) :
    w = formatB op (fieldA w) (fieldB w) := by
  rw [← hop, formatB, ← hz]
  exact (append_extractLsb'_bytes w).symm

theorem eq_formatU {w : Word} {op : Byte} (hop : fieldOP w = op) (hz : w.extractLsb' 0 16 = 0x0000#16) :
    w = formatU op (fieldA w) := by
  rw [← hop, formatU, ← hz, fieldOP, fieldA]
  iterate 2 rw [BitVec.extractLsb'_append_extractLsb'_eq_extractLsb' (by rfl)]
  exact BitVec.extractLsb'_eq_self.symm

theorem eq_formatI {w : Word} {op : Byte} (hop : fieldOP w = op) (hz : w.extractLsb' 16 8 = 0x00#8) :
    w = formatI op (fieldIMM w) := by
  rw [← hop, formatI, ← hz, fieldOP, fieldIMM]
  iterate 2 rw [BitVec.extractLsb'_append_extractLsb'_eq_extractLsb' (by rfl)]
  exact BitVec.extractLsb'_eq_self.symm

theorem eq_formatN {w : Word} {op : Byte} (hop : fieldOP w = op) (hz : w.extractLsb' 0 24 = 0x000000#24) :
    w = formatN op := by
  rw [← hop, formatN, ← hz, fieldOP, BitVec.extractLsb'_append_extractLsb'_eq_extractLsb' (by rfl)]
  exact BitVec.extractLsb'_eq_self.symm

/-! ### The decoder is the inverse of the encoder (R74) -/

/-- One row of the decoder: a word that decodes has the row's OP and a must-be-zero field of zero, or a later row decodes
it. -/
theorem decodeRow_eq_some {w : Word} {op : Byte} {k : Nat} {z : BitVec k} {i j : Instr} {later : Option Instr}
    (h : (if fieldOP w = op then whenZero z i else later) = some j) :
    (fieldOP w = op ∧ z = 0#k ∧ i = j) ∨ later = some j := by
  rcases ite_eq_iff.1 h with ⟨hop, hrow⟩ | ⟨-, hlater⟩
  · rcases ite_eq_iff.1 hrow with ⟨hz, hi⟩ | ⟨-, hnone⟩
    · exact .inl ⟨hop, hz, Option.some.inj hi⟩
    · cases hnone
  · exact .inr hlater

/-- The decoder reads back the row and the operands of every encoded command: OP picks the row, the must-be-zero field of
the row's format is zero, and the operand fields hold the operands. -/
theorem decode_encode (i : Instr) : decode (encode i) = some i := by
  cases i with
  | gadd | gmul | gpow | settn =>
    rw [encode, decode, fieldOP_formatB, fieldA_formatB, fieldB_formatB, zero_formatB]
    rfl
  | ginv | setm | eval =>
    rw [encode, decode, fieldOP_formatU, fieldA_formatU, zero_formatU]
    rfl
  | setsrc | setdst | setlen =>
    rw [encode, decode, fieldOP_formatI, fieldIMM_formatI, zero_formatI]
    rfl
  | split | recon =>
    rw [encode, decode, fieldOP_formatN, zero_formatN]
    rfl

/-- A word that decodes is the encoding of its command: each row of the decoder fixes OP and the must-be-zero field. -/
theorem eq_encode_of_decode {w : Word} {i : Instr} (h : decode w = some i) : w = encode i := by
  rw [decode] at h
  iterate 4
    rcases decodeRow_eq_some h with ⟨hop, hz, rfl⟩ | h
    · exact eq_formatB hop hz
  iterate 3
    rcases decodeRow_eq_some h with ⟨hop, hz, rfl⟩ | h
    · exact eq_formatU hop hz
  iterate 3
    rcases decodeRow_eq_some h with ⟨hop, hz, rfl⟩ | h
    · exact eq_formatI hop hz
  iterate 2
    rcases decodeRow_eq_some h with ⟨hop, hz, rfl⟩ | h
    · exact eq_formatN hop hz
  cases h

/-- Settles O2: the two directions are `decode_encode` and `eq_encode_of_decode`. -/
theorem decodeAndEncodeAgree : Obligations.DecodeAndEncodeAgree :=
  ⟨decode_encode, fun _ _ => eq_encode_of_decode⟩

/-- Settles O1: each legal word of the spec is the encoding of its command; the illegal words are run. -/
theorem decodesTheWordsOfTheSpec : Obligations.DecodesTheWordsOfTheSpec :=
  ⟨⟨decode_encode (.gadd 0x53#8 0xCA#8), decode_encode (.gmul 0x57#8 0x83#8), decode_encode (.ginv 0x53#8),
    decode_encode (.gpow 0x02#8 0xFE#8), decode_encode (.setsrc 0x0100#16), decode_encode (.setdst 0x0200#16),
    decode_encode (.setlen 0x0002#16), decode_encode (.settn 0x03#8 0x05#8), decode_encode (.setm 0x03#8),
    decode_encode (.eval 0x05#8), decode_encode .split, decode_encode .recon⟩,
    List.forall_iff_forall_mem.1 (by decide)⟩

/-! ### The rows of the opcode map (R73) -/

/-- Where a mask is all ones, a masked word shows its bits. -/
theorem extractLsb'_eq_of_and_eq {w mask pattern : Word} {k n : Nat} (h : w &&& mask = pattern)
    (hones : mask.extractLsb' k n = BitVec.allOnes n) : w.extractLsb' k n = pattern.extractLsb' k n := by
  rw [← h, BitVec.extractLsb'_and, hones, BitVec.and_allOnes]

theorem append_and_append_eq {n k : Nat} {x m r : BitVec n} {y m' r' : BitVec k} (hx : x &&& m = r)
    (hy : y &&& m' = r') : (x ++ y) &&& (m ++ m') = r ++ r' := by
  rw [BitVec.and_append, hx, hy]

/-- The row masks of formats B, U, I and N keep OP and the must-be-zero field. -/
theorem formatB_and_mask (op a b : Byte) : formatB op a b &&& 0xFF0000FF#32 = formatB op 0x00#8 0x00#8 :=
  show formatB op a b &&& (BitVec.allOnes 8 ++ 0x00#8 ++ 0x00#8 ++ BitVec.allOnes 8 : Word) = _ from
    append_and_append_eq (append_and_append_eq (append_and_append_eq BitVec.and_allOnes BitVec.and_zero)
      BitVec.and_zero) BitVec.and_allOnes

theorem formatU_and_mask (op a : Byte) : formatU op a &&& 0xFF00FFFF#32 = formatU op 0x00#8 :=
  show _ &&& (BitVec.allOnes 8 ++ 0x00#8 ++ BitVec.allOnes 16) = _ from
    append_and_append_eq (append_and_append_eq BitVec.and_allOnes BitVec.and_zero) BitVec.and_allOnes

theorem formatI_and_mask (op : Byte) (imm : Half) : formatI op imm &&& 0xFFFF0000#32 = formatI op 0x0000#16 :=
  show _ &&& (BitVec.allOnes 8 ++ BitVec.allOnes 8 ++ 0x0000#16) = _ from
    append_and_append_eq (append_and_append_eq BitVec.and_allOnes BitVec.and_allOnes) BitVec.and_zero

theorem formatN_and_mask (op : Byte) : formatN op &&& 0xFFFFFFFF#32 = formatN op := BitVec.and_allOnes

theorem eq_formatB_of_and_mask {w : Word} {op : Byte} (h : w &&& 0xFF0000FF#32 = formatB op 0x00#8 0x00#8) :
    w = formatB op (fieldA w) (fieldB w) :=
  eq_formatB ((extractLsb'_eq_of_and_eq h rfl).trans (fieldOP_formatB ..))
    ((extractLsb'_eq_of_and_eq h rfl).trans (zero_formatB ..))

theorem eq_formatU_of_and_mask {w : Word} {op : Byte} (h : w &&& 0xFF00FFFF#32 = formatU op 0x00#8) :
    w = formatU op (fieldA w) :=
  eq_formatU ((extractLsb'_eq_of_and_eq h rfl).trans (fieldOP_formatU ..))
    ((extractLsb'_eq_of_and_eq h rfl).trans (zero_formatU ..))

theorem eq_formatI_of_and_mask {w : Word} {op : Byte} (h : w &&& 0xFFFF0000#32 = formatI op 0x0000#16) :
    w = formatI op (fieldIMM w) :=
  eq_formatI ((extractLsb'_eq_of_and_eq h rfl).trans (fieldOP_formatI ..))
    ((extractLsb'_eq_of_and_eq h rfl).trans (zero_formatI ..))

theorem eq_formatN_of_and_mask {w : Word} {op : Byte} (h : w &&& 0xFFFFFFFF#32 = formatN op) : w = formatN op :=
  BitVec.and_allOnes.symm.trans h

/-- The encoding of a command matches the row of its mnemonic. -/
theorem encode_matches_row (i : Instr) :
    ∃ row ∈ opcodeTable, row.mnemonic = mnemonicOf i ∧ encode i &&& row.mask = row.pattern := by
  cases i with
  | gadd => exact ⟨opcodeTable[0], List.getElem_mem _, rfl, formatB_and_mask ..⟩
  | gmul => exact ⟨opcodeTable[1], List.getElem_mem _, rfl, formatB_and_mask ..⟩
  | ginv => exact ⟨opcodeTable[2], List.getElem_mem _, rfl, formatU_and_mask ..⟩
  | gpow => exact ⟨opcodeTable[3], List.getElem_mem _, rfl, formatB_and_mask ..⟩
  | setsrc => exact ⟨opcodeTable[4], List.getElem_mem _, rfl, formatI_and_mask ..⟩
  | setdst => exact ⟨opcodeTable[5], List.getElem_mem _, rfl, formatI_and_mask ..⟩
  | setlen => exact ⟨opcodeTable[6], List.getElem_mem _, rfl, formatI_and_mask ..⟩
  | settn => exact ⟨opcodeTable[7], List.getElem_mem _, rfl, formatB_and_mask ..⟩
  | setm => exact ⟨opcodeTable[8], List.getElem_mem _, rfl, formatU_and_mask ..⟩
  | eval => exact ⟨opcodeTable[9], List.getElem_mem _, rfl, formatU_and_mask ..⟩
  | split => exact ⟨opcodeTable[10], List.getElem_mem _, rfl, formatN_and_mask ..⟩
  | recon => exact ⟨opcodeTable[11], List.getElem_mem _, rfl, formatN_and_mask ..⟩

/-- A word that matches a row is the encoding of a command with the row's mnemonic. -/
theorem exists_encode_of_matches_row (w : Word) :
    ∀ row ∈ opcodeTable, w &&& row.mask = row.pattern → ∃ i, mnemonicOf i = row.mnemonic ∧ w = encode i := by
  simp only [opcodeTable, List.forall_mem_cons]
  exact ⟨fun h => ⟨.gadd _ _, rfl, eq_formatB_of_and_mask h⟩, fun h => ⟨.gmul _ _, rfl, eq_formatB_of_and_mask h⟩,
    fun h => ⟨.ginv _, rfl, eq_formatU_of_and_mask h⟩, fun h => ⟨.gpow _ _, rfl, eq_formatB_of_and_mask h⟩,
    fun h => ⟨.setsrc _, rfl, eq_formatI_of_and_mask h⟩, fun h => ⟨.setdst _, rfl, eq_formatI_of_and_mask h⟩,
    fun h => ⟨.setlen _, rfl, eq_formatI_of_and_mask h⟩, fun h => ⟨.settn _ _, rfl, eq_formatB_of_and_mask h⟩,
    fun h => ⟨.setm _, rfl, eq_formatU_of_and_mask h⟩, fun h => ⟨.eval _, rfl, eq_formatU_of_and_mask h⟩,
    fun h => ⟨.split, rfl, eq_formatN_of_and_mask h⟩, fun h => ⟨.recon, rfl, eq_formatN_of_and_mask h⟩, nofun⟩

theorem opcodeTable_mnemonics_nodup : (opcodeTable.map OpcodeRow.mnemonic).Nodup := by decide

theorem encode_injective {i j : Instr} (h : encode i = encode j) : i = j :=
  Option.some.inj ((decode_encode i).symm.trans ((congrArg decode h).trans (decode_encode j)))

/-- Settles O3: the words that match a row are exactly the encodings of the row's commands, and an encoding has one
command. -/
theorem decodeSelectsTheTableRow : Obligations.DecodeSelectsTheTableRow := by
  intro w
  refine ⟨fun i hi => ?_, fun hnone row hrow hsel => ?_, fun row hrow row' hrow' hsel hsel' => ?_⟩
  · rw [eq_encode_of_decode hi]
    exact encode_matches_row i
  · obtain ⟨i, -, rfl⟩ := exists_encode_of_matches_row w row hrow hsel
    cases hnone.symm.trans (decode_encode i)
  · obtain ⟨i, hm, hi⟩ := exists_encode_of_matches_row w row hrow hsel
    obtain ⟨j, hm', hj⟩ := exists_encode_of_matches_row w row' hrow' hsel'
    obtain rfl := encode_injective (hi.symm.trans hj)
    exact List.inj_on_of_nodup_map opcodeTable_mnemonics_nodup hrow hrow' (hm.symm.trans hm')

end Sys2Proof

/-! # The assembler and the disassembler (30_encoding.md R79 to R82)

A source command is accepted by its mnemonic's shape. A printed line is its mnemonic, one blank before each operand and a
comma between two, so reading it back finds the mnemonic at the first blank and the operands between the commas. -/

namespace Sys2Proof.Machine

/-! ### Operands that fit (R79) -/

theorem withByte_of_lt (f : Byte → Instr) {a : Nat} (h : a < 256) : withByte f a = some (f (BitVec.ofNat 8 a)) :=
  if_pos h

theorem withBytes_of_lt (f : Byte → Byte → Instr) {a b : Nat} (ha : a < 256) (hb : b < 256) :
    withBytes f a b = some (f (BitVec.ofNat 8 a) (BitVec.ofNat 8 b)) := if_pos ⟨ha, hb⟩

theorem withHalf_of_lt (f : Half → Instr) {a : Nat} (h : a < 65536) : withHalf f a = some (f (BitVec.ofNat 16 a)) :=
  if_pos h

@[simp] theorem isSome_withByte (f : Byte → Instr) (a : Nat) : (withByte f a).isSome = decide (a < 256) := by
  rw [withByte, Bool.eq_iff_iff, Option.isSome_ite, decide_eq_true_iff]

@[simp] theorem isSome_withBytes (f : Byte → Byte → Instr) (a b : Nat) :
    (withBytes f a b).isSome = (decide (a < 256) && decide (b < 256)) := by
  rw [withBytes, Bool.eq_iff_iff, Option.isSome_ite, Bool.and_eq_true, decide_eq_true_iff, decide_eq_true_iff]

@[simp] theorem isSome_withHalf (f : Half → Instr) (a : Nat) : (withHalf f a).isSome = decide (a < 65536) := by
  rw [withHalf, Bool.eq_iff_iff, Option.isSome_ite, decide_eq_true_iff]

/-- The assembler accepts a source command exactly when its operands are as many as the mnemonic has and each is below its
bound. -/
theorem isSome_assembleCommand (c : SourceCommand) : (assembleCommand c).isSome = c.wf := by
  obtain ⟨k, _ | ⟨a, _ | ⟨b, _ | ⟨d, rest⟩⟩⟩⟩ := c
  case nil => cases k <;> rfl
  case cons.nil =>
    cases k with
    | ginv | setm | eval | gsqr | setsrc | setdst | setlen =>
      simp [assembleCommand, SourceCommand.wf, Mnemonic.bounds]
    | _ => rfl
  case cons.cons.nil =>
    cases k with
    | gadd | gmul | gpow | settn | gsub => simp [assembleCommand, SourceCommand.wf, Mnemonic.bounds]
    | _ => rfl
  case cons.cons.cons => cases k <;> rfl

/-- Settles O56: acceptance is `isSome_assembleCommand`; the example lines of R79 are run. -/
theorem assemblerAcceptsWhatFits : Obligations.AssemblerAcceptsWhatFits :=
  ⟨isSome_assembleCommand,
    fun _ _ ha hb => ⟨withBytes_of_lt _ ha hb, withBytes_of_lt _ ha hb, withByte_of_lt _ ha, withBytes_of_lt _ ha hb,
      withBytes_of_lt _ ha hb, withByte_of_lt _ ha, withByte_of_lt _ ha⟩,
    fun _ ha => ⟨withHalf_of_lt _ ha, withHalf_of_lt _ ha, withHalf_of_lt _ ha⟩, rfl, rfl, by decide⟩

/-! ### Pseudo-instructions (R81) -/

/-- Settles O58: GSQR checks its one operand as GMUL checks its two equal ones; the other expansions and what GONE and GZERO
load are the model's own equations. -/
theorem pseudoInstructionsExpand : Obligations.PseudoInstructionsExpand := by
  refine ⟨fun a b => ⟨rfl, ?_⟩, rfl, rfl, by decide, fun s => ⟨rfl, rfl⟩⟩
  change withByte (fun v => .gmul v v) a = withBytes .gmul a a
  simp only [withByte, withBytes, and_self]

/-! ### Numerals (R79, R82) -/

theorem digitValue_hexDigit : ∀ d < 16, digitValue (hexDigit d) = some d := by decide

/-- Hexadecimal digits are no white space and no comma. -/
theorem hexDigit_ne_separator : ∀ d < 16, blankChar (hexDigit d) = false ∧ hexDigit d ≠ ',' := by decide

/-- The digits printed for a number are read back as its last `k` digits. -/
theorem numeral_hexDigits_append (k v acc : Nat) (cs : List Char) :
    numeral 16 acc (hexDigits k v ++ cs) = numeral 16 (acc * 16 ^ k + v % 16 ^ k) cs := by
  induction k generalizing v cs with
  | zero => simp [hexDigits, Nat.mod_one]
  | succ k ih =>
    have hd : v % 16 < 16 := Nat.mod_lt _ (by decide)
    rw [hexDigits, List.append_assoc, ih, List.singleton_append, numeral, digitValue_hexDigit _ hd]
    simp only [if_pos hd]
    congr 1
    rw [Nat.pow_succ', Nat.mod_mul]
    ring

theorem length_hexDigits (k v : Nat) : (hexDigits k v).length = k := by
  induction k generalizing v with
  | zero => rfl
  | succ k ih => simp [hexDigits, ih]

theorem hexDigits_ne_separator {k v : Nat} : ∀ c ∈ hexDigits k v, blankChar c = false ∧ c ≠ ',' := by
  induction k generalizing v with
  | zero => exact nofun
  | succ k ih =>
    intro c hc
    rcases List.mem_append.1 hc with hc | hc
    · exact ih c hc
    · rw [List.mem_singleton.1 hc]
      exact hexDigit_ne_separator _ (Nat.mod_lt _ (by decide))

theorem literal_hexDigits {k v : Nat} (hk : k ≠ 0) (hv : v < 16 ^ k) :
    literal ('0' :: 'x' :: hexDigits k v) = some v := by
  obtain ⟨d, ds, hd⟩ := List.exists_cons_of_ne_nil (List.ne_nil_of_length_pos
    (Nat.pos_of_ne_zero (length_hexDigits k v ▸ hk)))
  have hnum := numeral_hexDigits_append k v 0 []
  rw [List.append_nil, hd] at hnum
  rw [hd, literal, hnum, numeral, Nat.zero_mul, Nat.zero_add, Nat.mod_eq_of_lt hv]

/-- `w` is an operand text of value `v`: a literal without white space or commas. -/
structure OperandDenotes (w : List Char) (v : Nat) : Prop where
  plain : ∀ c ∈ w, blankChar c = false ∧ c ≠ ','
  value : literal w = some v

theorem operandDenotes_hexDigits {k v : Nat} (hk : k ≠ 0) (hv : v < 16 ^ k) :
    OperandDenotes (['0', 'x'] ++ hexDigits k v) v where
  plain c hc := by
    have hzerox : ∀ c ∈ ['0', 'x'], blankChar c = false ∧ c ≠ ',' := List.forall_iff_forall_mem.1 (by decide)
    rcases List.mem_append.1 hc with hc | hc
    · exact hzerox c hc
    · exact hexDigits_ne_separator c hc
  value := literal_hexDigits hk hv

theorem operandDenotes_byteText (b : Byte) : OperandDenotes (byteText b) b.toNat :=
  operandDenotes_hexDigits (by decide) b.isLt

theorem operandDenotes_halfText (h : Half) : OperandDenotes (halfText h) h.toNat :=
  operandDenotes_hexDigits (by decide) h.isLt

/-- The values of a command's operands, in source order. -/
def operandValues : Instr → List Nat
  | .gadd a b => [a.toNat, b.toNat]
  | .gmul a b => [a.toNat, b.toNat]
  | .ginv a => [a.toNat]
  | .gpow a n => [a.toNat, n.toNat]
  | .setsrc addr => [addr.toNat]
  | .setdst addr => [addr.toNat]
  | .setlen len => [len.toNat]
  | .settn t n => [t.toNat, n.toNat]
  | .setm m => [m.toNat]
  | .eval x => [x.toNat]
  | .split => []
  | .recon => []

theorem operandText_denotes (i : Instr) : List.Forall₂ OperandDenotes (operandText i) (operandValues i) := by
  cases i with
  | gadd a b | gmul a b | gpow a b | settn a b =>
    exact .cons (operandDenotes_byteText a) (.cons (operandDenotes_byteText b) .nil)
  | ginv a | setm a | eval a => exact .cons (operandDenotes_byteText a) .nil
  | setsrc a | setdst a | setlen a => exact .cons (operandDenotes_halfText a) .nil
  | split | recon => exact .nil

/-- A command's mnemonic and operand values assemble to the command. -/
theorem assembleCommand_operandValues (i : Instr) :
    assembleCommand { mnemonic := mnemonicOf i, operands := operandValues i } = some i := by
  cases i with
  | gadd a b | gmul a b | gpow a b | settn a b =>
    exact (withBytes_of_lt _ a.isLt b.isLt).trans (by rw [BitVec.ofNat_toNat, BitVec.ofNat_toNat]; rfl)
  | ginv a | setm a | eval a => exact (withByte_of_lt _ a.isLt).trans (by rw [BitVec.ofNat_toNat]; rfl)
  | setsrc a | setdst a | setlen a => exact (withHalf_of_lt _ a.isLt).trans (by rw [BitVec.ofNat_toNat]; rfl)
  | split | recon => rfl

/-! ### White space and commas (log entry 10) -/

/-- A text whose first and last characters are no white space. -/
structure Trimmed (cs : List Char) : Prop where
  head : ∃ c ∈ cs.head?, blankChar c = false
  last : ∃ c ∈ cs.getLast?, blankChar c = false

theorem Trimmed.ne_nil {cs : List Char} (h : Trimmed cs) : cs ≠ [] := by
  rintro rfl
  obtain ⟨c, hc, -⟩ := h.head
  cases hc

theorem Trimmed.trimBlanks_eq {cs : List Char} (h : Trimmed cs) : trimBlanks cs = cs := by
  obtain ⟨⟨c, hc, hcb⟩, ⟨d, hd, hdb⟩⟩ := h
  have hdrop : cs.dropWhile blankChar = cs := by
    obtain ⟨ds, rfl⟩ := List.head?_eq_some_iff.1 hc
    exact List.dropWhile_cons_of_neg (by simp [hcb])
  have hrdrop : cs.rdropWhile blankChar = cs := by
    obtain ⟨ds, rfl⟩ := List.getLast?_eq_some_iff.1 hd
    exact List.rdropWhile_concat_neg _ _ _ (by simp [hdb])
  rw [trimBlanks, hdrop]
  exact hrdrop

theorem trimBlanks_blank_cons (cs : List Char) : trimBlanks (' ' :: cs) = trimBlanks cs := rfl

theorem trimmed_of_plain {cs : List Char} (hne : cs ≠ []) (h : ∀ c ∈ cs, blankChar c = false) : Trimmed cs where
  head := ⟨cs.head hne, List.head_mem_head? hne, h _ (List.head_mem hne)⟩
  last := ⟨cs.getLast hne, List.getLast_mem_getLast? hne, h _ (List.getLast_mem hne)⟩

theorem Trimmed.append {u v : List Char} (hu : Trimmed u) (hv : Trimmed v) (m : List Char) : Trimmed (u ++ m ++ v) where
  head := by
    obtain ⟨c, hc, hcb⟩ := hu.head
    exact ⟨c, List.mem_head?_append_of_mem_head? (List.mem_head?_append_of_mem_head? hc), hcb⟩
  last := by
    obtain ⟨c, hc, hcb⟩ := hv.last
    exact ⟨c, List.mem_getLast?_append_of_mem_getLast? hc, hcb⟩

theorem OperandDenotes.trimmed {w : List Char} {v : Nat} (h : OperandDenotes w v) : Trimmed w :=
  trimmed_of_plain (by rintro rfl; cases h.value) fun c hc => (h.plain c hc).1

theorem splitCommas_of_plain {w : List Char} (h : ∀ c ∈ w, c ≠ ',') : splitCommas w = [w] := by
  induction w with
  | nil => rfl
  | cons c cs ih =>
    obtain ⟨hc, hcs⟩ := List.forall_mem_cons.1 h
    rw [splitCommas, if_neg hc, ih hcs]

theorem splitCommas_append_comma {w : List Char} (h : ∀ c ∈ w, c ≠ ',') (cs : List Char) :
    splitCommas (w ++ ',' :: cs) = w :: splitCommas cs := by
  induction w with
  | nil => rfl
  | cons c ds ih =>
    obtain ⟨hc, hds⟩ := List.forall_mem_cons.1 h
    rw [List.cons_append, splitCommas, if_neg hc, ih hds]

theorem splitCommas_ne_nil (cs : List Char) : splitCommas cs ≠ [] := by
  cases cs with
  | nil => exact nofun
  | cons c cs =>
    rw [splitCommas]
    split
    · exact nofun
    · split <;> exact nofun

theorem literals_cons {w : List Char} {v : Nat} (h : literal (trimBlanks w) = some v) (ws : List (List Char)) :
    literals (w :: ws) = (literals ws).map (v :: ·) := by
  rw [literals, h]
  cases literals ws <;> rfl

/-- A blank before the first operand is skipped. -/
theorem literals_splitCommas_blank (cs : List Char) :
    literals (splitCommas (' ' :: cs)) = literals (splitCommas cs) := by
  rw [splitCommas, if_neg (by decide)]
  cases h : splitCommas cs with
  | nil => exact absurd h (splitCommas_ne_nil cs)
  | cons w ws => rfl

/-- The operand part of a printed line begins with one blank and ends with an operand. -/
theorem operandList_eq_blank_cons {ws : List (List Char)} {vs : List Nat} (h : List.Forall₂ OperandDenotes ws vs)
    (hne : ws ≠ []) : ∃ body, operandList ws = ' ' :: body ∧ Trimmed body ∧ literals (splitCommas body) = some vs := by
  induction h with
  | nil => exact absurd rfl hne
  | @cons w v ws vs hw hws ih =>
    have hlit : literal (trimBlanks w) = some v := by rw [hw.trimmed.trimBlanks_eq, hw.value]
    have hcomma : ∀ c ∈ w, c ≠ ',' := fun c hc => (hw.plain c hc).2
    cases hws with
    | nil =>
      refine ⟨w, rfl, hw.trimmed, ?_⟩
      rw [splitCommas_of_plain hcomma, literals_cons hlit]
      rfl
    | @cons w' v' ws' vs' hw' hws' =>
      obtain ⟨body, hbody, htrim, hval⟩ := ih (List.cons_ne_nil _ _)
      refine ⟨w ++ [',', ' '] ++ body, ?_, hw.trimmed.append htrim _, ?_⟩
      · rw [operandList, hbody]
        · simp only [List.append_assoc, List.cons_append, List.nil_append]
        · exact List.cons_ne_nil _ _
      · rw [List.append_assoc, List.cons_append, List.singleton_append, splitCommas_append_comma hcomma,
          literals_cons hlit, literals_splitCommas_blank, hval]
        rfl

/-! ### Reading a printed line -/

theorem spelling_ne_nil (k : Mnemonic) : spelling k ≠ [] := by cases k <;> exact List.cons_ne_nil _ _

theorem spelling_plain (k : Mnemonic) : ∀ c ∈ spelling k, blankChar c = false :=
  List.forall_iff_forall_mem.1 (by cases k <;> decide)

theorem mnemonicNamed_spelling (k : Mnemonic) : mnemonicNamed (spelling k) = some k := by
  cases k <;> rfl

/-- A line's mnemonic ends at its first blank. -/
theorem takeWhile_append_blank {name : List Char} (h : ∀ c ∈ name, blankChar c = false) (cs : List Char) :
    (name ++ ' ' :: cs).takeWhile (fun c => !blankChar c) = name := by
  rw [List.takeWhile_append_of_pos fun c hc => by rw [h c hc]; rfl]
  exact List.append_nil name

theorem dropWhile_append_blank {name : List Char} (h : ∀ c ∈ name, blankChar c = false) (cs : List Char) :
    (name ++ ' ' :: cs).dropWhile (fun c => !blankChar c) = ' ' :: cs :=
  List.dropWhile_append_of_pos fun c hc => by rw [h c hc]; rfl

theorem parseLine_spelling (k : Mnemonic) : parseLine (spelling k) = some { mnemonic := k, operands := [] } := by
  cases k <;> rfl

theorem parseLine_append_blank {name body : List Char} (hname : ∀ c ∈ name, blankChar c = false) (hne : name ≠ [])
    (hbody : Trimmed body) :
    parseLine (name ++ ' ' :: body) = (mnemonicNamed name).bind fun k =>
      (literals (splitCommas body)).map fun vs => { mnemonic := k, operands := vs } := by
  have hline : trimBlanks (name ++ ' ' :: body) = name ++ ' ' :: body := by
    have h := ((trimmed_of_plain hne hname).append hbody [' ']).trimBlanks_eq
    rwa [List.append_assoc] at h
  simp only [parseLine, hline, takeWhile_append_blank hname, dropWhile_append_blank hname, trimBlanks_blank_cons,
    hbody.trimBlanks_eq, if_neg hbody.ne_nil]
  cases mnemonicNamed name with
  | none => rfl
  | some k => cases literals (splitCommas body) <;> rfl

/-- A mnemonic with a row of operands is read as the mnemonic with the operands' values. -/
theorem parseLine_operandList (k : Mnemonic) {ws : List (List Char)} {vs : List Nat}
    (h : List.Forall₂ OperandDenotes ws vs) :
    parseLine (spelling k ++ operandList ws) = some { mnemonic := k, operands := vs } := by
  cases ws with
  | nil =>
    cases h
    rw [operandList, List.append_nil, parseLine_spelling]
  | cons w ws =>
    obtain ⟨body, hbody, htrim, hval⟩ := operandList_eq_blank_cons h (List.cons_ne_nil w ws)
    rw [hbody, parseLine_append_blank (spelling_plain k) (spelling_ne_nil k) htrim, mnemonicNamed_spelling, hval]
    rfl

theorem disassemble_of_decode {w : Word} {i : Instr} (h : decode w = some i) :
    disassemble w = spelling (mnemonicOf i) ++ operandList (operandText i) := by rw [disassemble, h]

/-- What is printed for an illegal word is `.word` with a text that ends with the comment. -/
theorem disassemble_of_illegal {w : Word} (h : decode w = none) :
    ∃ body, Trimmed body ∧ disassemble w = ['.', 'w', 'o', 'r', 'd'] ++ ' ' :: body := by
  have hhead : Trimmed ['0', 'x'] := trimmed_of_plain (List.cons_ne_nil _ _) (List.forall_iff_forall_mem.1 (by decide))
  have hlast : Trimmed ['i', 'l', 'l', 'e', 'g', 'a', 'l'] :=
    trimmed_of_plain (List.cons_ne_nil _ _) (List.forall_iff_forall_mem.1 (by decide))
  refine ⟨_, hhead.append hlast (hexDigits 8 w.toNat ++ [' ', ';', ' ']), ?_⟩
  rw [disassemble, h]
  simp

theorem assembleLine_disassemble_of_decode {w : Word} {i : Instr} (h : decode w = some i) :
    assembleLine (disassemble w) = some w := by
  rw [assembleLine, disassemble_of_decode h, parseLine_operandList _ (operandText_denotes i)]
  simp only [assembleCommand_operandValues, ← eq_encode_of_decode h]

theorem assembleLine_disassemble_of_illegal {w : Word} (h : decode w = none) :
    assembleLine (disassemble w) = none := by
  obtain ⟨body, hbody, hline⟩ := disassemble_of_illegal h
  have hplain : ∀ c ∈ ['.', 'w', 'o', 'r', 'd'], blankChar c = false := List.forall_iff_forall_mem.1 (by decide)
  have hnone : mnemonicNamed ['.', 'w', 'o', 'r', 'd'] = none := by decide
  rw [assembleLine, hline, parseLine_append_blank hplain (List.cons_ne_nil _ _) hbody, hnone]
  rfl

/-- Settles O57: a decodable word prints a line whose parts are read back one by one, and `.word` is no mnemonic. -/
theorem disassemblyAssemblesBack : Obligations.DisassemblyAssemblesBack := by
  intro w
  refine ⟨fun h => ?_, assembleLine_disassemble_of_illegal⟩
  obtain ⟨i, hi⟩ := Option.isSome_iff_exists.1 h
  exact assembleLine_disassemble_of_decode hi

end Sys2Proof.Machine

/-! # The field GF(2)[z]/(POLY) (40_field.md R100 to R112)

A bit vector stands for the residue of its polynomial modulo POLY. Where POLY has degree 8, each residue is that of exactly
one byte, `gadd` and `gmul` add and multiply residues, and a law of the quotient ring is a law of the bytes. A legal POLY is
irreducible, so the ring is a field with 256 elements, which gives the laws of inverses and the exponent 255. -/

namespace Sys2Proof.Machine

open Polynomial

/-! ### Residues modulo POLY -/

theorem bitPoly_setWidth {w n : Nat} (v : BitVec w) (h : w ≤ n) : bitPoly (v.setWidth n) = bitPoly v := by
  ext i
  rw [coeff_bitPoly, coeff_bitPoly, BitVec.getLsbD_setWidth]
  by_cases hi : i < n
  · simp [hi]
  · simp [hi, BitVec.getLsbD_of_ge v i (by omega)]

/-- A shift that moves only zeros out of the word multiplies by a power of z. -/
theorem bitPoly_shiftLeft {w k : Nat} {v : BitVec w} (h : ∀ i, w ≤ i + k → v.getLsbD i = false) :
    bitPoly (v <<< k) = bitPoly v * X ^ k := by
  ext n
  rw [coeff_mul_X_pow', coeff_bitPoly, coeff_bitPoly, BitVec.getLsbD_shiftLeft]
  by_cases hk : k ≤ n
  · by_cases hn : n < w
    · simp [hk, hn, Nat.not_lt.2 hk]
    · simp [hn, h (n - k) (by omega)]
  · simp [hk, Nat.lt_of_not_le hk]

/-- Every polynomial of degree below `w` is written by a bit vector of width `w`. -/
theorem exists_bitPoly_eq {w : Nat} {f : (ZMod 2)[X]} (hf : ∀ n, w ≤ n → f.coeff n = 0) :
    ∃ v : BitVec w, bitPoly v = f := by
  refine ⟨BitVec.ofFnLE fun i => decide (f.coeff i = 1), ?_⟩
  have bit : ∀ c : ZMod 2, (if c = 1 then 1 else 0) = c := by decide
  ext n
  rw [coeff_bitPoly, BitVec.getLsbD_ofFnLE]
  by_cases hn : n < w
  · simp [hn, bit]
  · simp [hn, hf n (Nat.le_of_not_lt hn)]

/-- What a bit vector stands for modulo POLY: its polynomial's residue in GF(2)[z]/(POLY). -/
noncomputable def residue (poly : BitVec 9) {w : Nat} (v : BitVec w) : AdjoinRoot (bitPoly poly) :=
  AdjoinRoot.mk (bitPoly poly) (bitPoly v)

section Residue

variable {poly : BitVec 9} {w : Nat}

@[simp] theorem residue_zero : residue poly 0#w = 0 := by rw [residue, bitPoly_zero, map_zero]

@[simp] theorem residue_xor (u v : BitVec w) : residue poly (u ^^^ v) = residue poly u + residue poly v := by
  rw [residue, bitPoly_xor, map_add]
  rfl

theorem residue_setWidth {n : Nat} (v : BitVec w) (h : w ≤ n) : residue poly (v.setWidth n) = residue poly v := by
  rw [residue, bitPoly_setWidth v h]
  rfl

theorem residue_shiftLeft {k : Nat} {v : BitVec w} (h : ∀ i, w ≤ i + k → v.getLsbD i = false) :
    residue poly (v <<< k) = residue poly v * AdjoinRoot.root (bitPoly poly) ^ k := by
  rw [residue, bitPoly_shiftLeft h, map_mul, map_pow, AdjoinRoot.mk_X]
  rfl

@[simp] theorem residue_self : residue poly poly = 0 := AdjoinRoot.mk_self

theorem residue_shiftedPoly {k : Nat} (hk : k < 7) : residue poly (poly.setWidth 15 <<< k) = 0 := by
  rw [residue_shiftLeft, residue_setWidth poly (by decide), residue_self, zero_mul]
  intro i hi
  rw [BitVec.getLsbD_setWidth, BitVec.getLsbD_of_ge poly i (by omega), Bool.and_false]

theorem residue_one : residue poly 0x01#8 = 1 := by
  have h : bitPoly 0x01#8 = 1 := by simp [bitPoly]
  rw [residue, h, map_one]

/-- The residue is the sum of the powers of z at the set bits. -/
theorem residue_eq_sum (v : BitVec w) : residue poly v =
    ∑ j ∈ Finset.range w, if v.getLsbD j then AdjoinRoot.root (bitPoly poly) ^ j else 0 := by
  refine (map_sum (AdjoinRoot.mk (bitPoly poly)) _ _).trans (Finset.sum_congr rfl fun j _ => ?_)
  rw [apply_ite (AdjoinRoot.mk (bitPoly poly)), map_pow, AdjoinRoot.mk_X, map_zero]

theorem residue_gadd (a b : Byte) : residue poly (gadd a b) = residue poly a + residue poly b := residue_xor a b

end Residue

/-! ### The reduction loop (R102) -/

section Reduction

variable {poly : BitVec 9}

/-- POLY shifted by `k` is added where `q` has bit `k`: one round of the loop, and one term of the division. -/
def addShift (poly : BitVec 9) (q : Nat → Bool) (p : BitVec 15) (k : Nat) : BitVec 15 :=
  bif q k then p ^^^ (poly.setWidth 15 <<< k) else p

theorem addShift_addShift (q : Nat → Bool) (p : BitVec 15) (k : Nat) :
    addShift poly q (addShift poly q p k) k = p := by
  cases h : q k <;> simp [addShift, h]

theorem reduceBits_succ (poly : BitVec 9) (k : Nat) (p : BitVec 15) :
    reduceBits poly (k + 1) p = reduceBits poly k (addShift poly (fun j => p.getLsbD (j + 8)) p k) := rfl

theorem residue_addShift {k : Nat} (hk : k < 7) (q : Nat → Bool) (p : BitVec 15) :
    residue poly (addShift poly q p k) = residue poly p := by
  unfold addShift
  cases q k
  · rfl
  · rw [cond_true, residue_xor, residue_shiftedPoly hk, add_zero]

/-- Each round of the loop adds a multiple of POLY, or nothing. -/
theorem residue_reduceBits {k : Nat} (hk : k ≤ 7) (p : BitVec 15) :
    residue poly (reduceBits poly k p) = residue poly p := by
  induction k generalizing p with
  | zero => rfl
  | succ k ih => rw [reduceBits_succ, ih (by omega), residue_addShift (by omega)]

/-- A round of the loop clears its bit: POLY has bit 8 set, so POLY shifted by `k` has bit `8 + k` as its highest. -/
theorem getLsbD_reduceRound (hp : poly.getLsbD 8 = true) {k : Nat} (hk : k < 7) {p : BitVec 15}
    (h : ∀ i, k + 9 ≤ i → p.getLsbD i = false) {i : Nat} (hi : k + 8 ≤ i) :
    (addShift poly (fun j => p.getLsbD (j + 8)) p k).getLsbD i = false := by
  simp only [addShift]
  rcases Nat.eq_or_lt_of_le hi with rfl | hi
  · cases hb : p.getLsbD (k + 8)
    · exact hb
    · have h15 : k + 8 < 15 := by omega
      simp [-BitVec.getLsbD_eq_getElem, hb, hp, h15]
  · have hz : poly.getLsbD (i - k) = false := BitVec.getLsbD_of_ge poly _ (by omega)
    cases p.getLsbD (k + 8) <;> simp [h i hi, hz]

/-- The loop clears every bit from 8 up. -/
theorem getLsbD_reduceBits (hp : poly.getLsbD 8 = true) {k : Nat} (hk : k ≤ 7) {p : BitVec 15}
    (h : ∀ i, k + 8 ≤ i → p.getLsbD i = false) {i : Nat} (hi : 8 ≤ i) :
    (reduceBits poly k p).getLsbD i = false := by
  induction k generalizing p with
  | zero => exact h i (by omega)
  | succ k ih => exact ih (by omega) fun j hj => getLsbD_reduceRound hp hk (fun j hj => h j (by omega)) hj

/-- A value without a bit from 8 up needs no reduction. -/
theorem reduceBits_of_high_zero {p : BitVec 15} (h : ∀ i, 8 ≤ i → p.getLsbD i = false) (k : Nat) :
    reduceBits poly k p = p := by
  induction k with
  | zero => rfl
  | succ k ih => rw [reduceBits, h (k + 8) (by omega), cond_false, ih]

theorem getLsbD_reduceBits_clmul (hp : poly.getLsbD 8 = true) (a b : Byte) {i : Nat} (hi : 8 ≤ i) :
    (reduceBits poly 7 (clmul a b)).getLsbD i = false :=
  getLsbD_reduceBits hp (Nat.le_refl 7) (fun j hj => BitVec.getLsbD_of_ge _ j hj) hi

/-- A value without a bit from 8 up is what its low byte stands for. -/
theorem setWidth_setWidth_of_high_zero {w : Nat} {p : BitVec w} (h : ∀ i, 8 ≤ i → p.getLsbD i = false) :
    (p.setWidth 8).setWidth w = p := by
  apply BitVec.eq_of_getLsbD_eq
  intro i hi
  by_cases h8 : i < 8
  · simp [h8, hi, -BitVec.getLsbD_eq_getElem]
  · simp [h8, h i (by omega), -BitVec.getLsbD_eq_getElem]

/-- The byte that `gmul` keeps is the whole result of the loop. -/
theorem setWidth_gmul (hp : poly.getLsbD 8 = true) (a b : Byte) :
    (gmul poly a b).setWidth 15 = reduceBits poly 7 (clmul a b) :=
  setWidth_setWidth_of_high_zero fun _ => getLsbD_reduceBits_clmul hp a b

/-- The loop divides: bit `k` of the quotient says whether the round for bit `8 + k` added POLY, and adding those copies
back undoes the loop. -/
theorem exists_quotient (poly : BitVec 9) (k : Nat) (p : BitVec 15) :
    ∃ q : Nat → Bool, (List.range k).foldl (addShift poly q) (reduceBits poly k p) = p := by
  induction k generalizing p with
  | zero => exact ⟨fun _ => false, rfl⟩
  | succ k ih =>
    obtain ⟨q, hq⟩ := ih (addShift poly (fun j => p.getLsbD (j + 8)) p k)
    refine ⟨Function.update q k (p.getLsbD (k + 8)), ?_⟩
    have old : ∀ r, ∀ j ∈ List.range k,
        addShift poly (Function.update q k (p.getLsbD (k + 8))) r j = addShift poly q r j := by
      intro r j hj
      rw [addShift, Function.update_of_ne (Nat.ne_of_lt (List.mem_range.1 hj)), addShift]
    have new : ∀ r, addShift poly (Function.update q k (p.getLsbD (k + 8))) r k =
        addShift poly (fun j => p.getLsbD (j + 8)) r k := by
      intro r
      rw [addShift, Function.update_self, addShift]
    rw [List.range_succ, List.foldl_append, List.foldl_ext _ _ _ old, List.foldl_cons, List.foldl_nil, new]
    exact (congrArg (addShift poly _ · k) hq).trans (addShift_addShift _ p k)

/-- The carry-less product is the field product with shifted copies of POLY added (R102). -/
theorem exists_clmul_eq_foldl (hp : poly.getLsbD 8 = true) (a b : Byte) :
    ∃ q : BitVec 7, clmul a b = (List.range 7).foldl (addShift poly q.getLsbD) ((gmul poly a b).setWidth 15) := by
  obtain ⟨q, hq⟩ := exists_quotient poly 7 (clmul a b)
  refine ⟨BitVec.ofFnLE fun i => q i, ?_⟩
  have bits : ∀ r, ∀ j ∈ List.range 7,
      addShift poly (BitVec.ofFnLE fun i : Fin 7 => q i).getLsbD r j = addShift poly q r j := by
    intro r j hj
    rw [addShift, BitVec.getLsbD_ofFnLE, dif_pos (List.mem_range.1 hj), addShift]
  rw [setWidth_gmul hp, List.foldl_ext _ _ _ bits, hq]

end Reduction

/-! ### The bytes as the ring GF(2)[z]/(POLY) (R100 to R106) -/

section Ring

variable {poly : BitVec 9} (hp : poly.getLsbD 8 = true)

include hp

theorem natDegree_poly : (bitPoly poly).natDegree = 8 := by
  rw [natDegree_bitPoly]
  have h := (getLsbD_eight_iff poly).1 hp
  exact (Nat.log2_eq_iff (by omega)).2 ⟨h, poly.isLt⟩

theorem monic_poly : (bitPoly poly).Monic := by
  rw [Monic, leadingCoeff, natDegree_poly hp, coeff_bitPoly, hp, if_pos rfl]

/-- Two bytes with one residue are equal: their difference has a degree below that of POLY. -/
theorem residue_injective : Function.Injective (residue poly : Byte → AdjoinRoot (bitPoly poly)) := by
  intro a b h
  have hdvd : bitPoly poly ∣ bitPoly (a ^^^ b) := by
    rw [bitPoly_xor, ← CharTwo.sub_eq_add]
    exact AdjoinRoot.mk_eq_mk.1 h
  have hzero : bitPoly (a ^^^ b) = 0 := by
    refine eq_zero_of_dvd_of_natDegree_lt hdvd ?_
    rw [natDegree_poly hp, natDegree_bitPoly]
    exact log2_byte_lt _
  exact BitVec.xor_eq_zero_iff.1 (bitPoly_eq_zero_iff.1 hzero)

/-- Every residue is that of a byte: the remainder by POLY has degree at most 7. -/
theorem residue_surjective : Function.Surjective (residue poly : Byte → AdjoinRoot (bitPoly poly)) := by
  intro r
  obtain ⟨f, rfl⟩ := AdjoinRoot.mk_surjective r
  have hdeg : (f %ₘ bitPoly poly).natDegree < 8 := by
    rw [← natDegree_poly hp]
    refine natDegree_modByMonic_lt f (monic_poly hp) fun h1 => ?_
    have := natDegree_poly hp
    simp [h1] at this
  obtain ⟨a, ha⟩ := exists_bitPoly_eq (w := 8) fun n hn => coeff_eq_zero_of_natDegree_lt (Nat.lt_of_lt_of_le hdeg hn)
  refine ⟨a, ?_⟩
  rw [residue, ha]
  exact AdjoinRoot.mk_eq_mk.2 (dvd_modByMonic_sub f _)

theorem residue_bijective : Function.Bijective (residue poly : Byte → AdjoinRoot (bitPoly poly)) :=
  ⟨residue_injective hp, residue_surjective hp⟩

theorem residue_gmul (a b : Byte) : residue poly (gmul poly a b) = residue poly a * residue poly b := by
  calc residue poly (gmul poly a b)
    _ = residue poly (reduceBits poly 7 (clmul a b)) := by
      rw [← setWidth_gmul hp, residue_setWidth _ (by decide)]
    _ = residue poly (clmul a b) := residue_reduceBits (Nat.le_refl 7) _
    _ = residue poly a * residue poly b := by
      rw [residue, bitPoly_clmul, map_mul]
      rfl

theorem residue_gpow (a : Byte) (n : Nat) : residue poly (gpow poly a n) = residue poly a ^ n := by
  induction n with
  | zero => rw [gpow, residue_one, pow_zero]
  | succ n ih => rw [gpow, residue_gmul hp, ih, pow_succ]

theorem residue_gprod (as : List Byte) : residue poly (gprod poly as) = (as.map (residue poly)).prod := by
  induction as with
  | nil => exact residue_one
  | cons a as ih => rw [gprod, residue_gmul hp, ih, List.map_cons, List.prod_cons]

theorem gmul_comm (a b : Byte) : gmul poly a b = gmul poly b a :=
  residue_injective hp (by rw [residue_gmul hp, residue_gmul hp, mul_comm])

theorem gmul_assoc (a b c : Byte) : gmul poly (gmul poly a b) c = gmul poly a (gmul poly b c) :=
  residue_injective hp (by simp only [residue_gmul hp, mul_assoc])

theorem gmul_gadd (a b c : Byte) : gmul poly a (gadd b c) = gadd (gmul poly a b) (gmul poly a c) :=
  residue_injective hp (by simp only [residue_gmul hp, residue_gadd, mul_add])

theorem gmul_one (a : Byte) : gmul poly a 0x01#8 = a :=
  residue_injective hp (by rw [residue_gmul hp, residue_one, mul_one])

theorem gpow_one (a : Byte) : gpow poly a 1 = a :=
  residue_injective hp (by rw [residue_gpow hp, pow_one])

theorem gpow_add (a : Byte) (m n : Nat) : gpow poly a (m + n) = gmul poly (gpow poly a m) (gpow poly a n) :=
  residue_injective hp (by simp only [residue_gmul hp, residue_gpow hp, pow_add])

theorem gprod_perm {as bs : List Byte} (h : as.Perm bs) : gprod poly as = gprod poly bs :=
  residue_injective hp (by rw [residue_gprod hp, residue_gprod hp, (h.map _).prod_eq])

theorem gprod_append (as bs : List Byte) : gprod poly (as ++ bs) = gmul poly (gprod poly as) (gprod poly bs) :=
  residue_injective hp (by simp only [residue_gmul hp, residue_gprod hp, List.map_append, List.prod_append])

end Ring

/-! ### The second form of the multiplication (R102) -/

section SecondForm

variable {poly : BitVec 9}

/-- One doubling of the second form: a shift, and POLY added where the shift reached bit 8. -/
def double (poly t : BitVec 9) : BitVec 9 := bif (t <<< 1).getLsbD 8 then (t <<< 1) ^^^ poly else t <<< 1

theorem residue_double {t : BitVec 9} (ht : t.getLsbD 8 = false) :
    residue poly (double poly t) = residue poly t * AdjoinRoot.root (bitPoly poly) := by
  have hshift : residue poly (t <<< 1) = residue poly t * AdjoinRoot.root (bitPoly poly) := by
    rw [residue_shiftLeft, pow_one]
    intro i hi
    rcases Nat.eq_or_lt_of_le hi with h | h
    · rwa [← Nat.succ_inj.1 h]
    · exact BitVec.getLsbD_of_ge t i (Nat.lt_succ_iff.1 h)
  unfold double
  cases (t <<< 1).getLsbD 8
  · exact hshift
  · rw [cond_true, residue_xor, residue_self, add_zero, hshift]

theorem residue_setWidth_of_high_zero {t : BitVec 9} (ht : t.getLsbD 8 = false) :
    residue poly (t.setWidth 8) = residue poly t := by
  rw [← residue_setWidth (t.setWidth 8) (show 8 ≤ 9 by decide), setWidth_setWidth_of_high_zero]
  intro i hi
  rcases Nat.eq_or_lt_of_le hi with rfl | hi
  · exact ht
  · exact BitVec.getLsbD_of_ge t i hi

variable (hp : poly.getLsbD 8 = true)

include hp

theorem getLsbD_double (t : BitVec 9) : (double poly t).getLsbD 8 = false := by
  unfold double
  cases h : (t <<< 1).getLsbD 8
  · exact h
  · rw [cond_true, BitVec.getLsbD_xor, h, hp, Bool.xor_self]

/-- The rounds add `t·z^j` for every bit `j` that is set, from bit `i` of `b` on. -/
theorem residue_gmulShiftRounds (b : Byte) (k i : Nat) (p : Byte) {t : BitVec 9} (ht : t.getLsbD 8 = false) :
    residue poly (gmulShiftRounds poly b k i p t) = residue poly p +
      residue poly t * ∑ j ∈ Finset.range k, if b.getLsbD (i + j) then AdjoinRoot.root (bitPoly poly) ^ j else 0 := by
  induction k generalizing i p t with
  | zero => simp [gmulShiftRounds]
  | succ k ih =>
    have hround : residue poly (bif b.getLsbD i then p ^^^ t.setWidth 8 else p) =
        residue poly p + residue poly t * if b.getLsbD i then 1 else 0 := by
      cases b.getLsbD i <;> simp [residue_setWidth_of_high_zero ht]
    have hlater : AdjoinRoot.root (bitPoly poly) * (∑ j ∈ Finset.range k,
          if b.getLsbD (i + 1 + j) then AdjoinRoot.root (bitPoly poly) ^ j else 0) =
        ∑ j ∈ Finset.range k, if b.getLsbD (i + (j + 1)) then AdjoinRoot.root (bitPoly poly) ^ (j + 1) else 0 := by
      rw [Finset.mul_sum]
      refine Finset.sum_congr rfl fun j _ => ?_
      rw [Nat.add_right_comm i 1 j, Nat.add_assoc, mul_ite, mul_zero, pow_succ']
    rw [gmulShiftRounds]
    refine (ih (t := double poly t) (i + 1) _ (getLsbD_double hp t)).trans ?_
    rw [hround, residue_double ht, Finset.sum_range_succ', ← hlater, Nat.add_zero i, pow_zero, mul_assoc,
      add_assoc, ← mul_add, add_comm (ite _ _ _)]

theorem gmulShift_eq_gmul (a b : Byte) : gmulShift poly a b = gmul poly a b := by
  refine residue_injective hp ?_
  rw [gmulShift, residue_gmulShiftRounds hp b 8 0 _ (by simp), residue_zero, zero_add,
    residue_setWidth _ (by decide), residue_gmul hp, residue_eq_sum b]
  simp only [Nat.zero_add]

end SecondForm

/-- Settles O15: the loop clears the high bits and divides by POLY, and both forms of the product have one residue. -/
theorem multiplicationFormsAgree : Obligations.MultiplicationFormsAgree := fun _ hp a b =>
  ⟨fun _ => getLsbD_reduceBits_clmul hp a b, exists_clmul_eq_foldl hp a b, gmulShift_eq_gmul hp a b⟩

/-! ### Addition and sums (R101, R107, R112) -/

theorem gadd_comm (a b : Byte) : gadd a b = gadd b a := BitVec.xor_comm a b

theorem bitPoly_gsum (as : List Byte) : bitPoly (gsum as) = (as.map bitPoly).sum := by
  induction as with
  | nil => exact bitPoly_zero 8
  | cons a as ih => rw [gsum, gadd, bitPoly_xor, ih, List.map_cons, List.sum_cons]

theorem gsum_perm {as bs : List Byte} (h : as.Perm bs) : gsum as = gsum bs :=
  bitPoly_injective (by rw [bitPoly_gsum, bitPoly_gsum, (h.map _).sum_eq])

theorem gsum_append (as bs : List Byte) : gsum (as ++ bs) = gadd (gsum as) (gsum bs) :=
  bitPoly_injective (by rw [gadd, bitPoly_xor]; simp only [bitPoly_gsum, List.map_append, List.sum_append])

/-! ### The bytes as a field, under a legal POLY (R107 to R112) -/

theorem mem_allBytes (a : Byte) : a ∈ allBytes := List.mem_map.2 ⟨a.toNat, List.mem_range.2 a.isLt, by simp⟩

section LegalPoly

variable {poly : BitVec 9} (hl : poly ∈ legalPolys)

include hl

theorem getLsbD_eight_of_legal : poly.getLsbD 8 = true := ((mem_legalPolys_iff poly).1 hl).1

/-- A legal POLY is irreducible: two factors of lower degree would be two bytes with the carry-less product POLY. -/
theorem irreducible_poly : Irreducible (bitPoly poly) := by
  obtain ⟨hp, hprod⟩ := (mem_legalPolys_iff poly).1 hl
  have hdeg := natDegree_poly hp
  have hone : bitPoly poly ≠ 1 := by
    intro h
    rw [h, natDegree_one] at hdeg
    omega
  rw [(monic_poly hp).irreducible_iff_natDegree]
  refine ⟨hone, fun f g hf hg hfg => ?_⟩
  by_contra hpos
  have hsum := hf.natDegree_mul hg
  rw [hfg, hdeg] at hsum
  obtain ⟨a, rfl⟩ := exists_bitPoly_eq (w := 8) (f := f) fun n hn => coeff_eq_zero_of_natDegree_lt (by omega)
  obtain ⟨b, rfl⟩ := exists_bitPoly_eq (w := 8) (f := g) fun n hn => coeff_eq_zero_of_natDegree_lt (by omega)
  refine hprod a b (bitPoly_injective ?_)
  rw [bitPoly_clmul, hfg, bitPoly_setWidth poly (by decide)]

theorem residue_eq_zero_iff {a : Byte} : residue poly a = 0 ↔ a = 0x00#8 := by
  rw [← residue_zero (poly := poly) (w := 8), (residue_injective (getLsbD_eight_of_legal hl)).eq_iff]

theorem gmul_eq_zero {a b : Byte} (h : gmul poly a b = 0x00#8) : a = 0x00#8 ∨ b = 0x00#8 := by
  have : Fact (Irreducible (bitPoly poly)) := ⟨irreducible_poly hl⟩
  rw [← residue_eq_zero_iff hl, residue_gmul (getLsbD_eight_of_legal hl), mul_eq_zero] at h
  exact h.imp (residue_eq_zero_iff hl).1 (residue_eq_zero_iff hl).1

/-- The 255 units of the field: the powers of a non-zero element end in 0x01. -/
theorem gpow_255 {a : Byte} (ha : a ≠ 0x00#8) : gpow poly a 255 = 0x01#8 := by
  have hp := getLsbD_eight_of_legal hl
  have : Fact (Irreducible (bitPoly poly)) := ⟨irreducible_poly hl⟩
  let fin : Fintype (AdjoinRoot (bitPoly poly)) := Fintype.ofBijective _ (residue_bijective hp)
  have hcard : Fintype.card (AdjoinRoot (bitPoly poly)) = 256 :=
    (Fintype.card_of_bijective (residue_bijective hp)).symm.trans
      (FinEnum.card_eq_fintypeCard.symm.trans (FinEnum.card_bitVec 8))
  apply residue_injective hp
  rw [residue_gpow hp, residue_one, ← FiniteField.pow_card_sub_one_eq_one _ ((residue_eq_zero_iff hl).not.2 ha), hcard]

theorem gmul_gpow_254 {a : Byte} (ha : a ≠ 0x00#8) : gmul poly a (gpow poly a 254) = 0x01#8 := by
  rw [gmul_comm (getLsbD_eight_of_legal hl)]
  exact gpow_255 hl ha

/-- No element but 0x00 lacks an inverse, so the search of `ginv` ends at one. -/
theorem gmul_ginv {a : Byte} (ha : a ≠ 0x00#8) : gmul poly a (ginv poly a) = 0x01#8 := by
  rw [ginv]
  cases hf : allBytes.find? fun b => gmul poly a b == 0x01#8 with
  | none => exact absurd (beq_iff_eq.2 (gmul_gpow_254 hl ha)) (List.find?_eq_none.1 hf _ (mem_allBytes _))
  | some b => exact beq_iff_eq.1 (List.find?_some hf :)

/-- The inverse is unique. -/
theorem eq_ginv_of_gmul_eq_one {a b : Byte} (h : gmul poly a b = 0x01#8) : b = ginv poly a := by
  have hp := getLsbD_eight_of_legal hl
  have ha : a ≠ 0x00#8 := by
    rintro rfl
    rw [zero_gmul] at h
    exact absurd h (by decide)
  calc b
    _ = gmul poly b (gmul poly a (ginv poly a)) := by rw [gmul_ginv hl ha, gmul_one hp]
    _ = gmul poly (gmul poly a b) (ginv poly a) := by rw [← gmul_assoc hp, gmul_comm hp b a]
    _ = ginv poly a := by rw [h, gmul_comm hp, gmul_one hp]

theorem ginv_one : ginv poly 0x01#8 = 0x01#8 :=
  (eq_ginv_of_gmul_eq_one hl (gmul_one (getLsbD_eight_of_legal hl) _)).symm

theorem gpow_254 {a : Byte} (ha : a ≠ 0x00#8) : gpow poly a 254 = ginv poly a :=
  eq_ginv_of_gmul_eq_one hl (gmul_gpow_254 hl ha)

theorem ginv_ginv {a : Byte} (ha : a ≠ 0x00#8) : ginv poly (ginv poly a) = a := by
  refine (eq_ginv_of_gmul_eq_one hl ?_).symm
  rw [gmul_comm (getLsbD_eight_of_legal hl), gmul_ginv hl ha]

theorem ginv_gmul {a b : Byte} (ha : a ≠ 0x00#8) (hb : b ≠ 0x00#8) :
    ginv poly (gmul poly a b) = gmul poly (ginv poly a) (ginv poly b) := by
  have hp := getLsbD_eight_of_legal hl
  refine (eq_ginv_of_gmul_eq_one hl (residue_injective hp ?_)).symm
  simp only [residue_gmul hp]
  rw [mul_mul_mul_comm, ← residue_gmul hp, ← residue_gmul hp, gmul_ginv hl ha, gmul_ginv hl hb, residue_one, mul_one]

end LegalPoly

/-- Settles O12: multiplication is that of the field GF(2)[z]/(POLY), and 0x11A is the product of two bytes. -/
theorem multiplicationLaws : Obligations.MultiplicationLaws := by
  refine ⟨fun poly hl a b c => ?_, by decide, by decide⟩
  have hp := getLsbD_eight_of_legal hl
  exact ⟨(gmul_assoc hp a b c).symm, gmul_comm hp a b, gmul_gadd hp a b c, gmul_zero poly a, gmul_one hp a,
    gmul_eq_zero hl⟩

/-- Settles O13, each law by the uniqueness of the inverse. -/
theorem inverseLaws : Obligations.InverseLaws := fun _ hl _ ha =>
  ⟨gmul_ginv hl ha, ginv_ginv hl ha, fun _ hb => ginv_gmul hl ha hb⟩

/-- Settles O14: exponents add whatever their sum, and the field has 255 units. -/
theorem powerLaws : Obligations.PowerLaws := fun _ hl a =>
  ⟨fun m n _ => gpow_add (getLsbD_eight_of_legal hl) a m n, fun ha => ⟨gpow_255 hl ha, gpow_254 hl ha⟩⟩

/-- Settles O16: the residue of a sum is the sum of the residues, that of a product their product. -/
theorem sumsAndProductsAreOrderFree : Obligations.SumsAndProductsAreOrderFree := by
  intro poly hl as bs cs
  have hp := getLsbD_eight_of_legal hl
  exact ⟨fun h => ⟨gsum_perm h, gprod_perm hp h⟩, gsum_append as cs, gprod_append hp as cs⟩

/-- Settles O11: addition is XOR. -/
theorem additionLaws : Obligations.AdditionLaws := fun a b c =>
  ⟨(BitVec.xor_assoc a b c).symm, gadd_comm a b, gadd_self a, gadd_zero a⟩

end Sys2Proof.Machine

/-! # The Field-engine commands (40_field.md R103 to R106, R113)

Each command answers one field function of its operands and POLY; the corner cases and the laws of its statement are those
of the field. -/

namespace Sys2Proof.Machine

open Polynomial

/-! ### What the field functions give in their corner cases -/

/-- The carry-less product has no bit above the sum of the factors' degrees. -/
theorem getLsbD_clmul_of_lt {a b : Byte} {i j n : Nat} (ha : a.toNat < 2 ^ (i + 1)) (hb : b.toNat < 2 ^ (j + 1))
    (hn : i + j < n) : (clmul a b).getLsbD n = false := by
  have hdeg : ∀ {v : Byte} {k : Nat}, v.toNat < 2 ^ (k + 1) → (bitPoly v).natDegree ≤ k := by
    intro v k hv
    rw [natDegree_bitPoly]
    by_cases h0 : v.toNat = 0
    · simp [h0]
    · exact Nat.lt_succ_iff.1 ((Nat.log2_lt h0).2 hv)
  have hz : (bitPoly (clmul a b)).coeff n = 0 := by
    rw [bitPoly_clmul]
    exact coeff_eq_zero_of_natDegree_lt (Nat.lt_of_le_of_lt (natDegree_mul_le_of_le (hdeg ha) (hdeg hb)) hn)
  rw [coeff_bitPoly] at hz
  simpa using hz

/-- A product of degree at most 7 needs no reduction, whatever POLY is (R104). -/
theorem setWidth_gmul_of_degree_lt (poly : BitVec 9) {a b : Byte} {i j : Nat} (ha : a.toNat < 2 ^ (i + 1))
    (hb : b.toNat < 2 ^ (j + 1)) (hij : i + j < 8) : (gmul poly a b).setWidth 15 = clmul a b := by
  have high : ∀ n, 8 ≤ n → (clmul a b).getLsbD n = false := fun n hn => getLsbD_clmul_of_lt ha hb (by omega)
  rw [gmul, reduceBits_of_high_zero high, setWidth_setWidth_of_high_zero high]

theorem gpow_zero_of_ne_zero (poly : BitVec 9) {n : Nat} (hn : n ≠ 0) : gpow poly 0x00#8 n = 0x00#8 := by
  obtain ⟨k, rfl⟩ := Nat.exists_eq_succ_of_ne_zero hn
  rw [gpow, gmul_zero]

/-! ### The commands (R103 to R106) -/

section Commands

variable (s : State) (a b : Byte)

theorem exec_gadd : exec (.gadd a b) s = .next { s with res := gadd a b, err := 0x00#8 } := rfl

theorem exec_gmul : exec (.gmul a b) s = .next { s with res := gmul s.cfg.poly a b, err := 0x00#8 } := rfl

theorem exec_gpow : exec (.gpow a b) s = .next { s with res := gpow s.cfg.poly a b.toNat, err := 0x00#8 } := rfl

theorem exec_ginv_zero : exec (.ginv 0x00#8) s = .next { s with err := 0x02#8 } := by
  rw [exec, execGinv, if_pos rfl]
  rfl

theorem exec_ginv_of_ne_zero {a : Byte} (ha : a ≠ 0x00#8) :
    exec (.ginv a) s = .next { s with res := ginv s.cfg.poly a, err := 0x00#8 } := if_neg ha

/-- A GADD word whose Z field is not zero is illegal (R71). -/
theorem decode_gadd_of_ne_zero {z : Byte} (hz : z ≠ 0x00#8) : decode (0x01#8 ++ a ++ b ++ z) = none := by
  have hop : fieldOP (0x01#8 ++ a ++ b ++ z) = 0x01#8 := by
    ext i hi
    simp only [fieldOP, BitVec.getElem_extractLsb', BitVec.getLsbD_append]
    grind
  have hlow : (0x01#8 ++ a ++ b ++ z).extractLsb' 0 8 = z := BitVec.extractLsb'_append_eq_right
  rw [decode, if_pos hop, whenZero, hlow, if_neg hz]

end Commands

/-- Settles O6: addition is XOR, and the Z field of the word must be zero. -/
theorem gaddResult : Obligations.GaddResult :=
  ⟨fun a b s => ⟨rfl, rfl, exec_gadd s a b, gadd_self a, gadd_zero a, gadd_comm a b,
    fun _ hz => decode_gadd_of_ne_zero a b hz⟩, by decide⟩

/-- Settles O7: the corner cases are laws of the field, and a product of low degree is not reduced. -/
theorem gmulResult : Obligations.GmulResult := by
  refine ⟨fun a b s hs => ⟨rfl, exec_gmul s a b, gmul_zero _ a, ?_, ?_, fun i j => setWidth_gmul_of_degree_lt _⟩,
    by decide, by decide⟩
  · exact gmul_one (getLsbD_eight_of_legal hs.1) a
  · exact fun ha hb h => (gmul_eq_zero hs.1 h).elim ha hb

/-- Settles O8; the two examples by the uniqueness of the inverse. -/
theorem ginvResult : Obligations.GinvResult := by
  refine ⟨fun a s hs => ⟨rfl, fun ha => ?_, exec_ginv_zero s, ginv_one hs.1⟩, ?_, ?_⟩
  · exact ⟨ginv s.cfg.poly a, gmul_ginv hs.1 ha, fun _ => eq_ginv_of_gmul_eq_one hs.1, exec_ginv_of_ne_zero s ha, rfl,
      ginv_ginv hs.1 ha, gpow_254 hs.1 ha⟩
  · exact (eq_ginv_of_gmul_eq_one (by decide) (by decide)).symm
  · exact (eq_ginv_of_gmul_eq_one (by decide) (by decide)).symm

/-- Settles O9: the exponents 254 and 255 are those of the field's units. -/
theorem gpowResult : Obligations.GpowResult := by
  refine ⟨fun a n s hs => ⟨rfl, exec_gpow s a n, rfl, fun _ => rfl, fun hn => ?_, ?_, fun ha => ?_⟩,
    by decide +kernel, by decide +kernel⟩
  · exact gpow_zero_of_ne_zero _ fun h => hn (BitVec.eq_of_toNat_eq h)
  · exact gpow_one (getLsbD_eight_of_legal hs.1) a
  · exact ⟨gpow_255 hs.1 ha, gpow_254 hs.1 ha⟩

/-- Settles O10: each command answers a value of its operands and POLY, but for GINV of 0x00, which answers a code. -/
theorem fieldCommandsArePure : Obligations.FieldCommandsArePure := by
  rintro i ⟨a, b, rfl | rfl | rfl | rfl⟩ poly
  · exact ⟨some (gadd a b), 0x00#8, by simp, fun s _ => exec_gadd s a b⟩
  · exact ⟨some (gmul poly a b), 0x00#8, by simp, fun s hs => hs ▸ exec_gmul s a b⟩
  · exact ⟨some (gpow poly a b.toNat), 0x00#8, by simp, fun s hs => hs ▸ exec_gpow s a b⟩
  · by_cases ha : a = 0x00#8
    · exact ⟨none, 0x02#8, by simp, fun s _ => ha ▸ exec_ginv_zero s⟩
    · exact ⟨some (ginv poly a), 0x00#8, by simp, fun s hs => hs ▸ exec_ginv_of_ne_zero s ha⟩

end Sys2Proof.Machine

/-! # The frame of every command

What a command leaves alone, read off the cases of a command that goes on (`exec_next_cases`) and the range it stores
(`exec_next_mem`). -/

namespace Sys2Proof.Machine

/-- No arm of `exec` refuses its command. -/
theorem exec_ne_refused (i : Instr) (s : State) (r : Refusal) : exec i s ≠ .refused r := by
  intro h
  cases i with
  | ginv a =>
    by_cases ha : a = 0x00#8
    · cases (ha ▸ exec_ginv_zero s).symm.trans h
    · cases (exec_ginv_of_ne_zero s ha).symm.trans h
  | eval x => rcases execEval_cases x s with ⟨_, -, he⟩ | ⟨-, _, -, he⟩ | ⟨-, _, -, he⟩ <;> cases he.symm.trans h
  | split =>
    rcases execSplit_cases s with ⟨_, -, he⟩ | ⟨-, _, -, he⟩ | ⟨-, -, he⟩ | ⟨-, -, _, -, -, he⟩ <;>
      cases he.symm.trans h
  | recon =>
    rcases execRecon_cases s with ⟨_, -, he⟩ | ⟨-, _, -, he⟩ | ⟨-, _, -, -, he⟩ | ⟨-, _, -, -, _, -, he⟩ |
      ⟨-, _, -, -, _, -, he⟩ <;> cases he.symm.trans h
  | gadd | gmul | gpow | setsrc | setdst | setlen | settn | setm => cases h

/-- A command never touches the host's transactions or the reply. -/
theorem exec_keeps_pending_reply {i : Instr} {s t : State} (h : exec i s = .next t) :
    t.pending = s.pending ∧ t.reply = s.reply := by
  rcases exec_next_cases h with ⟨code, -, rfl⟩ | ⟨v, -, rfl⟩ | ⟨v, -, rfl⟩ | ⟨v, -, rfl⟩ | ⟨v, -, rfl⟩ | ⟨a, b, -, rfl⟩ |
    ⟨v, -, rfl⟩ | ⟨-, -, bs, -, rfl⟩ | ⟨-, -, bs, -, rfl⟩ <;> exact ⟨rfl, rfl⟩

/-- Only a SPLIT that reports success moves the provider, and only it and a RECON that reports success store in DMEM. -/
theorem exec_keeps_mem_rng {i : Instr} {s t : State} (h : exec i s = .next t) :
    (t.mem = s.mem ∧ t.rng = s.rng) ∨ (i = .split ∧ t.err = 0x00#8) ∨
      (i = .recon ∧ t.err = 0x00#8 ∧ t.rng = s.rng) := by
  rcases exec_next_cases h with ⟨code, -, rfl⟩ | ⟨v, -, rfl⟩ | ⟨v, -, rfl⟩ | ⟨v, -, rfl⟩ | ⟨v, -, rfl⟩ | ⟨a, b, -, rfl⟩ |
    ⟨v, -, rfl⟩ | ⟨rfl, -, bs, -, rfl⟩ | ⟨rfl, -, bs, -, rfl⟩
  iterate 7 exact .inl ⟨rfl, rfl⟩
  · exact .inr (.inl ⟨rfl, rfl⟩)
  · exact .inr (.inr ⟨rfl, rfl, rfl⟩)

/-- Settles O51: a store leaves the addresses outside its range alone, and only SPLIT and RECON store. -/
theorem commandFrame : Obligations.CommandFrame := by
  intro i s hwf
  refine ⟨exec_ne_refused i s, fun t h => ?_⟩
  have hcfg := exec_keeps_cfg h
  obtain ⟨hpending, hreply⟩ := exec_keeps_pending_reply h
  have hmem : ∀ a, ¬ (storedRange i s).Has a → t.mem.read a = s.mem.read a := by
    intro a ha
    rcases exec_next_mem h with hm | ⟨bs, hl, -, hm⟩
    · rw [hm]
    · rw [hm, Memory.read_writeBytes_of_not_has hwf hl ha]
  rcases exec_keeps_mem_rng h with ⟨hm, hr⟩ | ⟨rfl, he⟩ | ⟨rfl, he, hr⟩
  · exact ⟨hmem, fun _ _ => hm, fun _ => hm, hcfg, hpending, hreply, fun _ => hr⟩
  · exact ⟨hmem, fun hs => (hs rfl).elim, fun hn => (hn he).elim, hcfg, hpending, hreply,
      fun hd => (hd.elim (· rfl) (· he)).elim⟩
  · exact ⟨hmem, fun _ hn => (hn rfl).elim, fun hn => (hn he).elim, hcfg, hpending, hreply, fun _ => hr⟩

end Sys2Proof.Machine

/-! # The share generator (41_generator.md R120 to R131)

Horner's rule and the power sum obey one recursion over the coefficients. What EVAL and SPLIT answer is said once per
outcome of their checks and reads; a SPLIT that reports success leaves the state `afterSplit`, a RECON that does the state
`afterRecon`, and every statement about a stored byte is a read of one of these two states. -/

namespace Sys2Proof.Machine

/-! ### Evaluation (R121) -/

section Evaluation

variable {poly : BitVec 9}

theorem residue_gsum (bs : List Byte) : residue poly (gsum bs) = (bs.map (residue poly)).sum := by
  induction bs with
  | nil => exact residue_zero
  | cons b bs ih => rw [gsum, residue_gadd, ih, List.map_cons, List.sum_cons]

/-- At 0x00 only the constant term counts. -/
theorem peval_zero (poly : BitVec 9) (c : Byte) (cs : List Byte) : peval poly 0x00#8 (c :: cs) = c := by
  rw [peval, gmul_zero, zero_gadd]

/-- A constant polynomial, and every polynomial at 0x00, has its constant term as its value. -/
theorem peval_eq_constantTerm {x : Byte} {c : List Byte} (hc : c ≠ []) (h : c.length = 1 ∨ x = 0x00#8) :
    peval poly x c = c.getD 0 0x00#8 := by
  obtain ⟨b, bs, rfl⟩ := List.exists_cons_of_ne_nil hc
  rw [List.getD_cons_zero]
  rcases h with hl | rfl
  · obtain rfl : bs = [] := List.length_eq_zero_iff.1 (Nat.succ.inj hl)
    exact peval_singleton poly x b
  · exact peval_zero poly b bs

variable (hp : poly.getLsbD 8 = true)

include hp

theorem residue_pevalSum (x : Byte) (c : List Byte) : residue poly (pevalSum poly x c) =
    ((List.range c.length).map fun j => residue poly (c.getD j 0x00#8) * residue poly x ^ j).sum := by
  rw [pevalSum, residue_gsum, List.map_map]
  refine congrArg List.sum (List.map_congr_left fun j _ => ?_)
  exact (residue_gmul hp _ _).trans (by rw [residue_gpow hp])

/-- The power sum obeys Horner's recursion: every term but the first has a factor x. -/
theorem pevalSum_cons (x c : Byte) (cs : List Byte) :
    pevalSum poly x (c :: cs) = gadd (gmul poly (pevalSum poly x cs) x) c := by
  refine residue_injective hp ?_
  rw [residue_gadd, residue_gmul hp, residue_pevalSum hp, residue_pevalSum hp, List.length_cons,
    List.range_succ_eq_map, List.map_cons, List.sum_cons, List.map_map, List.getD_cons_zero, pow_zero, mul_one, add_comm,
    ← List.sum_map_mul_right]
  refine congrArg (fun l => List.sum l + _) (List.map_congr_left fun j _ => ?_)
  rw [Function.comp_apply, List.getD_cons_succ, pow_succ, mul_assoc]

theorem peval_eq_pevalSum (x : Byte) (c : List Byte) : peval poly x c = pevalSum poly x c := by
  induction c with
  | nil => rfl
  | cons c cs ih => rw [peval, ih, pevalSum_cons hp]

end Evaluation

/-- Settles O18, by the recursion that both forms obey. -/
theorem evaluationFormsAgree : Obligations.EvaluationFormsAgree := fun poly hl x c cs =>
  ⟨peval_eq_pevalSum (getLsbD_eight_of_legal hl) x (c :: cs), peval_singleton poly x c, rfl, peval_zero poly c cs⟩

/-! ### Reading consecutive bytes up to the first unwritten one (20_memory.md R52, R53) -/

theorem Memory.readAll_range'_fault {mem : Memory} {a n j : Nat} (hj : j < n) (hn : mem.read (a + j) = none)
    (hp : ∀ j' < j, mem.read (a + j') ≠ none) :
    mem.readAll (List.range' a n) = .error (.unwrittenByte (a + j)) := by
  rw [range'_eq_map]
  exact Memory.readAll_map_fault hj hn hp

/-! ### EVAL (R125) -/

section Eval

variable {x : Byte} {s : State}

theorem exec_eval_of_error {code : ErrorCode} (h : evalCheck s = some code) :
    exec (.eval x) s = .next (s.raiseError code) := by
  simp only [exec, execEval, h]

theorem exec_eval_of_readAll_error {f : Fault} (h : evalCheck s = none)
    (hr : s.mem.readAll (coefficientRange s).addresses = .error f) : exec (.eval x) s = .fault f := by
  simp only [exec, execEval, h, hr]

theorem exec_eval_of_readAll_ok {c : List Byte} (h : evalCheck s = none)
    (hr : s.mem.readAll (coefficientRange s).addresses = .ok c) :
    exec (.eval x) s = .next { s with res := peval s.cfg.poly x c, err := 0x00#8 } := by
  simp only [exec, execEval, h, hr]
  rfl

theorem evalCheck_eq_param (ht : s.t = 0x00#8) : evalCheck s = some .param := if_pos ht

theorem evalCheck_eq_range (ht : s.t ≠ 0x00#8) (h : s.cfg.memSize < s.src.toNat + s.t.toNat) :
    evalCheck s = some .range := (if_neg ht).trans (if_pos (Nat.not_le.2 h))

/-- With its coefficients written, EVAL answers their value. -/
theorem exec_eval_of_written {c : List Byte} (h : evalCheck s = none) (hl : c.length = s.t.toNat)
    (hc : ∀ j < c.length, s.mem.read (s.src.toNat + j) = some (c.getD j 0x00#8)) :
    exec (.eval x) s = .next { s with res := peval s.cfg.poly x c, err := 0x00#8 } :=
  exec_eval_of_readAll_ok h (Memory.readAll_range' hl hc)

/-- EVAL neither reads nor writes N. -/
theorem exec_eval_with_n {t : State} (n : Byte) (h : exec (.eval x) s = .next t) :
    exec (.eval x) { s with n := n } = .next { t with n := n } := by
  rcases execEval_cases x s with ⟨code, hc, he⟩ | ⟨-, f, -, he⟩ | ⟨hc, c, hr, he⟩ <;> cases he.symm.trans h
  · exact exec_eval_of_error (s := { s with n := n }) hc
  · exact exec_eval_of_readAll_ok (s := { s with n := n }) hc hr

end Eval

/-! ### What SPLIT answers (R126, R128) -/

/-- The state after a SPLIT of `secret` that reports success. -/
def State.afterSplit (s : State) (secret : List Byte) : State :=
  { s with
    mem := s.mem.writeBytes s.dst.toNat (shareAreaBytes s.cfg.poly (secret.mapIdx (splitPolynomial s)) s.n.toNat)
    rng := s.rng.after (splitDraws s)
    err := 0x00#8 }

/-- No code of a check is the code of success. -/
theorem ErrorCode.number_eq_zero {c : ErrorCode} (h : c.number = 0x00#8) : c = .ok := by
  cases c with
  | ok => rfl
  | illegal | invZero | param | range | overlap | share => exact absurd h (by decide)

section Split

variable {s t : State}

theorem exec_split_of_error {code : ErrorCode} (h : splitCheck s = some code) :
    exec .split s = .next (s.raiseError code) := by
  simp only [exec, execSplit, h]

theorem exec_split_of_readAll_error {f : Fault} (h : SplitReady s)
    (hr : s.mem.readAll (secretRange s).addresses = .error f) : exec .split s = .fault f := by
  simp only [exec, execSplit, (splitCheck_eq_none_iff_ready s).2 h, hr]

theorem splitCheck_eq_param (h : s.len = 0x0000#16 ∨ s.t = 0x00#8 ∨ s.n.toNat < s.t.toNat) :
    splitCheck s = some .param := if_pos h

theorem splitCheck_of_params (h : SplitParams s) : splitCheck s =
    if ¬ (secretRange s).Fits s.cfg.memSize ∨ ¬ (shareAreaRange s).Fits s.cfg.memSize then some .range
    else if (secretRange s).Overlaps (shareAreaRange s) then some .overlap
    else none := by
  obtain ⟨hlen, ht, htn⟩ := h
  exact if_neg (not_or.2 ⟨hlen, not_or.2 ⟨ht, Nat.not_lt.2 htn⟩⟩)

theorem splitCheck_eq_range (h : SplitParams s) (hr : ¬ SplitInRange s) : splitCheck s = some .range :=
  (splitCheck_of_params h).trans (if_pos (not_and_or.1 hr))

theorem splitCheck_eq_overlap (h : SplitParams s) (hr : SplitInRange s) (ho : SplitOverlap s) :
    splitCheck s = some .overlap :=
  (splitCheck_of_params h).trans <| (if_neg (not_or.2 ⟨not_not.2 hr.1, not_not.2 hr.2⟩)).trans (if_pos ho)

/-- With its checks passed, its secret read and its draws answered, SPLIT goes on. -/
theorem exec_split_of_readAll_ok {secret : List Byte} (h : SplitReady s)
    (hr : s.mem.readAll (secretRange s).addresses = .ok secret) (ha : s.rng.Answers (splitDraws s)) :
    exec .split s = .next (s.afterSplit secret) := by
  have hc := (splitCheck_eq_none_iff_ready s).2 h
  rcases execSplit_cases s with ⟨code, hc', -⟩ | ⟨-, f, hr', -⟩ | ⟨-, hn, -⟩ | ⟨-, -, secret', hr', -, he⟩
  · cases hc.symm.trans hc'
  · cases hr.symm.trans hr'
  · exact absurd ha hn
  · cases hr.symm.trans hr'
    exact he

/-- A SPLIT that reports success passed its checks and read its secret. -/
theorem exec_split_success (h : exec .split s = .next t) (he : t.err = 0x00#8) :
    SplitReady s ∧ ∃ secret, s.mem.readAll (secretRange s).addresses = .ok secret ∧ t = s.afterSplit secret := by
  rcases execSplit_cases s with ⟨code, hc, hx⟩ | ⟨-, f, -, hx⟩ | ⟨-, -, hx⟩ | ⟨hc, -, secret, hr, -, hx⟩ <;>
    cases hx.symm.trans h
  · obtain rfl := ErrorCode.number_eq_zero he
    rcases splitCheck_code hc with h | h | h <;> cases h
  · exact ⟨(splitCheck_eq_none_iff_ready s).1 hc, secret, hr, rfl⟩

end Split

/-! ### The bytes of the share area (R123, R127, R128) -/

section ShareArea

variable {s : State} {secret : List Byte} (hwf : s.mem.wf)
  (hr : s.mem.readAll (secretRange s).addresses = .ok secret)

include hr

theorem length_of_readAll_secret : secret.length = s.len.toNat := by
  simpa [ByteRange.addresses, secretRange] using Memory.length_of_readAll hr

theorem length_splitPolynomials : (secret.mapIdx (splitPolynomial s)).length = s.len.toNat := by
  rw [List.length_mapIdx, length_of_readAll_secret hr]

theorem read_secret {i : Nat} (hi : i < s.len.toNat) :
    s.mem.read (s.src.toNat + i) = some (secret.getD i 0x00#8) := Memory.read_of_readAll_range' hr hi

include hwf

/-- A SPLIT stores the bytes of its share area, and no byte outside it. -/
theorem read_afterSplit (a : Nat) : (s.afterSplit secret).mem.read a =
    if (shareAreaRange s).Has a then some ((shareAreaBytes s.cfg.poly (secret.mapIdx (splitPolynomial s)) s.n.toNat).getD
      (a - s.dst.toNat) 0x00#8) else s.mem.read a := by
  rw [State.afterSplit, Memory.read_writeBytes _ hwf, length_shareAreaBytes, length_splitPolynomials hr]
  rfl

theorem read_afterSplit_shareByte {k b : Nat} (hk : k < s.n.toNat) (hb : b < 1 + s.len.toNat) :
    (s.afterSplit secret).mem.read (shareByteAt s.dst.toNat s.len.toNat k b) =
      some ((shareAreaBytes s.cfg.poly (secret.mapIdx (splitPolynomial s)) s.n.toNat).getD
        (k * (1 + s.len.toNat) + b) 0x00#8) := by
  have hend : (k + 1) * (1 + s.len.toNat) ≤ s.n.toNat * (1 + s.len.toNat) := Nat.mul_le_mul_right _ hk
  rw [Nat.add_one_mul] at hend
  have hin : (shareAreaRange s).Has (shareByteAt s.dst.toNat s.len.toNat k b) := by
    simp only [ByteRange.Has, shareAreaRange, shareSize, shareByteAt]
    omega
  rw [read_afterSplit hwf hr, if_pos hin, shareByteAt, Nat.add_assoc, Nat.add_sub_cancel_left]

/-- Share number `k + 1` begins with its index. -/
theorem read_afterSplit_index {k : Nat} (hk : k < s.n.toNat) :
    (s.afterSplit secret).mem.read (shareByteAt s.dst.toNat s.len.toNat k 0) = some (BitVec.ofNat 8 (k + 1)) := by
  have h := getD_shareAreaBytes_index s.cfg.poly (secret.mapIdx (splitPolynomial s)) hk
  rw [length_splitPolynomials hr] at h
  rw [read_afterSplit_shareByte hwf hr hk (by omega), Nat.add_zero, h]

/-- Its payload byte `i` is the value at its index of the polynomial of position `i`. -/
theorem read_afterSplit_payload {k i : Nat} (hk : k < s.n.toNat) (hi : i < s.len.toNat) :
    (s.afterSplit secret).mem.read (shareByteAt s.dst.toNat s.len.toNat k (1 + i)) =
      some (peval s.cfg.poly (BitVec.ofNat 8 (k + 1)) (splitPolynomial s i (secret.getD i 0x00#8))) := by
  have hpolys := length_splitPolynomials hr
  have h := getD_shareAreaBytes_payload s.cfg.poly (secret.mapIdx (splitPolynomial s)) hk (hpolys.symm ▸ hi)
  have hpoly : (secret.mapIdx (splitPolynomial s)).getD i [] = splitPolynomial s i (secret.getD i 0x00#8) := by
    simp [List.getD_eq_getElem?_getD, length_of_readAll_secret hr, hi]
  rw [hpolys, hpoly] at h
  rw [read_afterSplit_shareByte hwf hr hk (by omega), ← Nat.add_assoc, h]

end ShareArea

/-! ### The polynomial of a byte position (R120, R122) -/

theorem length_splitPolynomial {s : State} (ht : s.t ≠ 0x00#8) (i : Nat) (b : Byte) :
    (splitPolynomial s i b).length = s.t.toNat := by
  have h0 : s.t.toNat ≠ 0 := fun h => ht (BitVec.eq_of_toNat_eq h)
  rw [splitPolynomial, List.length_cons, List.length_map, List.length_range]
  omega

/-- Coefficient `j` is the draw numbered `i·(T-1) + (j-1)`. -/
theorem getD_splitPolynomial {s : State} (i : Nat) (b : Byte) {j : Nat} (h1 : 1 ≤ j) (hj : j < s.t.toNat) :
    (splitPolynomial s i b).getD j 0x00#8 = s.rng.byteAt (i * (s.t.toNat - 1) + (j - 1)) := by
  obtain ⟨j, rfl⟩ := Nat.exists_eq_add_of_le' h1
  have hj' : j < s.t.toNat - 1 := by omega
  simp [splitPolynomial, List.getD_eq_getElem?_getD, hj']

theorem splitPolynomial_congr {s s' : State} (ht : s.t = s'.t) (i : Nat) (b : Byte)
    (hd : ∀ j < s.t.toNat - 1, s.rng.byteAt (i * (s.t.toNat - 1) + j) = s'.rng.byteAt (i * (s.t.toNat - 1) + j)) :
    splitPolynomial s i b = splitPolynomial s' i b := by
  rw [splitPolynomial, splitPolynomial, ← ht]
  exact congrArg (b :: ·) (List.map_congr_left fun j hj => hd j (List.mem_range.1 hj))

/-- A SPLIT that reports success stores in share number `k + 1`, at position `i`, the value at `k + 1` of the
polynomial of the secret byte it read there. -/
theorem exec_split_payload {s t : State} (hwf : s.mem.wf) (h : exec .split s = .next t) (he : t.err = 0x00#8) {i : Nat}
    (hi : i < s.len.toNat) : ∃ b, s.mem.read (s.src.toNat + i) = some b ∧ ∀ k < s.n.toNat,
      t.mem.read (shareByteAt s.dst.toNat s.len.toNat k (1 + i)) =
        some (peval s.cfg.poly (BitVec.ofNat 8 (k + 1)) (splitPolynomial s i b)) := by
  obtain ⟨-, secret, hr, rfl⟩ := exec_split_success h he
  exact ⟨_, read_secret hr hi, fun k hk => read_afterSplit_payload hwf hr hk hi⟩

/-- On the polynomial of a secret byte, EVAL at `k` answers the byte that SPLIT stored in share number `k` (R125). -/
theorem exec_eval_of_split {s t u : State} {k i : Nat} {b : Byte} (hwf : s.mem.wf) (h : exec .split s = .next t)
    (he : t.err = 0x00#8) (hk : 1 ≤ k) (hkn : k ≤ s.n.toNat) (hi : i < s.len.toNat)
    (hb : s.mem.read (s.src.toNat + i) = some b) (hcfg : u.cfg = s.cfg) (ht : u.t = s.t)
    (hfit : u.src.toNat + u.t.toNat ≤ u.cfg.memSize)
    (hc : ∀ j < u.t.toNat, u.mem.read (u.src.toNat + j) = some ((splitPolynomial s i b).getD j 0x00#8)) :
    ∃ y : Byte, t.mem.read (shareByteAt s.dst.toNat s.len.toNat (k - 1) (1 + i)) = some y ∧
      exec (.eval (BitVec.ofNat 8 k)) u = .next { u with res := y, err := 0x00#8 } := by
  obtain ⟨⟨⟨-, ht0, -⟩, -⟩, -⟩ := exec_split_success h he
  obtain ⟨b', hb', hread⟩ := exec_split_payload hwf h he hi
  obtain rfl : b' = b := Option.some.inj (hb'.symm.trans hb)
  have hl : (splitPolynomial s i b').length = u.t.toNat := by rw [length_splitPolynomial ht0, ht]
  have hcheck : evalCheck u = none := (evalCheck_eq_none_iff u).2 ⟨ht ▸ ht0, hfit⟩
  have hy := hread (k - 1) (by omega)
  rw [Nat.sub_add_cancel hk, ← hcfg] at hy
  exact ⟨_, hy, exec_eval_of_written hcheck hl fun j hj => hc j (hl ▸ hj)⟩

/-- Settles O19: EVAL's answer is fixed by its checks and by the read of its coefficients. -/
theorem evalBehaviour : Obligations.EvalBehaviour := by
  refine ⟨fun x s => ⟨rfl, fun ht => exec_eval_of_error (evalCheck_eq_param ht),
      fun ht h => exec_eval_of_error (evalCheck_eq_range ht h), fun ht hfit => ?_⟩,
    fun x n s t => exec_eval_with_n n, fun s t u k i b => exec_eval_of_split, by decide +kernel, by decide +kernel⟩
  have hcheck : evalCheck s = none := (evalCheck_eq_none_iff s).2 ⟨ht, hfit⟩
  refine ⟨fun c hl hc => ⟨exec_eval_of_written hcheck hl hc, fun h => ?_⟩, fun j hj hn hp => ?_⟩
  · have hne : c ≠ [] := by
      rintro rfl
      exact ht (BitVec.eq_of_toNat_eq hl.symm)
    exact peval_eq_constantTerm hne (h.imp_left fun h1 => hl.trans (congrArg BitVec.toNat h1))
  · exact exec_eval_of_readAll_error hcheck (Memory.readAll_range'_fault hj hn hp)

/-- Settles O20: the state of a SPLIT that goes on is `afterSplit` of its secret. -/
theorem splitBehaviour : Obligations.SplitBehaviour := by
  intro s hwf
  refine ⟨rfl, fun h => exec_split_of_error (splitCheck_eq_param h),
    fun h hr => exec_split_of_error (splitCheck_eq_range h hr),
    fun h hr ho => exec_split_of_error (splitCheck_eq_overlap h hr ho), fun hready => ⟨fun i hi hn hp => ?_, ?_⟩⟩
  · exact exec_split_of_readAll_error hready (Memory.readAll_range'_fault hi hn hp)
  · intro secret hl hsecret ha
    have hr : s.mem.readAll (secretRange s).addresses = .ok secret := Memory.readAll_range' hl hsecret
    refine ⟨s.afterSplit secret, exec_split_of_readAll_ok hready hr ha, rfl, fun k hk => ⟨?_, fun i hi => ?_⟩,
      fun a ha => ?_⟩
    · exact read_afterSplit_index hwf hr hk
    · rw [Nat.add_assoc]
      exact read_afterSplit_payload hwf hr hk hi
    · exact (read_afterSplit hwf hr a).trans (if_neg ha)

/-- Settles O21: the polynomial of a byte position is the list of its coefficients. -/
theorem splitSharesAreEvaluations : Obligations.SplitSharesAreEvaluations := by
  intro s t hwf h
  refine ⟨fun hne => ?_, fun he => ?_⟩
  · rcases exec_keeps_mem_rng h with ⟨-, hrng⟩ | ⟨-, he⟩ | ⟨hi, -⟩
    · exact hrng
    · exact absurd he hne
    · cases hi
  · obtain ⟨⟨⟨-, ht0, -⟩, -⟩, secret, hr, rfl⟩ := exec_split_success h he
    refine ⟨rfl, fun ht => ?_, fun k hk hkn => ?_⟩
    · have hdraws : splitDraws s = 0 := by rw [splitDraws, ht]; rfl
      exact (congrArg s.rng.after hdraws).trans (Provider.after_zero _)
    · have hk' : k - 1 < s.n.toNat := by omega
      have hindex := read_afterSplit_index hwf hr hk'
      rw [Nat.sub_add_cancel hk] at hindex
      have hindexNat : (BitVec.ofNat 8 k).toNat = k := (BitVec.toNat_ofNat ..).trans (Nat.mod_eq_of_lt (by omega))
      refine ⟨⟨_, hindex, hindexNat⟩, fun i hi => ⟨_, read_secret hr hi, ?_⟩⟩
      have hbyte := read_afterSplit_payload hwf hr hk' hi
      rw [Nat.sub_add_cancel hk] at hbyte
      exact ⟨_, length_splitPolynomial ht0 i _, rfl, fun j h1 hj => getD_splitPolynomial i _ h1 hj, hbyte⟩

/-! ### The bytes that RECON stores (42_interpolator.md R141) -/

/-- The state after a RECON of shares with the indices `xs` that reports success. -/
def State.afterRecon (s : State) (xs : List Byte) (payloads : List (List Byte)) : State :=
  { s with
    mem := s.mem.writeBytes s.dst.toNat (recoverBytes s.cfg.poly xs payloads s.len.toNat)
    err := 0x00#8 }

/-- A RECON that reports success read its indices and its payloads. -/
theorem exec_recon_success {s t : State} (h : exec .recon s = .next t) (he : t.err = 0x00#8) :
    ReconReady s ∧ ∃ xs payloads, s.mem.readAll (indexAddresses s) = .ok xs ∧ IndicesOk xs ∧
      s.mem.readRows (payloadAddresses s) = .ok payloads ∧ t = s.afterRecon xs payloads := by
  rcases execRecon_cases s with ⟨code, hc, hx⟩ | ⟨-, f, -, hx⟩ | ⟨-, xs, -, -, hx⟩ | ⟨-, xs, -, -, f, -, hx⟩ |
    ⟨hc, xs, hr, hxs, payloads, hp, hx⟩ <;> cases hx.symm.trans h
  · obtain rfl := ErrorCode.number_eq_zero he
    rcases reconCheck_code hc with h | h | h | h <;> cases h
  · cases ErrorCode.number_eq_zero (c := .share) he
  · exact ⟨(reconCheck_eq_none_iff_ready s).1 hc, xs, payloads, hr, hxs, hp, rfl⟩

/-- The output byte at position `i` combines the payload bytes at position `i`. -/
theorem read_afterRecon {s : State} (hwf : s.mem.wf) (xs : List Byte) (payloads : List (List Byte)) {i : Nat}
    (hi : i < s.len.toNat) : (s.afterRecon xs payloads).mem.read (s.dst.toNat + i) =
      some (combine s.cfg.poly (payloads.map fun y => y.getD i 0x00#8) (weights s.cfg.poly xs)) := by
  rw [State.afterRecon, Memory.read_writeBytes _ hwf, length_recoverBytes, if_pos (by omega), Nat.add_sub_cancel_left]
  simp [recoverBytes, List.getD_eq_getElem?_getD, hi]

/-- The indices that RECON reads, as the index bytes of the shares. -/
theorem map_some_of_readAll_indexAddresses {s : State} {xs : List Byte}
    (h : s.mem.readAll (indexAddresses s) = .ok xs) : xs.map some =
      (List.range s.m.toNat).map fun j => s.mem.read (shareByteAt s.src.toNat s.len.toNat j 0) := by
  rw [← (Memory.readAll_eq_ok_iff _ _ _).1 h, indexAddresses, List.map_map]
  rfl

/-- The column of the payloads at position `i`, as the shares' bytes at that position. -/
theorem map_some_of_readRows_payloadAddresses {s : State} {payloads : List (List Byte)}
    (h : s.mem.readRows (payloadAddresses s) = .ok payloads) {i : Nat} (hi : i < s.len.toNat) :
    (payloads.map fun y => y.getD i 0x00#8).map some =
      (List.range s.m.toNat).map fun j => s.mem.read (shareByteAt s.src.toNat s.len.toNat j (1 + i)) := by
  have hrows := (Memory.readRows_eq_ok_iff _ _ _).1 h
  rw [payloadAddresses, List.map_map] at hrows
  have hl : payloads.length = s.m.toNat := by simpa using (congrArg List.length hrows).symm
  refine List.ext_getElem (by simp [hl]) fun j h1 h2 => ?_
  have hj : j < s.m.toNat := by simpa using h2
  have hrow : s.mem.readAll (List.range' (shareAddress s s.src.toNat j + 1) s.len.toNat) = .ok payloads[j] := by
    simpa [hj, hl] using congrArg (fun l => l[j]?) hrows
  have hread := Memory.read_of_readAll_range' hrow hi
  rw [Nat.add_assoc] at hread
  simp only [List.getElem_map, List.getElem_range]
  exact hread.symm

/-! ### Byte positions are independent lanes (R124) -/

section Lanes

variable {s s' t t' : State} (hwf : s.mem.wf) (hwf' : s'.mem.wf) (hpoly : s.cfg.poly = s'.cfg.poly)
  (he : t.err = 0x00#8) (he' : t'.err = 0x00#8) {i : Nat} (hi : i < s.len.toNat) (hi' : i < s'.len.toNat)

include hwf hwf' hpoly he he' hi hi'

/-- A share byte depends on the secret byte, the draws and the share number only. -/
theorem exec_split_lane (h : exec .split s = .next t) (h' : exec .split s' = .next t') (ht : s.t = s'.t)
    (hb : s.mem.read (s.src.toNat + i) = s'.mem.read (s'.src.toNat + i))
    (hd : ∀ j < s.t.toNat - 1, s.rng.byteAt (i * (s.t.toNat - 1) + j) = s'.rng.byteAt (i * (s.t.toNat - 1) + j))
    {k : Nat} (hk : k < s.n.toNat) (hk' : k < s'.n.toNat) :
    t.mem.read (shareByteAt s.dst.toNat s.len.toNat k (1 + i)) =
      t'.mem.read (shareByteAt s'.dst.toNat s'.len.toNat k (1 + i)) := by
  obtain ⟨b, hsb, hread⟩ := exec_split_payload hwf h he hi
  obtain ⟨b', hsb', hread'⟩ := exec_split_payload hwf' h' he' hi'
  obtain rfl : b = b' := Option.some.inj (hsb.symm.trans (hb.trans hsb'))
  rw [hread k hk, hread' k hk', hpoly, splitPolynomial_congr ht i b hd]

/-- A recovered byte depends on the indices and the payload bytes of its position only. -/
theorem exec_recon_lane (h : exec .recon s = .next t) (h' : exec .recon s' = .next t') (hm : s.m = s'.m)
    (hb : ∀ j < s.m.toNat,
      s.mem.read (shareByteAt s.src.toNat s.len.toNat j 0) = s'.mem.read (shareByteAt s'.src.toNat s'.len.toNat j 0) ∧
      s.mem.read (shareByteAt s.src.toNat s.len.toNat j (1 + i)) =
        s'.mem.read (shareByteAt s'.src.toNat s'.len.toNat j (1 + i))) :
    t.mem.read (s.dst.toNat + i) = t'.mem.read (s'.dst.toNat + i) := by
  obtain ⟨-, xs, payloads, hx, -, hp, rfl⟩ := exec_recon_success h he
  obtain ⟨-, xs', payloads', hx', -, hp', rfl⟩ := exec_recon_success h' he'
  have some_inj : Function.Injective (List.map (some : Byte → Option Byte)) :=
    List.map_injective_iff.2 (Option.some_injective _)
  have hindices : xs = xs' := by
    refine some_inj ?_
    rw [map_some_of_readAll_indexAddresses hx, map_some_of_readAll_indexAddresses hx', ← hm]
    exact List.map_congr_left fun j hj => (hb j (List.mem_range.1 hj)).1
  have hcolumn : (payloads.map fun y => y.getD i 0x00#8) = payloads'.map fun y => y.getD i 0x00#8 := by
    refine some_inj ?_
    rw [map_some_of_readRows_payloadAddresses hp hi, map_some_of_readRows_payloadAddresses hp' hi', ← hm]
    exact List.map_congr_left fun j hj => (hb j (List.mem_range.1 hj)).2
  rw [read_afterRecon hwf xs payloads hi, read_afterRecon hwf' xs' payloads' hi', hpoly, hindices, hcolumn]

end Lanes

/-- Settles O23, one lane at a time. -/
theorem bytePositionsAreIndependent : Obligations.BytePositionsAreIndependent :=
  fun _ _ _ _ hwf hwf' hpoly he he' =>
    ⟨fun h h' ht _ hi hi' hb hd _ => exec_split_lane hwf hwf' hpoly he he' hi hi' h h' ht hb hd,
      fun h h' hm _ hi hi' => exec_recon_lane hwf hwf' hpoly he he' hi hi' h h' hm⟩

end Sys2Proof.Machine

/-! # Interpolation at zero (42_interpolator.md R140, R147)

Over the field of a legal POLY a weight is the value at zero of a Lagrange basis polynomial, so shares whose bytes are the
values of one polynomial with at most as many coefficients as there are shares combine to that polynomial's value at 0x00.
The polynomials are those that `peval` evaluates; they are equal where they agree at as many points as they have
coefficients. -/

namespace Sys2Proof.Machine

open Polynomial

/-! ### The weights, share by share (R140) -/

/-- The weight of the share with index `x` among shares with the indices `xs`. -/
def indexWeight (poly : BitVec 9) (xs : List Byte) (x : Byte) : Byte :=
  gprod poly ((xs.erase x).map (weightFactor poly x))

theorem weight_eq_indexWeight (poly : BitVec 9) {xs : List Byte} (hx : xs.Nodup) {j : Nat} (hj : j < xs.length) :
    weight poly xs j = indexWeight poly xs xs[j] := by
  rw [weight, indexWeight, hx.erase_getElem, List.getD_eq_getElem _ _ hj]

theorem weights_eq_map_indexWeight (poly : BitVec 9) {xs : List Byte} (hx : xs.Nodup) :
    weights poly xs = xs.map (indexWeight poly xs) := by
  refine List.ext_getElem (by simp [weights]) fun j h1 h2 => ?_
  rw [length_weights] at h1
  simp only [weights, List.getElem_map, List.getElem_range]
  exact weight_eq_indexWeight poly hx h1

theorem getD_weights (poly : BitVec 9) {xs : List Byte} {j : Nat} (hj : j < xs.length) :
    (weights poly xs).getD j 0x00#8 = weight poly xs j := by
  simp [weights, List.getD_eq_getElem?_getD, hj]

/-- One combined byte, where the shares' bytes are a function of their indices. -/
theorem combine_map_weights (poly : BitVec 9) {xs : List Byte} (hx : xs.Nodup) (f : Byte → Byte) :
    combine poly (xs.map f) (weights poly xs) = gsum (xs.map fun x => gmul poly (f x) (indexWeight poly xs x)) := by
  rw [combine, weights_eq_map_indexWeight poly hx, List.zipWith_map, List.zipWith_self]

/-- A list is its entries by number. -/
theorem map_getD_range {α : Type} (l : List α) (d : α) : (List.range l.length).map (fun k => l.getD k d) = l :=
  List.ext_getElem (by simp) fun k _ hk => by simp [hk]

/-- The other indices, as the list without one entry and as a selection by share number. -/
theorem eraseIdx_eq_map_filter_range {xs : List Byte} {j : Nat} (hj : j < xs.length) :
    xs.eraseIdx j = ((List.range xs.length).filter fun k => k ≠ j).map fun k => xs.getD k 0x00#8 := by
  have hothers : (List.range xs.length).filter (fun k => k ≠ j) = (List.range xs.length).eraseIdx j := by
    rw [← List.nodup_range.erase_getElem (i := j) (by simpa using hj), List.getElem_range,
      List.nodup_range.erase_eq_filter]
    exact List.filter_congr fun k _ => by simp [bne, beq_eq_decide]
  rw [hothers, ← List.eraseIdx_map, map_getD_range]

theorem weight_eq_gprod (poly : BitVec 9) {xs : List Byte} {j : Nat} (hj : j < xs.length) : weight poly xs j =
    gprod poly (((List.range xs.length).filter fun k => k ≠ j).map fun k =>
      gmul poly (xs.getD k 0x00#8) (ginv poly (gadd (xs.getD k 0x00#8) (xs.getD j 0x00#8)))) := by
  rw [weight, eraseIdx_eq_map_filter_range hj, List.map_map]
  rfl

theorem gadd_ne_zero {a b : Byte} (h : a ≠ b) : gadd a b ≠ 0x00#8 := fun h0 => h (BitVec.xor_eq_zero_iff.1 h0)

theorem weights_singleton (poly : BitVec 9) (x : Byte) : weights poly [x] = [0x01#8] := rfl

/-- Settles O24: the list without share `j` is the selection of the numbers other than `j`. -/
theorem lagrangeWeightsFormula : Obligations.LagrangeWeightsFormula := by
  rintro poly - xs ⟨-, hx⟩ j hj
  refine ⟨(getD_weights poly hj).trans (weight_eq_gprod poly hj), fun k hk hkj => gadd_ne_zero fun h => ?_,
    fun h1 => ?_⟩
  · rw [List.getD_eq_getElem _ _ hk, List.getD_eq_getElem _ _ hj] at h
    exact hkj (hx.getElem_inj_iff.1 h)
  · obtain ⟨x, rfl⟩ := List.length_eq_one_iff.1 h1
    obtain rfl : j = 0 := Nat.lt_one_iff.1 hj
    rw [weights_singleton, List.getD_cons_zero]

/-! ### Coefficient lists as polynomials over the field (41_generator.md R120, R121) -/

/-- The polynomial over the field that a list of coefficients writes, the constant term first (R120). -/
noncomputable def coeffPoly (poly : BitVec 9) : List Byte → (AdjoinRoot (bitPoly poly))[X]
  | [] => 0
  | c :: cs => coeffPoly poly cs * X + C (residue poly c)

section CoeffPoly

variable {poly : BitVec 9}

theorem coeff_coeffPoly (cs : List Byte) (n : Nat) :
    (coeffPoly poly cs).coeff n = residue poly (cs.getD n 0x00#8) := by
  induction cs generalizing n with
  | nil => simp [coeffPoly]
  | cons c cs ih => cases n <;> simp [coeffPoly, ih]

theorem degree_coeffPoly_lt (cs : List Byte) : (coeffPoly poly cs).degree < cs.length := by
  rw [degree_lt_iff_coeff_zero]
  intro n hn
  rw [coeff_coeffPoly, List.getD_eq_default _ _ hn, residue_zero]

variable (hp : poly.getLsbD 8 = true)

include hp

theorem residue_peval (x : Byte) (cs : List Byte) :
    residue poly (peval poly x cs) = (coeffPoly poly cs).eval (residue poly x) := by
  induction cs with
  | nil => simp [peval, coeffPoly]
  | cons c cs ih => rw [peval, coeffPoly, residue_gadd, residue_gmul hp, ih, eval_add, eval_mul, eval_X, eval_C]

/-- Lists of one length that write one polynomial are equal. -/
theorem eq_of_coeffPoly_eq {cs ds : List Byte} (hl : cs.length = ds.length)
    (h : coeffPoly poly cs = coeffPoly poly ds) : cs = ds := by
  refine List.ext_getElem hl fun n h1 h2 => residue_injective hp ?_
  rw [← List.getD_eq_getElem cs 0x00#8 h1, ← List.getD_eq_getElem ds 0x00#8 h2, ← coeff_coeffPoly, h, coeff_coeffPoly]

end CoeffPoly

/-! ### Interpolation at zero is exact (R140, R146) -/

/-- Addition is also subtraction (R101). -/
theorem residue_gadd_eq_sub (poly : BitVec 9) (a b : Byte) :
    residue poly (gadd a b) = residue poly a - residue poly b := by
  rw [eq_sub_iff_add_eq, ← residue_gadd, gadd, gadd, BitVec.xor_assoc, BitVec.xor_self, BitVec.xor_zero]

section Interpolation

variable {poly : BitVec 9} (hl : poly ∈ legalPolys)

include hl

theorem residue_ginv [Fact (Irreducible (bitPoly poly))] {a : Byte} (ha : a ≠ 0x00#8) :
    residue poly (ginv poly a) = (residue poly a)⁻¹ := by
  refine eq_inv_of_mul_eq_one_right ?_
  rw [← residue_gmul (getLsbD_eight_of_legal hl), gmul_ginv hl ha, residue_one]

/-- A factor of a weight is the value at zero of a factor of a Lagrange basis polynomial. -/
theorem residue_weightFactor [Fact (Irreducible (bitPoly poly))] {x y : Byte} (h : y ≠ x) :
    residue poly (weightFactor poly x y) = (Lagrange.basisDivisor (residue poly x) (residue poly y)).eval 0 := by
  calc residue poly (weightFactor poly x y)
    _ = residue poly y * (residue poly y - residue poly x)⁻¹ := by
      rw [weightFactor, residue_gmul (getLsbD_eight_of_legal hl), residue_ginv hl (gadd_ne_zero h), residue_gadd_eq_sub]
    _ = (residue poly x - residue poly y)⁻¹ * (0 - residue poly y) := by
      rw [zero_sub, mul_neg, ← neg_mul, ← inv_neg, neg_sub, mul_comm]
    _ = (Lagrange.basisDivisor (residue poly x) (residue poly y)).eval 0 := by
      rw [Lagrange.basisDivisor, eval_mul, eval_C, eval_sub, eval_X, eval_C]

/-- A weight is the value at zero of a Lagrange basis polynomial. -/
theorem residue_indexWeight [Fact (Irreducible (bitPoly poly))] {xs : List Byte} (hx : xs.Nodup) (x : Byte) :
    residue poly (indexWeight poly xs x) = (Lagrange.basis xs.toFinset (residue poly) x).eval 0 := by
  have hset : (xs.erase x).toFinset = xs.toFinset.erase x := by
    ext y
    simp [hx.mem_erase_iff]
  have hfactor : ∀ y ∈ xs.toFinset.erase x, residue poly (weightFactor poly x y) =
      (Lagrange.basisDivisor (residue poly x) (residue poly y)).eval 0 :=
    fun y hy => residue_weightFactor hl (Finset.ne_of_mem_erase hy)
  rw [indexWeight, residue_gprod (getLsbD_eight_of_legal hl), List.map_map, ← List.prod_toFinset _ (hx.erase x), hset,
    Lagrange.basis, eval_prod]
  exact Finset.prod_congr rfl hfactor

/-- Interpolation at zero is exact: values of a polynomial with at most as many coefficients as there are shares combine
to its value at 0x00. -/
theorem combine_map_peval {xs cs : List Byte} (hx : xs.Nodup) (hc : cs.length ≤ xs.length) :
    combine poly (xs.map fun x => peval poly x cs) (weights poly xs) = peval poly 0x00#8 cs := by
  have hp := getLsbD_eight_of_legal hl
  have : Fact (Irreducible (bitPoly poly)) := ⟨irreducible_poly hl⟩
  have hdeg : (coeffPoly poly cs).degree < xs.toFinset.card := by
    rw [List.toFinset_card_of_nodup hx]
    exact (degree_coeffPoly_lt cs).trans_le (Nat.cast_le.2 hc)
  refine residue_injective hp ?_
  rw [combine_map_weights poly hx, residue_gsum, List.map_map, ← List.sum_toFinset _ hx, residue_peval hp, residue_zero,
    Lagrange.eq_interpolate (residue_injective hp).injOn hdeg, Lagrange.interpolate_apply, eval_finsetSum]
  refine Finset.sum_congr rfl fun x _ => ?_
  rw [Function.comp_apply, residue_gmul hp, residue_peval hp, residue_indexWeight hl hx, eval_mul, eval_C]

/-- Polynomials with as many coefficients as the points at which they agree are equal. -/
theorem eq_of_peval_eq {xs cs ds : List Byte} (hx : xs.Nodup) (hc : cs.length = xs.length)
    (hd : ds.length = xs.length) (h : ∀ x ∈ xs, peval poly x cs = peval poly x ds) : cs = ds := by
  have hp := getLsbD_eight_of_legal hl
  have : Fact (Irreducible (bitPoly poly)) := ⟨irreducible_poly hl⟩
  have hcard := List.toFinset_card_of_nodup hx
  refine eq_of_coeffPoly_eq hp (hc.trans hd.symm) ?_
  refine eq_of_degrees_lt_of_eval_index_eq xs.toFinset (residue_injective hp).injOn ?_ ?_ fun x hmem => ?_
  · rw [hcard, ← hc]
    exact degree_coeffPoly_lt cs
  · rw [hcard, ← hd]
    exact degree_coeffPoly_lt ds
  · rw [← residue_peval hp, ← residue_peval hp, h x (List.mem_toFinset.1 hmem)]

end Interpolation

/-! ### The coefficients that fit given shares (R147, 41_generator.md R120) -/

/-- The bytes of the shares with the indices `xs`, from the secret byte and the further coefficients `ds`. -/
def shareValues (poly : BitVec 9) (xs : List Byte) (secret : Byte) (ds : Fin xs.length → Byte) :
    Fin xs.length → Byte :=
  fun j => peval poly (xs.getD j 0x00#8) (secret :: List.ofFn ds)

section Coefficients

variable {poly : BitVec 9} (hl : poly ∈ legalPolys) {xs : List Byte} (hx : IndicesOk xs)

include hl hx

/-- Two choices of coefficients that give the same share bytes agree at every index and, on the secret, at 0x00. -/
theorem coefficients_unique {secret : Byte} {ds es : List Byte} (hd : ds.length = xs.length)
    (he : es.length = xs.length) (h : ∀ j < xs.length,
      peval poly (xs.getD j 0x00#8) (secret :: ds) = peval poly (xs.getD j 0x00#8) (secret :: es)) : ds = es := by
  have hagree : ∀ x ∈ 0x00#8 :: xs, peval poly x (secret :: ds) = peval poly x (secret :: es) := by
    rw [List.forall_mem_cons]
    refine ⟨by rw [peval_zero, peval_zero], fun x hmem => ?_⟩
    obtain ⟨j, hj, rfl⟩ := List.getElem_of_mem hmem
    rw [← List.getD_eq_getElem xs 0x00#8 hj]
    exact h j hj
  have heq := eq_of_peval_eq hl (List.nodup_cons.2 hx) (by simp [hd]) (by simp [he]) hagree
  exact (List.cons_inj_right secret).1 heq

/-- There are as many choices of coefficients as values of the share bytes, so each value is met. -/
theorem exists_coefficients (secret : Byte) (ys : List Byte) : ∃ ds : List Byte, ds.length = xs.length ∧
    ∀ j < xs.length, peval poly (xs.getD j 0x00#8) (secret :: ds) = ys.getD j 0x00#8 := by
  have hinj : Function.Injective (shareValues poly xs secret) := fun ds es h =>
    List.ofFn_injective <|
    coefficients_unique hl hx List.length_ofFn List.length_ofFn fun j hj => congrFun h ⟨j, hj⟩
  obtain ⟨ds, hds⟩ := Finite.surjective_of_injective hinj fun j => ys.getD j 0x00#8
  exact ⟨List.ofFn ds, List.length_ofFn, fun j hj => congrFun hds ⟨j, hj⟩⟩

end Coefficients

/-- Settles O31: there are as many choices of coefficients as values of the share bytes, and no two give the same. -/
theorem uniqueCoefficientsFitAnySharesAndSecret : Obligations.UniqueCoefficientsFitAnySharesAndSecret := by
  intro poly hl xs ys hx _ secret
  obtain ⟨ds, hlen, hds⟩ := exists_coefficients hl hx secret ys
  exact ⟨ds, ⟨hlen, hds⟩, fun es ⟨hlen', hes⟩ =>
    coefficients_unique hl hx hlen' hlen fun j hj => (hes j hj).trans (hds j hj).symm⟩

end Sys2Proof.Machine

/-! # RECON (42_interpolator.md R141 to R149)

What RECON answers is said once per outcome of its checks and reads. A statement about a successful RECON names the
shares that DMEM holds at SRC (`HoldsShares`): they fix the stored bytes, and the laws of the weights say what these are. -/

namespace Sys2Proof.Machine

/-! ### What RECON answers (R141) -/

section Recon

variable {s : State}

theorem exec_recon_of_error {code : ErrorCode} (h : reconCheck s = some code) :
    exec .recon s = .next (s.raiseError code) := by
  simp only [exec, execRecon, h]

theorem exec_recon_of_index_fault {f : Fault} (h : ReconReady s) (hr : s.mem.readAll (indexAddresses s) = .error f) :
    exec .recon s = .fault f := by
  simp only [exec, execRecon, (reconCheck_eq_none_iff_ready s).2 h, hr]

theorem exec_recon_of_not_indicesOk {xs : List Byte} (h : ReconReady s)
    (hr : s.mem.readAll (indexAddresses s) = .ok xs) (hx : ¬ IndicesOk xs) :
    exec .recon s = .next (s.raiseError .share) := by
  simp only [exec, execRecon, (reconCheck_eq_none_iff_ready s).2 h, hr]
  exact if_pos hx

theorem exec_recon_of_payload_fault {xs : List Byte} {f : Fault} (h : ReconReady s)
    (hr : s.mem.readAll (indexAddresses s) = .ok xs) (hx : IndicesOk xs)
    (hp : s.mem.readRows (payloadAddresses s) = .error f) : exec .recon s = .fault f := by
  simp only [exec, execRecon, (reconCheck_eq_none_iff_ready s).2 h, hr, hp]
  exact if_neg (not_not.2 hx)

theorem exec_recon_of_read {xs : List Byte} {payloads : List (List Byte)} (h : ReconReady s)
    (hr : s.mem.readAll (indexAddresses s) = .ok xs) (hx : IndicesOk xs)
    (hp : s.mem.readRows (payloadAddresses s) = .ok payloads) :
    exec .recon s = .next (s.afterRecon xs payloads) := by
  simp only [exec, execRecon, (reconCheck_eq_none_iff_ready s).2 h, hr, hp]
  exact if_neg (not_not.2 hx)

theorem reconCheck_eq_param (hl : s.len = 0x0000#16) : reconCheck s = some .param := if_pos hl

theorem reconCheck_eq_share (hl : s.len ≠ 0x0000#16) (hm : s.m = 0x00#8) : reconCheck s = some .share :=
  (if_neg hl).trans (if_pos hm)

theorem reconCheck_eq_range (hl : s.len ≠ 0x0000#16) (hm : s.m ≠ 0x00#8) (hr : ¬ ReconInRange s) :
    reconCheck s = some .range := (if_neg hl).trans <| (if_neg hm).trans (if_pos (not_and_or.1 hr))

theorem reconCheck_eq_overlap (hl : s.len ≠ 0x0000#16) (hm : s.m ≠ 0x00#8) (hr : ReconInRange s)
    (ho : ReconOverlap s) : reconCheck s = some .overlap :=
  (if_neg hl).trans <| (if_neg hm).trans <|
    (if_neg (not_or.2 ⟨not_not.2 hr.1, not_not.2 hr.2⟩)).trans (if_pos ho)

end Recon

/-! ### The shares at SRC (41_generator.md R123) -/

/-- The share set at SRC: share number `j` has the index `xs[j]` and the payload bytes `y j 0`, `y j 1`, ... -/
structure State.HoldsShares (s : State) (xs : List Byte) (y : Nat → Nat → Byte) : Prop where
  length  : xs.length = s.m.toNat
  index   : ∀ j < s.m.toNat, s.mem.read (shareByteAt s.src.toNat s.len.toNat j 0) = some (xs.getD j 0x00#8)
  payload : ∀ j < s.m.toNat, ∀ i < s.len.toNat,
    s.mem.read (shareByteAt s.src.toNat s.len.toNat j (1 + i)) = some (y j i)

/-- The payloads of M shares, one row per share. -/
def payloadRows (s : State) (y : Nat → Nat → Byte) : List (List Byte) :=
  (List.range s.m.toNat).map fun j => (List.range s.len.toNat).map (y j)

/-- Mapping over the entries by number is mapping over the list. -/
theorem map_range_getD {α β : Type} (l : List α) (d : α) (f : α → β) :
    (List.range l.length).map (fun k => f (l.getD k d)) = l.map f :=
  List.map_map.symm.trans (congrArg (List.map f) (map_getD_range l d))

theorem map_getD_payloadRows (s : State) (y : Nat → Nat → Byte) {i : Nat} (hi : i < s.len.toNat) :
    (payloadRows s y).map (fun row => row.getD i 0x00#8) = (List.range s.m.toNat).map fun j => y j i := by
  rw [payloadRows, List.map_map]
  refine List.map_congr_left fun j _ => ?_
  simp [List.getD_eq_getElem?_getD, hi]

section Shares

variable {s : State} {xs : List Byte} {y : Nat → Nat → Byte}

theorem readAll_indexAddresses (hl : xs.length = s.m.toNat) (h : ∀ j < s.m.toNat,
      s.mem.read (shareByteAt s.src.toNat s.len.toNat j 0) = some (xs.getD j 0x00#8)) :
    s.mem.readAll (indexAddresses s) = .ok xs := by
  rw [Memory.readAll_eq_ok_iff, indexAddresses, List.map_map, ← map_range_getD xs 0x00#8 some, hl]
  exact List.map_congr_left fun j hj => h j (List.mem_range.1 hj)

theorem readRows_payloadAddresses (h : ∀ j < s.m.toNat, ∀ i < s.len.toNat,
      s.mem.read (shareByteAt s.src.toNat s.len.toNat j (1 + i)) = some (y j i)) :
    s.mem.readRows (payloadAddresses s) = .ok (payloadRows s y) := by
  rw [Memory.readRows_eq_ok_iff, payloadAddresses, payloadRows, List.map_map, List.map_map]
  refine List.map_congr_left fun j hj => Memory.readAll_range' (by simp) fun i hi => ?_
  have hi' : i < s.len.toNat := by simpa using hi
  rw [Nat.add_assoc]
  exact (h j (List.mem_range.1 hj) i hi').trans (by simp [List.getD_eq_getElem?_getD, hi'])

/-- The read of payloads that are not all written faults at an unwritten payload byte. -/
theorem readRows_payloadAddresses_fault (h : ∃ j < s.m.toNat, ∃ i < s.len.toNat,
      s.mem.read (shareByteAt s.src.toNat s.len.toNat j (1 + i)) = none) :
    ∃ j < s.m.toNat, ∃ i < s.len.toNat, s.mem.read (shareByteAt s.src.toNat s.len.toNat j (1 + i)) = none ∧
      s.mem.readRows (payloadAddresses s) =
        .error (.unwrittenByte (shareByteAt s.src.toNat s.len.toNat j (1 + i))) := by
  cases hp : s.mem.readRows (payloadAddresses s) with
  | error f =>
    obtain ⟨as, has, a, ha, hn, rfl⟩ := Memory.fault_of_readRows hp
    obtain ⟨j, hj, rfl⟩ := List.mem_map.1 has
    obtain ⟨i, hi, rfl⟩ := List.mem_range'.1 ha
    rw [Nat.one_mul, Nat.add_assoc] at hn ⊢
    exact ⟨j, List.mem_range.1 hj, i, hi, hn, rfl⟩
  | ok payloads =>
    obtain ⟨j, hj, i, hi, hn⟩ := h
    have hcolumn := congrArg (fun l => l[j]?) (map_some_of_readRows_payloadAddresses hp hi)
    simp [hj, hn] at hcolumn

section Stored

variable (hx : IndicesOk xs) (h : s.HoldsShares xs y)

include hx h

theorem exec_recon_of_holdsShares (hready : ReconReady s) :
    exec .recon s = .next (s.afterRecon xs (payloadRows s y)) :=
  exec_recon_of_read hready (readAll_indexAddresses h.length h.index) hx (readRows_payloadAddresses h.payload)

/-- RECON of a share set with valid indices reports success; output byte `i` combines the payload bytes at `i`. -/
theorem exec_recon_stores (hwf : s.mem.wf) (hready : ReconReady s) : ∃ t, exec .recon s = .next t ∧ t.err = 0x00#8 ∧
    ∀ i < s.len.toNat, t.mem.read (s.dst.toNat + i) =
      some (combine s.cfg.poly ((List.range s.m.toNat).map fun j => y j i) (weights s.cfg.poly xs)) := by
  refine ⟨_, exec_recon_of_holdsShares hx h hready, rfl, fun i hi => ?_⟩
  rw [read_afterRecon hwf _ _ hi, map_getD_payloadRows s y hi]

end Stored

/-- A RECON that reports success read a share set with valid indices, and combined its payload bytes. -/
theorem exec_recon_success_stores {t : State} (hwf : s.mem.wf) (h : exec .recon s = .next t) (he : t.err = 0x00#8) :
    ReconReady s ∧ ∃ xs y, IndicesOk xs ∧ s.HoldsShares xs y ∧ ∀ i < s.len.toNat, t.mem.read (s.dst.toNat + i) =
      some (combine s.cfg.poly ((List.range s.m.toNat).map fun j => y j i) (weights s.cfg.poly xs)) := by
  obtain ⟨hready, xs, payloads, hr, hx, hp, -⟩ := exec_recon_success h he
  have hindex := map_some_of_readAll_indexAddresses hr
  have hl : xs.length = s.m.toNat := by simpa using congrArg List.length hindex
  have hshares : s.HoldsShares xs fun j i => (payloads.getD j []).getD i 0x00#8 := by
    refine ⟨hl, fun j hj => ?_, fun j hj i hi => ?_⟩
    · have hentry := congrArg (fun l => l[j]?) hindex
      simpa [hj, hl] using hentry.symm
    · have hcolumn := map_some_of_readRows_payloadAddresses hp hi
      have hrows : payloads.length = s.m.toNat := by simpa using congrArg List.length hcolumn
      have hentry := congrArg (fun l => l[j]?) hcolumn
      simpa [hj, hrows] using hentry.symm
  obtain ⟨t', ht', -, hread⟩ := exec_recon_stores hx hshares hwf hready
  obtain rfl : t' = t := Host.Outcome.next.inj (ht'.symm.trans h)
  exact ⟨hready, xs, _, hx, hshares, hread⟩

end Shares

/-! ### RECON does not know the threshold (R144) -/

theorem exec_recon_with_t_n {s t : State} (t' n' : Byte) (h : exec .recon s = .next t) :
    exec .recon { s with t := t', n := n' } = .next { t with t := t', n := n' } := by
  rcases execRecon_cases s with ⟨code, hc, hx⟩ | ⟨-, f, -, hx⟩ | ⟨hc, xs, hr, hxs, hx⟩ | ⟨-, xs, -, -, f, -, hx⟩ |
    ⟨hc, xs, hr, hxs, payloads, hp, hx⟩ <;> cases hx.symm.trans h
  · exact exec_recon_of_error (s := { s with t := t', n := n' }) hc
  · exact exec_recon_of_not_indicesOk (s := { s with t := t', n := n' }) ((reconCheck_eq_none_iff_ready s).1 hc) hr hxs
  · exact exec_recon_of_read (s := { s with t := t', n := n' }) ((reconCheck_eq_none_iff_ready s).1 hc) hr hxs hp

/-- A RECON that goes on with valid indices reports success. -/
theorem exec_recon_err_of_indicesOk {s t : State} {xs : List Byte} (h : exec .recon s = .next t)
    (hready : ReconReady s) (hr : s.mem.readAll (indexAddresses s) = .ok xs) (hx : IndicesOk xs) : t.err = 0x00#8 := by
  cases hp : s.mem.readRows (payloadAddresses s) with
  | error f => cases (exec_recon_of_payload_fault hready hr hx hp).symm.trans h
  | ok payloads =>
    cases (exec_recon_of_read hready hr hx hp).symm.trans h
    rfl

/-- Settles O27: no check, read or stored byte of RECON rests on T or N, and after its checks it stores. -/
theorem reconIgnoresTheThreshold : Obligations.ReconIgnoresTheThreshold := fun _ _ h t' n' =>
  ⟨exec_recon_with_t_n t' n' h, fun _ hl hindex hready hx =>
    exec_recon_err_of_indicesOk h hready (readAll_indexAddresses hl (hl ▸ hindex)) hx⟩

/-! ### The stored bytes and the frame (R141, R142) -/

/-- A combined byte as the sum over the share numbers. -/
theorem combine_map_range (poly : BitVec 9) {n : Nat} {lams : List Byte} (hl : lams.length = n) (f : Nat → Byte) :
    combine poly ((List.range n).map f) lams =
      gsum ((List.range n).map fun j => gmul poly (f j) (lams.getD j 0x00#8)) := by
  have hlams := map_getD_range lams 0x00#8
  rw [hl] at hlams
  rw [combine, ← hlams, List.zipWith_map, List.zipWith_self, hlams]

theorem not_indicesOk {xs : List Byte} (h : (∃ j < xs.length, xs.getD j 0x00#8 = 0x00#8) ∨
    ∃ j k, j < k ∧ k < xs.length ∧ xs.getD j 0x00#8 = xs.getD k 0x00#8) : ¬ IndicesOk xs := by
  rintro ⟨hzero, hnodup⟩
  rcases h with ⟨j, hj, h0⟩ | ⟨j, k, hjk, hk, heq⟩
  · rw [List.getD_eq_getElem _ _ hj] at h0
    exact hzero (h0 ▸ List.getElem_mem hj)
  · rw [List.getD_eq_getElem _ _ (hjk.trans hk), List.getD_eq_getElem _ _ hk] at heq
    exact hjk.ne (hnodup.getElem_inj_iff.1 heq)

/-- Settles O25: each error and fault by the first check or read that fails. -/
theorem reconBehaviour : Obligations.ReconBehaviour := by
  intro s hwf
  refine ⟨rfl, fun hl => exec_recon_of_error (reconCheck_eq_param hl),
    fun hl hm => exec_recon_of_error (reconCheck_eq_share hl hm),
    fun hl hm hr => exec_recon_of_error (reconCheck_eq_range hl hm hr),
    fun hl hm hr ho => exec_recon_of_error (reconCheck_eq_overlap hl hm hr ho), fun hready => ⟨fun j hj hn hp => ?_, ?_⟩⟩
  · exact exec_recon_of_index_fault hready (Memory.readAll_map_fault hj hn hp)
  · intro xs hl hindex
    rw [hl] at hindex
    have hr := readAll_indexAddresses hl hindex
    refine ⟨fun hbad => exec_recon_of_not_indicesOk hready hr (not_indicesOk hbad), fun hx => ⟨fun hn => ?_, ?_⟩⟩
    · obtain ⟨j, hj, i, hi, hread, hfault⟩ := readRows_payloadAddresses_fault hn
      exact ⟨j, hj, i, hi, hread, exec_recon_of_payload_fault hready hr hx hfault⟩
    · intro y hy
      have hexec := exec_recon_of_holdsShares hx ⟨hl, hindex, hy⟩ hready
      refine ⟨_, hexec, rfl, fun i hi => ?_, fun a ha => ?_⟩
      · rw [read_afterRecon hwf _ _ hi, map_getD_payloadRows s y hi,
          combine_map_range _ ((length_weights _ _).trans hl)]
      · exact Memory.read_writeBytes_of_not_has hwf (r := outputRange s) (length_recoverBytes ..) ha

/-! ### One share (R143) -/

/-- A product with 0x01 needs no reduction, whatever POLY is. -/
theorem gmul_one_of_any_poly (poly : BitVec 9) (a : Byte) : gmul poly a 0x01#8 = a := by
  have hone : clmul a 0x01#8 = a.setWidth 15 := by simp [clmul, clmulBits]
  have hwide : (gmul poly a 0x01#8).setWidth 15 = a.setWidth 15 :=
    (setWidth_gmul_of_degree_lt poly (i := 7) (j := 0) a.isLt (by decide) (by decide)).trans hone
  exact bitPoly_injective (by rw [← bitPoly_setWidth _ (show 8 ≤ 15 by decide), hwide, bitPoly_setWidth _ (by decide)])

theorem combine_singleton (poly : BitVec 9) (x y : Byte) : combine poly [y] (weights poly [x]) = y := by
  rw [weights_singleton, combine, List.zipWith_cons_cons, List.zipWith_nil_left, gsum, gsum, gadd_zero,
    gmul_one_of_any_poly]

/-- Settles O26: the weight of the one share is 0x01. -/
theorem reconOfOneShare : Obligations.ReconOfOneShare := by
  intro s x hwf hready hm hindex hx hpayload
  have hm1 : s.m.toNat = 1 := congrArg BitVec.toNat hm
  have haddr : ∀ i, shareByteAt s.src.toNat s.len.toNat 0 (1 + i) = s.src.toNat + 1 + i := fun i => by
    rw [shareByteAt]; omega
  have hshares : s.HoldsShares [x] fun _ i => (s.mem.read (s.src.toNat + 1 + i)).getD 0x00#8 := by
    refine ⟨hm1.symm, fun j hj => ?_, fun j hj i hi => ?_⟩ <;> obtain rfl : j = 0 := by omega
    · simpa [shareByteAt] using hindex
    · obtain ⟨b, hb⟩ := Option.ne_none_iff_exists'.1 (hpayload i hi)
      rw [haddr, hb, Option.getD_some]
  obtain ⟨t, ht, he, hread⟩ := exec_recon_stores ⟨by simpa using hx.symm, List.nodup_singleton x⟩ hshares hwf hready
  refine ⟨t, ht, he, fun i hi => ?_⟩
  rw [hread i hi, hm1, ← haddr, hshares.payload 0 (by omega) i hi]
  exact congrArg some (combine_singleton _ x _)

/-! ### The order of the shares (R145) -/

/-- The weight of an index does not depend on the order of the shares. -/
theorem indexWeight_perm {poly : BitVec 9} (hp : poly.getLsbD 8 = true) {xs xs' : List Byte} (h : xs.Perm xs')
    (x : Byte) : indexWeight poly xs x = indexWeight poly xs' x := gprod_perm hp ((h.erase x).map _)

/-- The entries of a list in the order `ks` are its entries. -/
theorem map_getD_perm {xs : List Byte} {ks : List Nat} (hks : ks.Perm (List.range xs.length)) :
    (ks.map fun k => xs.getD k 0x00#8).Perm xs :=
  (hks.map _).trans (.of_eq (map_getD_range xs 0x00#8))

/-- The shares of a set in the order `ks` combine to a sum over `ks`, each share with its weight in the set. -/
theorem combine_map_getD {poly : BitVec 9} (hp : poly.getLsbD 8 = true) {xs : List Byte} (hx : xs.Nodup)
    {ks : List Nat} (hks : ks.Perm (List.range xs.length)) (f : Nat → Byte) :
    combine poly (ks.map f) (weights poly (ks.map fun k => xs.getD k 0x00#8)) =
      gsum (ks.map fun k => gmul poly (f k) (indexWeight poly xs (xs.getD k 0x00#8))) := by
  have hperm := map_getD_perm hks
  rw [weights_eq_map_indexWeight poly (hperm.nodup_iff.2 hx), List.map_map, combine, List.zipWith_map, List.zipWith_self]
  exact congrArg gsum (List.map_congr_left fun k _ => congrArg _ (indexWeight_perm hp hperm _))

/-- The shares of a set combine to the same byte in any order. -/
theorem combine_reorder {poly : BitVec 9} (hp : poly.getLsbD 8 = true) {xs : List Byte} (hx : xs.Nodup)
    {ks : List Nat} (hks : ks.Perm (List.range xs.length)) (f : Nat → Byte) :
    combine poly (ks.map f) (weights poly (ks.map fun k => xs.getD k 0x00#8)) =
      combine poly ((List.range xs.length).map f) (weights poly xs) := by
  have hrange := combine_map_getD hp hx (.refl _) f
  rw [map_getD_range] at hrange
  rw [combine_map_getD hp hx hks, hrange, gsum_perm (hks.map _)]

/-- A state whose share number `j` is number `ks[j]` of another state holds that state's shares in the order `ks`. -/
theorem State.HoldsShares.reorder {u u' : State} {xs : List Byte} {y : Nat → Nat → Byte} {ks : List Nat}
    (h : u.HoldsShares xs y) (hlen : u'.len = u.len) (hm : u'.m = u.m) (hks : ks.Perm (List.range u.m.toNat))
    (hbytes : ∀ j < u.m.toNat, ∀ b ≤ u.len.toNat, u'.mem.read (shareByteAt u'.src.toNat u'.len.toNat j b) =
      u.mem.read (shareByteAt u.src.toNat u.len.toNat (ks.getD j 0) b)) :
    u'.HoldsShares (ks.map fun k => xs.getD k 0x00#8) fun j i => y (ks.getD j 0) i := by
  have hkl : ks.length = u.m.toNat := by simpa using hks.length_eq
  have hk : ∀ j < u.m.toNat, ks.getD j 0 < u.m.toNat := fun j hj => by
    rw [List.getD_eq_getElem _ _ (hkl ▸ hj)]
    exact List.mem_range.1 (hks.subset (List.getElem_mem _))
  refine ⟨by rw [List.length_map, hkl, hm], fun j hj => ?_, fun j hj i hi => ?_⟩ <;> rw [hm] at hj
  · rw [hbytes j hj 0 (Nat.zero_le _), h.index _ (hk j hj)]
    simp [List.getD_eq_getElem?_getD, hkl, hj]
  · rw [hlen] at hi
    rw [hbytes j hj (1 + i) (by omega), h.payload _ (hk j hj) i hi]

/-- Settles O28: sums and products do not depend on the order of their terms. -/
theorem reconIsOrderFree : Obligations.ReconIsOrderFree := by
  intro u u' v ks hlegal hwf hwf' hcfg hlen hm h he hready' hks hbytes
  obtain ⟨-, xs, y, hx, hshares, hread⟩ := exec_recon_success_stores hwf h he
  have hks' : ks.Perm (List.range xs.length) := by rwa [hshares.length]
  have hperm := map_getD_perm hks'
  have hx' : IndicesOk (ks.map fun k => xs.getD k 0x00#8) := ⟨hperm.mem_iff.not.2 hx.1, hperm.nodup_iff.2 hx.2⟩
  obtain ⟨v', hv', he', hread'⟩ := exec_recon_stores hx' (hshares.reorder hlen hm hks hbytes) hwf' hready'
  refine ⟨v', hv', he', fun i hi => ?_⟩
  have hkl : u.m.toNat = ks.length := by simpa using hks.length_eq.symm
  rw [hread' i (hlen ▸ hi), hread i hi, hcfg, hm, hkl, map_range_getD ks 0 fun k => y k i,
    combine_reorder (getLsbD_eight_of_legal hlegal.1) hx.2 hks', hshares.length, hkl]

/-! ### The sum of the weights (R149) -/

/-- Shares that agree on a byte give that byte: it is the constant polynomial (T = 1). -/
theorem combine_const {poly : BitVec 9} (hl : poly ∈ legalPolys) {xs : List Byte} (hne : xs ≠ []) (hx : xs.Nodup)
    (v : Byte) : combine poly (xs.map fun _ => v) (weights poly xs) = v := by
  have h := combine_map_peval hl (cs := [v]) hx (List.length_pos_iff.2 hne)
  simpa only [peval_singleton] using h

theorem gsum_weights {poly : BitVec 9} (hl : poly ∈ legalPolys) {xs : List Byte} (hne : xs ≠ []) (hx : xs.Nodup) :
    gsum (weights poly xs) = 0x01#8 := by
  have hp := getLsbD_eight_of_legal hl
  have h := combine_const hl hne hx 0x01#8
  rw [combine_map_weights poly hx] at h
  simpa only [gmul_comm hp 0x01#8, gmul_one hp, ← weights_eq_map_indexWeight poly hx] using h

/-- Settles O30: a share set of one value at a position is that of the constant polynomial. -/
theorem weightsSumToOne : Obligations.WeightsSumToOne := by
  refine ⟨fun poly hl xs hne hx => gsum_weights hl hne hx.2, fun s t i v hlegal hwf h he hi hv => ?_⟩
  obtain ⟨⟨-, hm, -⟩, xs, y, hx, hshares, hread⟩ := exec_recon_success_stores hwf h he
  have hne : xs ≠ [] := by
    rintro rfl
    exact hm (BitVec.eq_of_toNat_eq hshares.length.symm)
  have hcolumn : (List.range s.m.toNat).map (fun j => y j i) = xs.map fun _ => v := by
    rw [← map_range_getD xs 0x00#8, hshares.length]
    refine List.map_congr_left fun j hj => ?_
    have hj' := List.mem_range.1 hj
    exact Option.some.inj ((hshares.payload j hj' i hi).symm.trans (hv j hj'))
  rw [hread i hi, hcolumn, combine_const hlegal.1 hne hx.2]

/-! ### SPLIT, then RECON (R146) -/

/-- The share numbers 1 to 255 are valid indices. -/
theorem indicesOk_map_ofNat {ks : List Nat} (hnodup : ks.Nodup) (hk : ∀ k ∈ ks, 1 ≤ k ∧ k < 256) :
    IndicesOk (ks.map (BitVec.ofNat 8)) := by
  have hval : ∀ k ∈ ks, (BitVec.ofNat 8 k).toNat = k := fun k hmem =>
    (BitVec.toNat_ofNat ..).trans (Nat.mod_eq_of_lt (hk k hmem).2)
  constructor
  · intro h0
    obtain ⟨k, hmem, hz⟩ := List.mem_map.1 h0
    have hk0 : 0 = k := by rw [← hval k hmem, hz]; rfl
    have := hk k hmem
    omega
  · exact hnodup.map_on fun a ha b hb hab => by rw [← hval a ha, hab, hval b hb]

/-- Unaltered shares of a SPLIT, number `j` being share `ks[j]`: their payload bytes are values of the polynomials. -/
theorem holdsShares_of_split {s u : State} {secret : List Byte} {ks : List Nat} (hwf : s.mem.wf)
    (hr : s.mem.readAll (secretRange s).addresses = .ok secret) (hlen : u.len = s.len) (hm : u.m.toNat = ks.length)
    (hk : ∀ k ∈ ks, 1 ≤ k ∧ k ≤ s.n.toNat)
    (hbytes : ∀ j < ks.length, ∀ b ≤ s.len.toNat, u.mem.read (shareByteAt u.src.toNat s.len.toNat j b) =
      (s.afterSplit secret).mem.read (shareByteAt s.dst.toNat s.len.toNat (ks.getD j 0 - 1) b)) :
    u.HoldsShares (ks.map (BitVec.ofNat 8)) fun j i =>
      peval s.cfg.poly (BitVec.ofNat 8 (ks.getD j 0)) (splitPolynomial s i (secret.getD i 0x00#8)) := by
  have hnumber : ∀ j < ks.length, ks.getD j 0 - 1 < s.n.toNat ∧ ks.getD j 0 - 1 + 1 = ks.getD j 0 := fun j hj => by
    rw [List.getD_eq_getElem _ _ hj]
    have := hk _ (List.getElem_mem hj)
    omega
  refine ⟨by rw [List.length_map, hm], fun j hj => ?_, fun j hj i hi => ?_⟩ <;> rw [hm] at hj <;>
    obtain ⟨hlt, hsucc⟩ := hnumber j hj
  · rw [hlen, hbytes j hj 0 (Nat.zero_le _), read_afterSplit_index hwf hr hlt, hsucc]
    simp [List.getD_eq_getElem?_getD, hj]
  · rw [hlen] at hi ⊢
    rw [hbytes j hj (1 + i) (by omega), read_afterSplit_payload hwf hr hlt hi, hsucc]

/-- Settles O29: interpolation at zero is exact, and the value of a byte's polynomial at 0x00 is the secret byte. -/
theorem splitThenReconRecoversTheSecret : Obligations.SplitThenReconRecoversTheSecret := by
  intro s t u ks hlegal hwf hwfu h he hcfg hlen hm htk hnodup hk hbytes hrange hoverlap
  obtain ⟨⟨⟨hl0, ht0, -⟩, -⟩, secret, hr, rfl⟩ := exec_split_success h he
  have hx : IndicesOk (ks.map (BitVec.ofNat 8)) :=
    indicesOk_map_ofNat hnodup fun k hmem => ⟨(hk k hmem).1, Nat.lt_of_le_of_lt (hk k hmem).2 s.n.isLt⟩
  have hm0 : u.m ≠ 0x00#8 := by
    intro h0
    have hkl : ks.length = 0 := by rw [← hm, h0]; rfl
    exact ht0 (BitVec.eq_of_toNat_eq (Nat.le_zero.1 (htk.trans_eq hkl)))
  obtain ⟨v, hv, hve, hread⟩ := exec_recon_stores hx (holdsShares_of_split hwf hr hlen hm hk hbytes) hwfu
    ⟨hlen ▸ hl0, hm0, hrange, hoverlap⟩
  refine ⟨v, hv, hve, fun i hi => ?_⟩
  have hrecover := combine_map_peval hlegal.1 (cs := splitPolynomial s i (secret.getD i 0x00#8)) hx.2
    (by rwa [length_splitPolynomial ht0, List.length_map])
  rw [hread i (hlen ▸ hi), hm, hcfg, read_secret hr hi,
    map_range_getD ks 0 fun k => peval s.cfg.poly (BitVec.ofNat 8 k) (splitPolynomial s i (secret.getD i 0x00#8))]
  rw [List.map_map] at hrecover
  exact congrArg some (hrecover.trans (peval_zero ..))

end Sys2Proof.Machine

/-! # Configuration (43_config.md R160 to R165)

A SET command answers the state with its register stored and STATUS.ERR cleared; its word is illegal unless the Z field is
zero. What a stored value means is said by the checks of the command that uses it. The other half, that nothing else
stores a parameter register, is read off the cases of a command that goes on and of a transaction. -/

namespace Sys2Proof.Machine

/-! ### The commands (R160 to R164) -/

section Commands

variable (s : State)

theorem exec_setsrc (v : Half) : exec (.setsrc v) s = .next { s with src := v, err := 0x00#8 } := rfl

theorem exec_setdst (v : Half) : exec (.setdst v) s = .next { s with dst := v, err := 0x00#8 } := rfl

theorem exec_setlen (v : Half) : exec (.setlen v) s = .next { s with len := v, err := 0x00#8 } := rfl

theorem exec_settn (t n : Byte) : exec (.settn t n) s = .next { s with t := t, n := n, err := 0x00#8 } := rfl

theorem exec_setm (v : Byte) : exec (.setm v) s = .next { s with m := v, err := 0x00#8 } := rfl

end Commands

/-! ### Their words with a Z field that is not zero (30_encoding.md R71, R74) -/

theorem fieldOP_append_byte_half (op a : Byte) (imm : Half) : fieldOP (op ++ a ++ imm) = op := by
  ext i hi
  simp only [fieldOP, BitVec.getElem_extractLsb', BitVec.getLsbD_append]
  grind

theorem fieldOP_append_bytes (op a b z : Byte) : fieldOP (op ++ a ++ b ++ z) = op := by
  ext i hi
  simp only [fieldOP, BitVec.getElem_extractLsb', BitVec.getLsbD_append]
  grind

/-- A word with the OP byte of SETSRC, SETDST or SETLEN and a Z field that is not zero is illegal. -/
theorem decode_setHalf_of_ne_zero {op z : Byte} (hop : op ∈ [0x10#8, 0x11#8, 0x12#8]) (hz : z ≠ 0x00#8) (imm : Half) :
    decode (op ++ z ++ imm) = none := by
  have hZ : (op ++ z ++ imm).extractLsb' 16 8 = z := by
    ext i hi
    simp only [BitVec.getElem_extractLsb', BitVec.getLsbD_append]
    grind
  simp only [List.mem_cons, List.not_mem_nil, or_false] at hop
  rcases hop with rfl | rfl | rfl <;> simp [decode, fieldOP_append_byte_half, hZ, hz, whenZero]

/-- A SETTN word whose Z field is not zero is illegal. -/
theorem decode_settn_of_ne_zero {z : Byte} (hz : z ≠ 0x00#8) (t n : Byte) : decode (0x13#8 ++ t ++ n ++ z) = none := by
  have hZ : (0x13#8 ++ t ++ n ++ z).extractLsb' 0 8 = z := BitVec.extractLsb'_append_eq_right
  simp [decode, fieldOP_append_bytes, hZ, hz, whenZero]

/-- A SETM word whose Z field is not zero is illegal. -/
theorem decode_setm_of_ne_zero {z : Half} (hz : z ≠ 0x0000#16) (m : Byte) : decode (0x14#8 ++ m ++ z) = none := by
  have hZ : (0x14#8 ++ m ++ z).extractLsb' 0 16 = z := BitVec.extractLsb'_append_eq_right
  simp [decode, fieldOP_append_byte_half, hZ, hz, whenZero]

/-! ### Any address, threshold and count is stored -/

/-- Settles O32: both commands store their operand unchecked. -/
theorem setAddressCommandsStore : Obligations.SetAddressCommandsStore := fun addr s =>
  ⟨rfl, rfl, exec_setsrc s addr, exec_setdst s addr, fun _ hz =>
    ⟨decode_setHalf_of_ne_zero (by decide) hz addr, decode_setHalf_of_ne_zero (by decide) hz addr⟩⟩

/-- Settles O34: with N = 0 either T = 0 or T > N, so the check of T and N fails; EVAL does not look at N. -/
theorem settnStoresBoth : Obligations.SettnStoresBoth := by
  intro t n s
  refine ⟨rfl, exec_settn s t n, fun z hz => decode_settn_of_ne_zero hz t n, ?_, fun x u v => exec_eval_with_n n⟩
  rintro u rfl rfl h
  refine exec_split_of_error (splitCheck_eq_param (.inr ?_))
  rcases h with ht | hn | hlt
  · exact .inl ht
  · refine or_iff_not_imp_left.2 fun ht => ?_
    rw [hn]
    exact Nat.pos_of_ne_zero fun h0 => ht (BitVec.eq_of_toNat_eq h0)
  · exact .inr hlt

/-- Settles O35: of RECON's checks only that of LEN comes before the one of M. -/
theorem setmStoresTheCount : Obligations.SetmStoresTheCount := by
  intro m s
  refine ⟨rfl, exec_setm s m, fun z hz => decode_setm_of_ne_zero hz m, ?_⟩
  rintro u rfl hm hlen
  exact exec_recon_of_error (reconCheck_eq_share hlen hm)

/-! ### What a length means for SPLIT (R162) -/

section Length

variable {s : State}

/-- Valid parameters have a share amount of at least one. -/
theorem SplitParams.n_pos (h : SplitParams s) : 1 ≤ s.n.toNat := by
  obtain ⟨-, ht, htn⟩ := h
  have h0 : s.t.toNat ≠ 0 := fun h0 => ht (BitVec.eq_of_toNat_eq h0)
  omega

/-- The secret and the share area of a ready SPLIT lie apart in DMEM, so their sizes add up to at most its size. -/
theorem SplitReady.sizes_le (h : SplitReady s) : s.len.toNat + s.n.toNat * (1 + s.len.toNat) ≤ s.cfg.memSize := by
  obtain ⟨-, ⟨hsecret, harea⟩, hapart⟩ := h
  omega

/-- One share is longer than the secret, so a secret that SPLIT takes fills less than half of DMEM. -/
theorem SplitReady.len_le (h : SplitReady s) : 2 * s.len.toNat + 1 ≤ s.cfg.memSize := by
  have hone : 1 * (1 + s.len.toNat) ≤ s.n.toNat * (1 + s.len.toNat) := Nat.mul_le_mul_right _ (SplitParams.n_pos h.1)
  have hsizes := SplitReady.sizes_le h
  omega

/-- With LEN = 65535 only one share fits, at 0, and only a secret at 0 or 1. -/
theorem splitInRange_iff_of_len_max (hmem : s.cfg.memSize = 65536) (hlen : s.len = 0xFFFF#16) (h : SplitParams s) :
    SplitInRange s ↔ s.n = 0x01#8 ∧ s.dst = 0x0000#16 ∧ s.src.toNat ≤ 1 := by
  have hpos := h.n_pos
  have hn : s.n = 0x01#8 ↔ s.n.toNat = 1 := BitVec.toNat_inj.symm
  have hdst : s.dst = 0x0000#16 ↔ s.dst.toNat = 0 := BitVec.toNat_inj.symm
  have hl : s.len.toNat = 65535 := by rw [hlen]; rfl
  rw [hn, hdst, SplitInRange, hmem, hl]
  omega

/-- With LEN = 65535 a SPLIT of valid parameters is out of range, or its secret and its one share overlap. -/
theorem exec_split_of_len_max (hmem : s.cfg.memSize = 65536) (hlen : s.len = 0xFFFF#16) (ht : s.t ≠ 0x00#8)
    (htn : s.t.toNat ≤ s.n.toNat) : exec .split s =
      .next { s with err := if s.n = 0x01#8 ∧ s.dst = 0x0000#16 ∧ s.src.toNat ≤ 1 then 0x05#8 else 0x04#8 } := by
  have hp : SplitParams s := ⟨by rw [hlen]; decide, ht, htn⟩
  have hrange := splitInRange_iff_of_len_max hmem hlen hp
  by_cases hr : SplitInRange s
  · have ho : SplitOverlap s := by
      obtain ⟨hn, hdst, hsrc⟩ := hrange.1 hr
      simp only [SplitOverlap, hlen, hn, hdst, BitVec.toNat_ofNat]
      omega
    rw [if_pos (hrange.1 hr)]
    exact exec_split_of_error (splitCheck_eq_overlap hp hr ho)
  · rw [if_neg (mt hrange.2 hr)]
    exact exec_split_of_error (splitCheck_eq_range hp hr)

/-- A ready SPLIT with T = 1 draws nothing, so a written secret is all it needs. -/
theorem exec_split_of_t_one (h : SplitReady s) (ht : s.t = 0x01#8) (hw : s.Written (secretRange s)) :
    ∃ t : State, exec .split s = .next t ∧ t.err = 0x00#8 := by
  obtain ⟨secret, hr⟩ := Memory.readAll_of_written fun a ha => hw a (ByteRange.mem_addresses_iff.1 ha)
  have hdraws : splitDraws s = 0 := by
    rw [splitDraws, ht]
    rfl
  exact ⟨_, exec_split_of_readAll_ok h hr (.inr (hdraws ▸ Nat.zero_le _)), rfl⟩

/-- At MEM_SIZE = 65536 a secret of 32767 bytes at 0 and its one share, directly after it, fill DMEM. -/
theorem splitReady_of_largest (hmem : s.cfg.memSize = 65536) (hlen : s.len = 0x7FFF#16) (ht : s.t = 0x01#8)
    (hn : s.n = 0x01#8) (hsrc : s.src = 0x0000#16) (hdst : s.dst = 0x7FFF#16) : SplitReady s := by
  simp only [SplitReady, SplitParams, SplitInRange, SplitOverlap, hmem, hlen, ht, hn, hsrc, hdst]
  decide

end Length

/-- Settles O33: the stored length and the checks of SPLIT and RECON in its corner cases. -/
theorem setlenStoresTheLength : Obligations.SetlenStoresTheLength := by
  refine ⟨fun len s => ⟨rfl, exec_setlen s len, fun z hz => decode_setHalf_of_ne_zero (by decide) hz len⟩, fun u =>
    ⟨fun hlen => ⟨?_, ?_⟩, exec_split_of_len_max, fun t h he => ?_, fun hmem hlen ht hn hsrc hdst hw => ?_⟩⟩
  · exact exec_split_of_error (splitCheck_eq_param (.inl hlen))
  · exact exec_recon_of_error (reconCheck_eq_param hlen)
  · obtain ⟨hready, -⟩ := exec_split_success h he
    have hlen := hready.len_le
    exact ⟨hready.sizes_le, fun hmem => by omega⟩
  · exact exec_split_of_t_one (splitReady_of_largest hmem hlen ht hn hsrc hdst) ht hw

/-! ### What leaves the parameter registers alone (R165) -/

/-- The parameter registers of `t` are those of `s`. -/
abbrev SameParameters (s t : State) : Prop :=
  t.src = s.src ∧ t.dst = s.dst ∧ t.len = s.len ∧ t.t = s.t ∧ t.n = s.n ∧ t.m = s.m

theorem SameParameters.refl (s : State) : SameParameters s s := ⟨rfl, rfl, rfl, rfl, rfl, rfl⟩

/-- A command that goes on keeps the parameter registers, or it is a SET command and stores its own. -/
theorem exec_next_parameters {i : Instr} {s t : State} (h : exec i s = .next t) :
    SameParameters s t ∨
    (∃ v, i = .setsrc v ∧ t = (s.setSrc v).finish) ∨
    (∃ v, i = .setdst v ∧ t = (s.setDst v).finish) ∨
    (∃ v, i = .setlen v ∧ t = (s.setLen v).finish) ∨
    (∃ a b, i = .settn a b ∧ t = (s.setTN a b).finish) ∨
    (∃ v, i = .setm v ∧ t = (s.setM v).finish) := by
  rcases exec_next_cases h with ⟨code, -, rfl⟩ | ⟨v, -, rfl⟩ | hsrc | hdst | hlen | htn | hm | ⟨-, -, bs, -, rfl⟩ |
    ⟨-, -, bs, -, rfl⟩
  iterate 2 exact .inl (SameParameters.refl s)
  · exact .inr (.inl hsrc)
  · exact .inr (.inr (.inl hdst))
  · exact .inr (.inr (.inr (.inl hlen)))
  · exact .inr (.inr (.inr (.inr (.inl htn))))
  · exact .inr (.inr (.inr (.inr (.inr hm))))
  iterate 2 exact .inl (SameParameters.refl s)

/-- An ILLEGAL word raises ERR_ILLEGAL and does nothing else (30_encoding.md R76). -/
theorem issue_of_illegal {w : Word} (h : decode w = none) (s : State) : issue w s = .next (s.raiseError .illegal) := by
  rw [issue, h]

/-- A whole aligned bus access at an offset other than 0 is not one to CMD (20_memory.md R55). -/
theorem busRegister_ne_zero {offset width : Nat} (h : BusAligned offset width) (h0 : offset ≠ 0) :
    (busRegister offset).val ≠ 0 := by
  obtain ⟨-, h4, h64⟩ := h
  rw [busRegister, Fin.ofNat_eq_cast, Fin.val_natCast]
  omega

/-- A transaction that is no write to CMD and no reset keeps the parameter registers. -/
theorem transact_keeps_parameters {tr : Transaction} {s t : State} (h : transact tr s = .next t)
    (hreg : ∀ w, tr ≠ .regWrite 0 w) (hbus : ∀ data, tr ≠ .busWrite 0 data) (hreset : tr ≠ .reset)
    (hduring : ∀ w k, tr ≠ .resetDuring w k) : SameParameters s t := by
  cases tr with
  | regWrite r w =>
    have hr : r.val ≠ 0 := fun h0 => hreg w (congrArg (Transaction.regWrite · w) (Fin.ext h0))
    cases (registerWrite_of_ne_zero hr w s).symm.trans h
    exact SameParameters.refl s
  | busWrite offset data =>
    obtain ⟨haligned, hwrite⟩ := busWrite_next h
    have h0 : offset ≠ 0 := fun h0 => hbus data (congrArg (Transaction.busWrite · data) h0)
    cases (registerWrite_of_ne_zero (busRegister_ne_zero haligned h0) _ s).symm.trans hwrite
    exact SameParameters.refl s
  | regRead r => exact Host.Outcome.next.inj h ▸ SameParameters.refl s
  | busRead offset width =>
    obtain ⟨r, rfl⟩ := busRead_next h
    exact SameParameters.refl s
  | hostMemWrite a v => rcases hostMemWrite_next_cases h with ⟨-, rfl⟩ | ⟨-, rfl⟩ <;> exact SameParameters.refl _
  | hostMemRead a =>
    obtain ⟨r, rfl⟩ := hostMemRead_next h
    exact SameParameters.refl s
  | reset => exact absurd rfl hreset
  | resetDuring w k => exact absurd rfl (hduring w k)

/-- Settles O36: each SET command stores its own register, only with success, and nothing else stores one. -/
theorem parametersPersist : Obligations.ParametersPersist := by
  refine ⟨fun i s t h => ?_, fun w s t hd h => ?_, fun s t tr rest hp h => ?_⟩
  · rcases exec_next_parameters h with ⟨hsrc, hdst, hlen, ht, hn, hm⟩ | ⟨v, rfl, rfl⟩ | ⟨v, rfl, rfl⟩ | ⟨v, rfl, rfl⟩ |
      ⟨a, b, rfl, rfl⟩ | ⟨v, rfl, rfl⟩
    · exact ⟨fun _ => hsrc, fun _ => hdst, fun _ => hlen, fun _ => ⟨ht, hn⟩, fun _ => hm⟩
    · exact ⟨fun hc => (hc.elim (· v rfl) (· rfl)).elim, fun _ => rfl, fun _ => rfl, fun _ => ⟨rfl, rfl⟩, fun _ => rfl⟩
    · exact ⟨fun _ => rfl, fun hc => (hc.elim (· v rfl) (· rfl)).elim, fun _ => rfl, fun _ => ⟨rfl, rfl⟩, fun _ => rfl⟩
    · exact ⟨fun _ => rfl, fun _ => rfl, fun hc => (hc.elim (· v rfl) (· rfl)).elim, fun _ => ⟨rfl, rfl⟩, fun _ => rfl⟩
    · exact ⟨fun _ => rfl, fun _ => rfl, fun _ => rfl, fun hc => (hc.elim (· a b rfl) (· rfl)).elim, fun _ => rfl⟩
    · exact ⟨fun _ => rfl, fun _ => rfl, fun _ => rfl, fun _ => ⟨rfl, rfl⟩, fun hc => (hc.elim (· v rfl) (· rfl)).elim⟩
  · cases (issue_of_illegal hd s).symm.trans h
    exact SameParameters.refl s
  · rw [step_of_pending hp] at h
    exact (transact_keeps_parameters h :)

end Sys2Proof.Machine

/-! # Errors (60_exceptions.md R180 to R201)

A command that goes on either raised one of its codes, and changed STATUS.ERR only, or reports success. Which code it raised
is said by the checks it makes before its first DMEM access, with one exception: ERR_SHARE, which RECON also raises after it
read the indices. -/

namespace Sys2Proof.Machine

/-! ### A command that fails (R180, R182) -/

/-- Different codes have different numbers (R180). -/
theorem ErrorCode.number_injective : Function.Injective ErrorCode.number := by
  intro c d
  cases c <;> cases d <;> decide

theorem ok_mem_codesOf (i : Instr) : .ok ∈ codesOf i := by cases i <;> exact List.mem_cons_self

/-- A command that goes on raised one of its codes, which sets STATUS.ERR and nothing else, or it reports success. -/
theorem exec_next_raised_or_ok {i : Instr} {s t : State} (h : exec i s = .next t) :
    (∃ code ∈ codesOf i, t = s.raiseError code) ∨ t.err = 0x00#8 := by
  rcases exec_next_cases h with hraised | ⟨v, -, rfl⟩ | ⟨v, -, rfl⟩ | ⟨v, -, rfl⟩ | ⟨v, -, rfl⟩ | ⟨a, b, -, rfl⟩ |
    ⟨v, -, rfl⟩ | ⟨-, -, bs, -, rfl⟩ | ⟨-, -, bs, -, rfl⟩
  · exact .inl hraised
  iterate 8 exact .inr rfl

/-- Settles O37: a command whose code is not that of success raised it, and raising a code sets STATUS.ERR only. -/
theorem failedCommandOnlySetsStatus : Obligations.FailedCommandOnlySetsStatus := by
  intro i s t h he
  rcases exec_next_raised_or_ok h with ⟨code, -, rfl⟩ | hok
  · rfl
  · exact absurd hok he

/-! ### The code a command raises is that of its first check that fails (R183 to R190) -/

/-- The code of the first check that fails, of the checks a command makes on its operand and the registers. -/
def checkOf (i : Instr) (s : State) : Option ErrorCode :=
  match i with
  | .ginv a => if a = 0x00#8 then some .invZero else none
  | .eval _ => evalCheck s
  | .split => splitCheck s
  | .recon => reconCheck s
  | _ => none

section Checks

variable {i : Instr} {s t : State} {code : ErrorCode}

/-- A check that fails ends the command with its code. -/
theorem exec_of_check (h : checkOf i s = some code) : exec i s = .next (s.raiseError code) := by
  cases i with
  | ginv a =>
    obtain ⟨rfl, rfl⟩ : a = 0x00#8 ∧ .invZero = code := by simpa [checkOf] using h
    exact exec_ginv_zero s
  | eval x => exact exec_eval_of_error h
  | split => exact exec_split_of_error h
  | recon => exact exec_recon_of_error h
  | gadd | gmul | gpow | setsrc | setdst | setlen | settn | setm => cases h

/-- After its checks a command can only report success, or ERR_SHARE: RECON's answer to the indices it read. -/
theorem err_of_check_eq_none (h : checkOf i s = none) (hx : exec i s = .next t) :
    t.err = ErrorCode.ok.number ∨ t.err = ErrorCode.share.number := by
  cases i with
  | ginv a =>
    have ha : a ≠ 0x00#8 := by simpa [checkOf] using h
    cases (exec_ginv_of_ne_zero s ha).symm.trans hx
    exact .inl rfl
  | eval x =>
    rcases execEval_cases x s with ⟨code, hc, -⟩ | ⟨-, f, -, he⟩ | ⟨-, c, -, he⟩
    · cases h.symm.trans hc
    · cases he.symm.trans hx
    · cases he.symm.trans hx
      exact .inl rfl
  | split =>
    rcases execSplit_cases s with ⟨code, hc, -⟩ | ⟨-, f, -, he⟩ | ⟨-, -, he⟩ | ⟨-, -, secret, -, -, he⟩
    · cases h.symm.trans hc
    · cases he.symm.trans hx
    · cases he.symm.trans hx
    · cases he.symm.trans hx
      exact .inl rfl
  | recon =>
    rcases execRecon_cases s with ⟨code, hc, -⟩ | ⟨-, f, -, he⟩ | ⟨-, xs, -, -, he⟩ | ⟨-, xs, -, -, f, -, he⟩ |
      ⟨-, xs, -, -, payloads, -, he⟩
    · cases h.symm.trans hc
    · cases he.symm.trans hx
    · cases he.symm.trans hx
      exact .inr rfl
    · cases he.symm.trans hx
    · cases he.symm.trans hx
      exact .inl rfl
  | gadd | gmul | gpow | setsrc | setdst | setlen | settn | setm =>
    cases hx
    exact .inl rfl

/-- Every code of failure but ERR_SHARE is reported exactly when it is the code of the first check that fails. -/
theorem err_eq_number_iff (hok : code ≠ .ok) (hshare : code ≠ .share) (h : exec i s = .next t) :
    t.err = code.number ↔ checkOf i s = some code := by
  cases hc : checkOf i s with
  | some c =>
    cases (exec_of_check hc).symm.trans h
    rw [State.raiseError_err, ErrorCode.number_injective.eq_iff, Option.some_inj]
  | none =>
    refine iff_of_false (fun he => ?_) nofun
    rcases err_of_check_eq_none hc h with h0 | h0
    · exact hok (ErrorCode.number_injective (he.symm.trans h0))
    · exact hshare (ErrorCode.number_injective (he.symm.trans h0))

theorem exists_err_eq_number_iff (hok : code ≠ .ok) (hshare : code ≠ .share) :
    (∃ t, exec i s = .next t ∧ t.err = code.number) ↔ checkOf i s = some code :=
  ⟨fun ⟨_, h, he⟩ => (err_eq_number_iff hok hshare h).1 he, fun h => ⟨_, exec_of_check h, rfl⟩⟩

end Checks

/-! ### What each check means -/

section CheckCases

variable (s : State)

/-- The four outcomes of SPLIT's checks (41_generator.md R126, R128). -/
theorem splitCheck_cases :
    (¬ SplitParams s ∧ splitCheck s = some .param) ∨
    (SplitParams s ∧ ¬ SplitInRange s ∧ splitCheck s = some .range) ∨
    (SplitParams s ∧ SplitInRange s ∧ SplitOverlap s ∧ splitCheck s = some .overlap) ∨
    (SplitReady s ∧ splitCheck s = none) := by
  by_cases hp : SplitParams s
  · by_cases hr : SplitInRange s
    · by_cases ho : SplitOverlap s
      · exact .inr (.inr (.inl ⟨hp, hr, ho, splitCheck_eq_overlap hp hr ho⟩))
      · exact .inr (.inr (.inr ⟨⟨hp, hr, ho⟩, (splitCheck_eq_none_iff_ready s).2 ⟨hp, hr, ho⟩⟩))
    · exact .inr (.inl ⟨hp, hr, splitCheck_eq_range hp hr⟩)
  · refine .inl ⟨hp, splitCheck_eq_param ?_⟩
    simpa only [SplitParams, not_and_or, not_not, Nat.not_le] using hp

/-- The five outcomes of RECON's checks before its first read (42_interpolator.md R141). -/
theorem reconCheck_cases :
    (s.len = 0x0000#16 ∧ reconCheck s = some .param) ∨
    (s.len ≠ 0x0000#16 ∧ s.m = 0x00#8 ∧ reconCheck s = some .share) ∨
    (s.len ≠ 0x0000#16 ∧ s.m ≠ 0x00#8 ∧ ¬ ReconInRange s ∧ reconCheck s = some .range) ∨
    (s.len ≠ 0x0000#16 ∧ s.m ≠ 0x00#8 ∧ ReconInRange s ∧ ReconOverlap s ∧ reconCheck s = some .overlap) ∨
    (ReconReady s ∧ reconCheck s = none) := by
  by_cases hl : s.len = 0x0000#16
  · exact .inl ⟨hl, reconCheck_eq_param hl⟩
  · by_cases hm : s.m = 0x00#8
    · exact .inr (.inl ⟨hl, hm, reconCheck_eq_share hl hm⟩)
    · by_cases hr : ReconInRange s
      · by_cases ho : ReconOverlap s
        · exact .inr (.inr (.inr (.inl ⟨hl, hm, hr, ho, reconCheck_eq_overlap hl hm hr ho⟩)))
        · have hready : ReconReady s := ⟨hl, hm, hr, ho⟩
          exact .inr (.inr (.inr (.inr ⟨hready, (reconCheck_eq_none_iff_ready s).2 hready⟩)))
      · exact .inr (.inr (.inl ⟨hl, hm, hr, reconCheck_eq_range hl hm hr⟩))

theorem evalCheck_eq_param_iff : evalCheck s = some .param ↔ s.t = 0x00#8 := by
  refine ⟨fun h => by_contra fun ht => ?_, evalCheck_eq_param⟩
  rw [evalCheck, if_neg ht] at h
  split at h <;> cases h

theorem splitCheck_eq_param_iff :
    splitCheck s = some .param ↔ s.len = 0x0000#16 ∨ s.t = 0x00#8 ∨ s.n.toNat < s.t.toNat := by
  refine ⟨fun h => ?_, splitCheck_eq_param⟩
  rcases splitCheck_cases s with ⟨hp, -⟩ | ⟨-, -, hc⟩ | ⟨-, -, -, hc⟩ | ⟨-, hc⟩
  · simpa only [SplitParams, not_and_or, not_not, Nat.not_le] using hp
  all_goals cases h.symm.trans hc

theorem splitCheck_eq_overlap_iff :
    splitCheck s = some .overlap ↔ SplitParams s ∧ SplitInRange s ∧ SplitOverlap s := by
  refine ⟨fun h => ?_, fun ⟨hp, hr, ho⟩ => splitCheck_eq_overlap hp hr ho⟩
  rcases splitCheck_cases s with ⟨-, hc⟩ | ⟨-, -, hc⟩ | ⟨hp, hr, ho, -⟩ | ⟨-, hc⟩
  case inr.inr.inl => exact ⟨hp, hr, ho⟩
  all_goals cases h.symm.trans hc

theorem reconCheck_eq_param_iff : reconCheck s = some .param ↔ s.len = 0x0000#16 := by
  refine ⟨fun h => ?_, reconCheck_eq_param⟩
  rcases reconCheck_cases s with ⟨hl, -⟩ | ⟨-, -, hc⟩ | ⟨-, -, -, hc⟩ | ⟨-, -, -, -, hc⟩ | ⟨-, hc⟩
  · exact hl
  all_goals cases h.symm.trans hc

theorem reconCheck_eq_overlap_iff :
    reconCheck s = some .overlap ↔ s.len ≠ 0x0000#16 ∧ s.m ≠ 0x00#8 ∧ ReconInRange s ∧ ReconOverlap s := by
  refine ⟨fun h => ?_, fun ⟨hl, hm, hr, ho⟩ => reconCheck_eq_overlap hl hm hr ho⟩
  rcases reconCheck_cases s with ⟨-, hc⟩ | ⟨-, -, hc⟩ | ⟨-, -, -, hc⟩ | ⟨hl, hm, hr, ho, -⟩ | ⟨-, hc⟩
  case inr.inr.inr.inl => exact ⟨hl, hm, hr, ho⟩
  all_goals cases h.symm.trans hc

end CheckCases

/-! ### ERR_PARAM (R183) -/

/-- Settles O39: ERR_PARAM is the code of a check, and only EVAL, SPLIT and RECON have a check with this code. -/
theorem errParamExactly : Obligations.ErrParamExactly := by
  intro i s
  refine (exists_err_eq_number_iff (code := .param) nofun nofun).trans ?_
  cases i with
  | eval x => simp [checkOf, evalCheck_eq_param_iff]
  | split => simp [checkOf, splitCheck_eq_param_iff]
  | recon => simp [checkOf, reconCheck_eq_param_iff]
  | ginv | gadd | gmul | gpow | setsrc | setdst | setlen | settn | setm => simp [checkOf]

/-! ### ERR_INV_ZERO (R188) -/

theorem checkOf_eq_invZero_iff (i : Instr) (s : State) : checkOf i s = some .invZero ↔ i = .ginv 0x00#8 := by
  cases i with
  | ginv a => simp [checkOf]
  | eval x => exact iff_of_false (fun h => by rcases evalCheck_code h with h | h <;> cases h) nofun
  | split => exact iff_of_false (fun h => by rcases splitCheck_code h with h | h | h <;> cases h) nofun
  | recon => exact iff_of_false (fun h => by rcases reconCheck_code h with h | h | h | h <;> cases h) nofun
  | gadd | gmul | gpow | setsrc | setdst | setlen | settn | setm => exact iff_of_false nofun nofun

/-- The indices that RECON read are the index bytes of its share set. -/
theorem read_index_of_readAll_indexAddresses {s : State} {xs : List Byte}
    (h : s.mem.readAll (indexAddresses s) = .ok xs) : xs.length = s.m.toNat ∧ ∀ j < xs.length,
      s.mem.read (shareByteAt s.src.toNat s.len.toNat j 0) = some (xs.getD j 0x00#8) := by
  have hindex := map_some_of_readAll_indexAddresses h
  have hl : xs.length = s.m.toNat := by simpa using congrArg List.length hindex
  refine ⟨hl, fun j hj => ?_⟩
  have hentry := congrArg (fun l => l[j]?) hindex
  simpa [hj, ← hl] using hentry.symm

/-- No two of the indices that RECON accepts are equal. -/
theorem IndicesOk.getD_ne {xs : List Byte} (hx : IndicesOk xs) {j k : Nat} (hjk : j < k) (hk : k < xs.length) :
    xs.getD j 0x00#8 ≠ xs.getD k 0x00#8 := fun h => not_indicesOk (.inr ⟨j, k, hjk, hk, h⟩) hx

/-- Settles O40: only GINV has a check with this code; a RECON that stores accepted its indices. -/
theorem errInvZeroOnlyFromGinv : Obligations.ErrInvZeroOnlyFromGinv := by
  refine ⟨fun i s => ?_, fun s t h he => ?_, fun xs hx j k hjk hk => ?_⟩
  · exact (exists_err_eq_number_iff (code := .invZero) nofun nofun).trans (checkOf_eq_invZero_iff i s)
  · obtain ⟨-, xs, -, hr, hx, -, -⟩ := exec_recon_success h he
    obtain ⟨hl, hindex⟩ := read_index_of_readAll_indexAddresses hr
    exact ⟨xs, hl, hx, hindex⟩
  · have hne := IndicesOk.getD_ne hx hjk hk
    exact ⟨gadd_ne_zero hne.symm, gadd_ne_zero hne⟩

/-! ### ERR_OVERLAP (R185) -/

/-- The higher of the two bases lies in both of two ranges that overlap. -/
theorem ByteRange.overlaps_iff {r w : ByteRange} (hr : 1 ≤ r.size) (hw : 1 ≤ w.size) :
    r.Overlaps w ↔ ∃ a, r.Has a ∧ w.Has a := by
  constructor
  · rintro ⟨hrw, hwr⟩
    exact ⟨max r.base w.base, by simp only [ByteRange.Has]; omega⟩
  · rintro ⟨a, ⟨hra, har⟩, hwa, haw⟩
    exact ⟨by omega, by omega⟩

/-- A register that is not zero counts at least one byte. -/
theorem one_le_toNat {w : Nat} {v : BitVec w} (h : v ≠ 0#w) : 1 ≤ v.toNat :=
  Nat.pos_of_ne_zero (by simpa using BitVec.toNat_ne.1 h)

theorem one_le_mul_shareSize (s : State) {k : Nat} (h : 1 ≤ k) : 1 ≤ k * shareSize s :=
  Nat.mul_pos h (by rw [shareSize]; omega)

/-- Settles O43: with the earlier checks passed, no range of SPLIT or RECON is empty. -/
theorem rangesOverlapWhenTheyShareAByte : Obligations.RangesOverlapWhenTheyShareAByte := by
  refine ⟨fun r w => ByteRange.overlaps_iff, fun s t h => ?_, fun s t h => ?_⟩
  · refine ((err_eq_number_iff (code := .overlap) nofun nofun h).trans (splitCheck_eq_overlap_iff s)).trans ?_
    refine and_congr_right fun hp => and_congr_right fun _ => ?_
    have harea : 1 ≤ (shareAreaRange s).size := one_le_mul_shareSize s hp.n_pos
    obtain ⟨hl, -, -⟩ := hp
    exact ByteRange.overlaps_iff (r := secretRange s) (one_le_toNat hl) harea
  · refine ((err_eq_number_iff (code := .overlap) nofun nofun h).trans (reconCheck_eq_overlap_iff s)).trans ?_
    refine and_congr_right fun hl => and_congr_right fun hm => and_congr_right fun _ => ?_
    exact ByteRange.overlaps_iff (r := shareSetRange s) (w := outputRange s)
      (one_le_mul_shareSize s (one_le_toNat hm)) (one_le_toNat hl)

/-! ### Every code is reached (R180, R186) -/

/-- One share of one byte at address 0, which is also a secret of one byte, and room for a result at 2: EVAL, SPLIT and
RECON all succeed. Each error is reached by changing one register. -/
def oneShareState : State :=
  { State.reset with
    mem := [(0, 0x01#8), (1, 0x7E#8)], dst := 0x0002#16, len := 0x0001#16, t := 0x01#8, n := 0x01#8, m := 0x01#8 }

theorem ginv_reaches_its_codes : ∀ code ∈ codesOf (.ginv 0x00#8),
    ∃ (a : Byte) (s t : State), exec (.ginv a) s = .next t ∧ t.err = code.number := by
  simp only [codesOf, List.forall_mem_cons]
  exact ⟨⟨_, _, _, exec_ginv_of_ne_zero State.reset (a := 0x01#8) (by decide), rfl⟩,
    ⟨_, _, _, exec_ginv_zero State.reset, rfl⟩, nofun⟩

theorem eval_reaches_its_codes (x : Byte) : ∀ code ∈ codesOf (.eval x),
    ∃ s t : State, exec (.eval x) s = .next t ∧ t.err = code.number := by
  simp only [codesOf, List.forall_mem_cons]
  exact ⟨⟨oneShareState, _, exec_eval_of_readAll_ok (c := [0x01#8]) (by decide) rfl, rfl⟩,
    ⟨{ oneShareState with t := 0x00#8 }, _, exec_eval_of_error (code := .param) (by decide), rfl⟩,
    ⟨{ oneShareState with src := 0xFFFF#16, t := 0x02#8 }, _, exec_eval_of_error (code := .range) (by decide), rfl⟩, nofun⟩

theorem split_reaches_its_codes : ∀ code ∈ codesOf .split,
    ∃ s t : State, exec .split s = .next t ∧ t.err = code.number := by
  simp only [codesOf, List.forall_mem_cons]
  exact ⟨⟨oneShareState, _, exec_split_of_readAll_ok (secret := [0x01#8]) (by decide) rfl (.inl rfl), rfl⟩,
    ⟨{ oneShareState with len := 0x0000#16 }, _, exec_of_check (code := .param) (by decide), rfl⟩,
    ⟨{ oneShareState with dst := 0xFFFF#16 }, _, exec_of_check (code := .range) (by decide), rfl⟩,
    ⟨{ oneShareState with dst := 0x0000#16 }, _, exec_of_check (code := .overlap) (by decide), rfl⟩, nofun⟩

theorem recon_reaches_its_codes : ∀ code ∈ codesOf .recon,
    ∃ s t : State, exec .recon s = .next t ∧ t.err = code.number := by
  simp only [codesOf, List.forall_mem_cons]
  exact ⟨⟨oneShareState, _, exec_recon_of_read (xs := [0x01#8]) (payloads := [[0x7E#8]]) (by decide) rfl (by decide) rfl,
      rfl⟩,
    ⟨{ oneShareState with len := 0x0000#16 }, _, exec_of_check (code := .param) (by decide), rfl⟩,
    ⟨{ oneShareState with src := 0xFFFF#16 }, _, exec_of_check (code := .range) (by decide), rfl⟩,
    ⟨{ oneShareState with dst := 0x0000#16 }, _, exec_of_check (code := .overlap) (by decide), rfl⟩,
    ⟨{ oneShareState with m := 0x00#8 }, _, exec_of_check (code := .share) (by decide), rfl⟩, nofun⟩

/-- Settles O38: a command reports a code that it raised or success, and each code is reached. -/
theorem codesAreThoseOfTheTable : Obligations.CodesAreThoseOfTheTable := by
  refine ⟨fun i s t h => ?_, ⟨rfl, rfl, rfl, rfl, rfl, rfl, rfl⟩, ginv_reaches_its_codes, eval_reaches_its_codes,
    split_reaches_its_codes, recon_reaches_its_codes⟩
  rcases exec_next_raised_or_ok h with ⟨code, hcode, rfl⟩ | hok
  · exact ⟨code, hcode, rfl⟩
  · exact ⟨.ok, ok_mem_codesOf i, hok⟩

/-! ### Illegal words, the silent provider and the idle block (R187, R200, R201) -/

/-- A write to CMD issues the word (10_state.md R35). -/
theorem registerWrite_cmd (w : Word) (s : State) : registerWrite 0 w s = issue w s := if_pos rfl

/-- Settles O4: the write to CMD of a word that does not decode raises ERR_ILLEGAL. -/
theorem illegalWordOnlySetsStatus : Obligations.IllegalWordOnlySetsStatus := by
  intro s w rest hp hd
  rw [step_of_pending hp]
  exact (registerWrite_cmd w _).trans (issue_of_illegal hd _)

/-- Settles O22: its checks and the read of its secret passed, so SPLIT comes to its draws. -/
theorem splitWaitsForTheProvider : Obligations.SplitWaitsForTheProvider := by
  intro s hready hsecret hsilent
  rcases execSplit_cases s with ⟨code, hc, -⟩ | ⟨-, f, hr, -⟩ | ⟨-, -, he⟩ | ⟨-, ha, -⟩
  · cases ((splitCheck_eq_none_iff_ready s).2 hready).symm.trans hc
  · obtain ⟨a, ha, hn, -⟩ := Memory.fault_of_readAll hr
    obtain ⟨i, hi, rfl⟩ := List.mem_range'.1 ha
    rw [Nat.one_mul] at hn
    exact absurd hn (hsecret i hi)
  · exact he
  · exact absurd ha hsilent

/-- Settles O49: with no transaction to take, a step changes nothing. -/
theorem idleBlockKeepsState : Obligations.IdleBlockKeepsState := by
  intro s hp
  rw [step, serve, hp]

end Sys2Proof.Machine

/-! # Reset and hazards (70_reset_and_hazards.md R210 to R215)

A command ends in `finish` or in `raiseError`, which both overwrite STATUS.ERR, and only one that writes RES overwrites RES.
A reset that abandons a command clears the registers and forgets the bytes of the command's write range. -/

namespace Sys2Proof.Machine

/-! ### STATUS.ERR and RES between commands (R214, R215) -/

/-- Settles O41: no check, read or draw looks at STATUS.ERR, and every end of a command overwrites it. -/
theorem statusIsPerCommand : Obligations.StatusIsPerCommand := by
  intro i s e
  cases i <;> rfl

/-- The commands that write RES when they succeed (R215). -/
abbrev WritesRes (i : Instr) : Prop :=
  ∃ a b, i = .gadd a b ∨ i = .gmul a b ∨ i = .gpow a b ∨ i = .ginv a ∨ i = .eval a

/-- A command that goes on is a success of one that writes RES, whatever RES held before, or it keeps RES. -/
theorem exec_next_res {i : Instr} {s t : State} (h : exec i s = .next t) :
    (t.err = 0x00#8 ∧ WritesRes i ∧ ∀ r, exec i { s with res := r } = .next t) ∨
    (t.res = s.res ∧ ¬ (t.err = 0x00#8 ∧ WritesRes i)) := by
  cases i with
  | gadd a b | gmul a b | gpow a b =>
    refine .inl ⟨?_, ⟨a, b, by simp⟩, fun r => h⟩
    cases h
    rfl
  | ginv a =>
    by_cases ha : a = 0x00#8
    · cases (ha ▸ exec_ginv_zero s).symm.trans h
      exact .inr ⟨rfl, by simp⟩
    · cases (exec_ginv_of_ne_zero s ha).symm.trans h
      exact .inl ⟨rfl, ⟨a, 0x00#8, by simp⟩, fun r => exec_ginv_of_ne_zero { s with res := r } ha⟩
  | eval x =>
    rcases execEval_cases x s with ⟨code, hc, he⟩ | ⟨-, f, -, he⟩ | ⟨hc, c, hr, he⟩ <;> cases he.symm.trans h
    · refine .inr ⟨rfl, fun ⟨h0, _⟩ => ?_⟩
      cases ErrorCode.number_eq_zero h0
      rcases evalCheck_code hc with hok | hok <;> cases hok
    · exact .inl ⟨rfl, ⟨x, 0x00#8, by simp⟩, fun r => exec_eval_of_readAll_ok (s := { s with res := r }) hc hr⟩
  | setsrc | setdst | setlen | settn | setm =>
    cases h
    exact .inr ⟨rfl, by simp⟩
  | split =>
    refine .inr ⟨?_, by simp⟩
    rcases execSplit_cases s with ⟨code, -, he⟩ | ⟨-, f, -, he⟩ | ⟨-, -, he⟩ | ⟨-, -, secret, -, -, he⟩ <;>
      cases he.symm.trans h <;> rfl
  | recon =>
    refine .inr ⟨?_, by simp⟩
    rcases execRecon_cases s with ⟨code, -, he⟩ | ⟨-, f, -, he⟩ | ⟨-, xs, -, -, he⟩ | ⟨-, xs, -, -, f, -, he⟩ |
      ⟨-, xs, -, -, payloads, -, he⟩ <;> cases he.symm.trans h <;> rfl

/-- Settles O42: a command either wrote RES or kept it. -/
theorem resIsWrittenOnSuccessOnly : Obligations.ResIsWrittenOnSuccessOnly := by
  intro i s t h
  rcases exec_next_res h with ⟨he, hw, hany⟩ | ⟨hkept, hn⟩
  · exact ⟨fun _ => hany, fun hn => absurd ⟨he, hw⟩ hn⟩
  · exact ⟨fun hs => absurd hs hn, fun _ => hkept⟩

/-! ### A reset during a command (R212) -/

/-- Only an abandoned SPLIT or RECON has a write range. -/
theorem abandonedRange_size_eq_zero {i : Instr} (hsplit : i ≠ .split) (hrecon : i ≠ .recon) (s : State) :
    (abandonedRange i s).size = 0 := by
  cases i with
  | split => exact absurd rfl hsplit
  | recon => exact absurd rfl hrecon
  | gadd | gmul | ginv | gpow | setsrc | setdst | setlen | settn | setm | eval => rfl

/-- An abandoned command leaves the bytes of its write range unwritten and every other byte as it was. -/
theorem read_abandonMem {w : Word} {i : Instr} (h : decode w = some i) (s : State) (a : Nat) :
    (abandonMem w s).read a = if (abandonedRange i s).Has a then none else s.mem.read a := by
  rw [abandonMem, h]
  exact Memory.read_forget _ _ _ _

/-- A word that is no SPLIT and no RECON leaves every byte as it was. -/
theorem read_abandonMem_of_ne {w : Word} (hsplit : decode w ≠ some .split) (hrecon : decode w ≠ some .recon)
    (s : State) (a : Nat) : (abandonMem w s).read a = s.mem.read a := by
  cases hd : decode w with
  | none => rw [abandonMem, hd]
  | some i =>
    have hsize : (abandonedRange i s).size = 0 :=
      abandonedRange_size_eq_zero (fun h => hsplit (h ▸ hd)) (fun h => hrecon (h ▸ hd)) s
    rw [read_abandonMem hd, if_neg (by simp only [ByteRange.Has]; omega)]

/-- Settles O53: the step clears the registers, and DMEM is what the abandoned word leaves. -/
theorem resetAbandonsACommand : Obligations.ResetAbandonsACommand := by
  intro s w taken rest hp
  refine ⟨_, step_of_pending hp, ⟨rfl, rfl, rfl, rfl, rfl, rfl, rfl, rfl, rfl, rfl⟩, ?_, ?_, ?_⟩
  · exact fun hd a => read_abandonMem hd _ a
  · exact fun hd a => read_abandonMem hd _ a
  · exact fun hsplit hrecon a => read_abandonMem_of_ne hsplit hrecon _ a

end Sys2Proof.Machine
